-- ==== Sys2Proof/Word.lean ====
section
/-! DEFINITION. The word types of the 8085 slice (00_scope.md R5 to R7); their plain arithmetic is that of `BitVec`. -/

namespace Sys2Proof

/-- An 8-bit value: a register, a memory location, a port address (00_scope.md R5, R6). -/
abbrev Byte := BitVec 8

/-- A 16-bit value: `pc`, `sp`, a memory address, a register pair (00_scope.md R5). Addition and
subtraction wrap modulo 2^16 (00_scope.md R7). -/
abbrev Word := BitVec 16

end Sys2Proof
end

