-- ==== Sys2Proof/Config.lean ====
section
/-! DEFINITION. What the implementation or the launch fixes (00_scope.md R5), and the free values: the
draws of 00_scope.md R12 and the answers of devices, as constants with no body, so that no proof can
know a value of one. -/

namespace Sys2Proof

/-! ### The launch parameters (10_state.md R41) -/

/-- One range of the memory map `MEM` (20_memory.md R52): which accesses it admits and whether its
locations are plain storage or a device. `base` and `size` count bytes. -/
structure Region where
  base : Nat
  size : Nat
  readable : Bool
  writable : Bool
  plain : Bool
deriving DecidableEq, Repr

/-- The instance of `AC_SUB` a launch names (10_state.md R33, decision D9). -/
inductive AcSub where
  /-- The spec's recommended instance, `acSubRecommended`. -/
  | recommended
  /-- Some other function: `Config.acSubOther k`, of which nothing is known. -/
  | other (k : Nat)
deriving DecidableEq, Repr

/-- The instance of `OUT_DEV` a launch names: what an output port does with a byte (20_memory.md R53,
decision D18; log 11). -/
inductive OutDev where
  /-- The default: the port and the byte are appended to the output trace. -/
  | recorded
  /-- Some other device, number `k`: the byte is presented to it, and what it does with it shows only in
  what devices answer later (`Config.deviceByte`, of which nothing is known). -/
  | other (k : Nat)
deriving DecidableEq, Repr

/-- `OPERAND_ORDER`: which operand byte of a three-byte instruction is the low half (20_memory.md R55,
decision D1; log 13). -/
inductive OperandOrder where
  /-- Byte 2 is the low half: the value the spec gives. -/
  | lowFirst
  | highFirst
deriving DecidableEq, Repr

/-- `PSW_LAYOUT`: the bit of the flag byte that holds each flag (10_state.md R36, decision D10; log 7). -/
structure PswLayout where
  s : Fin 8
  z : Fin 8
  ac : Fin 8
  p : Fin 8
  cy : Fin 8
deriving DecidableEq, Repr

/-- A layout gives the five flags five different bits. -/
def PswLayout.wf (l : PswLayout) : Bool := decide ([l.s, l.z, l.ac, l.p, l.cy].Nodup)

/-- The parameters of the step relation (10_state.md R41) but `END_PC`, which is a parameter of a run.
No step changes them. -/
structure Launch where
  memMap : List Region
  outDev : OutDev
  resetPc : Word
  acSub : AcSub
  pswLayout : PswLayout
  operandOrder : OperandOrder
deriving DecidableEq, Repr

/-! ### Accesses -/

/-- The kinds of memory access (20_memory.md R52, 93_implementation_defined.md U2). -/
inductive AccessKind where
  | fetch | read | write
deriving DecidableEq, Repr

/-- One access to something outside the core that is not plain storage (20_memory.md R59; log 26). -/
inductive BusEvent where
  /-- A memory access at a location that is not plain, with the byte read or written. -/
  | access (kind : AccessKind) (addr : Word) (v : Byte)
  /-- An `IoWrite` (00_scope.md R11) under an `OUT_DEV` that is not the default. -/
  | port (port v : Byte)
deriving DecidableEq, Repr

namespace Config

/-- `RESET_PC`, at the value the spec recommends (00_scope.md R5; PRESUMED, log 2; unsafe). -/
def resetPc : Word := 0x0000#16

/-- What a location that the memory does not list reads as (DESIGN CHOICE, log 4; unsafe). -/
def unlistedByte : Byte := 0x00#8

/-- The default `MEM`: all 65,536 locations are plain read-write storage (20_memory.md R52, D17). -/
def defaultMemMap : List Region :=
  [{ base := 0, size := 65536, readable := true, writable := true, plain := true }]

/-- The recommended `PSW_LAYOUT` (00_scope.md R5, 10_state.md R36; PRESUMED, log 7). -/
def recommendedPswLayout : PswLayout := { s := 7, z := 6, ac := 4, p := 2, cy := 0 }

/-- The launch that `State.reset` names: every parameter at the spec's default, recommended or decided
value (00_scope.md R5; log 5). -/
def defaultLaunch : Launch :=
  { memMap := defaultMemMap
    outDev := .recorded
    resetPc := resetPc
    acSub := .recommended
    pswLayout := recommendedPswLayout
    operandOrder := .lowFirst }

/-- FREE VALUE. `RIM_WORD`: the word a RIM reads (44_io_rim_sim.md R141, draw_8). It is applied to the
draw's number and to the hidden state that RIM reads "through the draw" (10_state.md R38): `imask`,
`r75`, `ie`, `sid` (log 9; safe). -/
opaque rimWord (draw : Nat) (imask : BitVec 3) (r75 ie sid : Bool) : Byte

/-- FREE VALUE. The unspecified bits of the flag byte a PUSH PSW stores (10_state.md R36, draw_3),
applied to the draw's number: bit `k` is used where the layout puts no flag at bit `k` (log 8; safe). -/
opaque pswSpare (draw : Nat) : Byte

/-- FREE VALUE. The AC flag after a subtraction under an instance of `AC_SUB` other than the
recommended one: of A, the operand and the incoming CY (10_state.md R33, D9; log 6; safe). -/
opaque acSubOther (k : Nat) (a v : Byte) (c : Bool) : Bool

/-- FREE VALUE. The byte a read of a location that is not plain storage returns (20_memory.md R59: the
access is performed, "the spec promises no more"), of the launch, which names the devices, and of every
device access so far (log 26; safe). -/
opaque deviceByte (l : Launch) (bus : List BusEvent) (kind : AccessKind) (addr : Word) : Byte

end Config

end Sys2Proof
end

