-- ==== Sys2Proof/Syntax.lean ====
section
/-! DEFINITION. The instructions (spec/opcode_table.json): one constructor per entry of the document, so
one per rule R100 to R183; the rows of an entry differ in its operands only. -/

namespace Sys2Proof

/-- The seven 8-bit registers (10_state.md R21). -/
inductive Reg where
  | a | b | c | d | e | h | l
deriving DecidableEq, Repr

/-- The register pairs (10_state.md R23). Which of them an instruction admits is `Instr.wellFormed`. -/
inductive RegPair where
  | bc | de | hl | sp | psw
deriving DecidableEq, Repr

/-- The eight conditions (00_scope.md R14). -/
inductive Cond where
  | nz | z | nc | c | po | pe | p | m
deriving DecidableEq, Repr

/-- The 41 entries of the document, JPE to SPHL (00_scope.md R3). -/
inductive Instr where
  /-- JPE addr16 (R100). -/
  | jpe (addr : Word)
  /-- JZ addr16 (R101). -/
  | jz (addr : Word)
  /-- JNZ addr16 (R102). -/
  | jnz (addr : Word)
  /-- PCHL (R103). -/
  | pchl
  /-- LDA addr16 (R110). -/
  | lda (addr : Word)
  /-- LDAX Rp (R111). -/
  | ldax (pair : RegPair)
  /-- LHLD addr16 (R112). -/
  | lhld (addr : Word)
  /-- LXI Rp, data16 (R113). -/
  | lxi (pair : RegPair) (data : Word)
  /-- SHLD addr16 (R114). -/
  | shld (addr : Word)
  /-- SPHL (R115). -/
  | sphl
  /-- MOV Rd, Rs (R120). -/
  | movRR (rd rs : Reg)
  /-- MOV M, Rs (R121). -/
  | movMR (rs : Reg)
  /-- MOV Rd, M (R122). -/
  | movRM (rd : Reg)
  /-- MVI R, data8 (R123). -/
  | mviR (r : Reg) (data : Byte)
  /-- MVI M, data8 (R124). -/
  | mviM (data : Byte)
  /-- NOP (R125). -/
  | nop
  /-- ORA R (R130). -/
  | oraR (r : Reg)
  /-- ORA M (R131). -/
  | oraM
  /-- ORI data8 (R132). -/
  | ori (data : Byte)
  /-- RAL (R133). -/
  | ral
  /-- RAR (R134). -/
  | rar
  /-- RLC (R135). -/
  | rlc
  /-- RRC (R136). -/
  | rrc
  /-- OUT port8 (R140). -/
  | out (port : Byte)
  /-- RIM (R141). -/
  | rim
  /-- SIM (R142). -/
  | sim
  /-- POP Rp (R150). -/
  | pop (pair : RegPair)
  /-- PUSH Rp (R151). -/
  | push (pair : RegPair)
  /-- RET (R160). -/
  | ret
  /-- RC (R161). -/
  | rc
  /-- RNC (R162). -/
  | rnc
  /-- RP (R163). -/
  | rp
  /-- RM (R164). -/
  | rm
  /-- RPE (R165). -/
  | rpe
  /-- RPO (R166). -/
  | rpo
  /-- RZ (R167). -/
  | rz
  /-- RNZ (R168). -/
  | rnz
  /-- RST n, n = 0 to 7 (R170). -/
  | rst (n : BitVec 3)
  /-- SBB R, printed "SSB R" (R181, conflict C2). -/
  | sbbR (r : Reg)
  /-- SBB M (R182). -/
  | sbbM
  /-- SBI data8 (R183). -/
  | sbi (data : Byte)
deriving DecidableEq, Repr

end Sys2Proof
end

