-- ==== Sys2Proof/WellFormed.lean ====
section
/-! DEFINITION. Which instructions are instructions of the spec: the column "admitted by" of
10_state.md R23. Every other operand is well formed by its type. -/

namespace Sys2Proof

/-- The pairs LDAX admits: "`Rp` ∈ {BC, DE} only" (R111). -/
def RegPair.admittedByLdax : RegPair → Bool
  | .bc | .de => true
  | .hl | .sp | .psw => false

/-- The pairs LXI admits: BC, DE, HL, SP (R113). -/
def RegPair.admittedByLxi : RegPair → Bool
  | .bc | .de | .hl | .sp => true
  | .psw => false

/-- The pairs POP and PUSH admit: BC, DE, HL, PSW (R150, R151). -/
def RegPair.admittedByStack : RegPair → Bool
  | .bc | .de | .hl | .psw => true
  | .sp => false

/-- An instruction of the spec: its register pair, where it has one, is one its rule admits (R23). -/
def Instr.wellFormed : Instr → Bool
  | .ldax p => p.admittedByLdax
  | .lxi p _ => p.admittedByLxi
  | .pop p => p.admittedByStack
  | .push p => p.admittedByStack
  | .jpe _ | .jz _ | .jnz _ | .pchl | .lda _ | .lhld _ | .shld _ | .sphl
  | .movRR _ _ | .movMR _ | .movRM _ | .mviR _ _ | .mviM _ | .nop
  | .oraR _ | .oraM | .ori _ | .ral | .rar | .rlc | .rrc | .out _ | .rim | .sim
  | .ret | .rc | .rnc | .rp | .rm | .rpe | .rpo | .rz | .rnz | .rst _
  | .sbbR _ | .sbbM | .sbi _ => true

end Sys2Proof
end

