-- ==== Sys2Proof/Decode.lean ====
section
/-! DEFINITION. The halves of a word; the decoder (30_encoding.md R70 to R82), total on any bytes and rejecting by name, and
after it the encoder, written from the same tables. -/

namespace Sys2Proof

/-! ### Halves of a word -/

/-- `w[15:8]` (00_scope.md R8). -/
def hi8 (w : Word) : Byte := w.extractLsb' 8 8

/-- `w[7:0]` (00_scope.md R8). -/
def lo8 (w : Word) : Byte := w.extractLsb' 0 8

/-- `hi:lo`, the concatenation with the left value in the upper bits:
`zext_16(hi)*256 + zext_16(lo)` (00_scope.md R8). -/
def concat (hi lo : Byte) : Word := hi.setWidth 16 * 256#16 + lo.setWidth 16

/-! ### The decoder -/

/-- What a first byte selects (R70): a format, with the operand bytes still to come. -/
inductive Format where
  /-- F1: one byte, no operand byte. -/
  | f1 (i : Instr)
  /-- F2: `b2` is the 8-bit operand. -/
  | f2 (mk : Byte → Instr)
  /-- F3: `b3:b2` is the 16-bit operand. -/
  | f3 (mk : Word → Instr)

/-- Why bytes are no instruction. -/
inductive DecodeError where
  /-- There is no first byte. -/
  | empty
  /-- The first byte is one of the 120 values the opcode table does not list (R82). -/
  | unlistedOpcode (op : Byte)
  /-- The bytes end before the instruction's length (R70) does. -/
  | truncated (op : Byte)
deriving DecidableEq, Repr

/-- The register code `sss` or `ddd` (R72); `none` is 110, the memory operand M. -/
def Reg.ofCode (k : BitVec 3) : Option Reg :=
  match k.toNat with
  | 0 => some .b
  | 1 => some .c
  | 2 => some .d
  | 3 => some .e
  | 4 => some .h
  | 5 => some .l
  | 6 => none
  | _ => some .a

/-- Quadrant 00 of the opcode map (R77), by bits 5:3 and bits 2:0. -/
def decodeQuadrant0 (y z : BitVec 3) : Option Format :=
  match z.toNat, y.toNat with
  | 0, 0 => some (.f1 .nop)                                   -- 00
  | 0, 4 => some (.f1 .rim)                                   -- 20
  | 0, 6 => some (.f1 .sim)                                   -- 30
  | 1, 0 => some (.f3 (.lxi .bc))                             -- 01
  | 1, 2 => some (.f3 (.lxi .de))                             -- 11
  | 1, 4 => some (.f3 (.lxi .hl))                             -- 21
  | 1, 6 => some (.f3 (.lxi .sp))                             -- 31
  | 2, 1 => some (.f1 (.ldax .bc))                            -- 0A
  | 2, 3 => some (.f1 (.ldax .de))                            -- 1A
  | 2, 4 => some (.f3 .shld)                                  -- 22
  | 2, 5 => some (.f3 .lhld)                                  -- 2A
  | 2, 7 => some (.f3 .lda)                                   -- 3A
  | 6, _ =>                                                   -- 00 ddd 110
    match Reg.ofCode y with
    | some r => some (.f2 (.mviR r))
    | none => some (.f2 .mviM)
  | 7, 0 => some (.f1 .rlc)                                   -- 07
  | 7, 1 => some (.f1 .rrc)                                   -- 0F
  | 7, 2 => some (.f1 .ral)                                   -- 17
  | 7, 3 => some (.f1 .rar)                                   -- 1F
  | _, _ => none

/-- Quadrant 01 (R77): MOV; 76h, with both fields 110, is unlisted. -/
def decodeQuadrant1 (y z : BitVec 3) : Option Format :=
  match Reg.ofCode y, Reg.ofCode z with
  | some rd, some rs => some (.f1 (.movRR rd rs))
  | some rd, none => some (.f1 (.movRM rd))
  | none, some rs => some (.f1 (.movMR rs))
  | none, none => none

/-- Quadrant 10 (R77): SBB `10 011 sss` and ORA `10 110 sss`. -/
def decodeQuadrant2 (y z : BitVec 3) : Option Format :=
  match y.toNat, Reg.ofCode z with
  | 3, some r => some (.f1 (.sbbR r))
  | 3, none => some (.f1 .sbbM)
  | 6, some r => some (.f1 (.oraR r))
  | 6, none => some (.f1 .oraM)
  | _, _ => none

/-- Quadrant 11 (R77): returns, POP, jumps, OUT, PUSH, immediates, RST. JPE is EAh (R74, D29; log 12)
and E2h is unlisted. -/
def decodeQuadrant3 (y z : BitVec 3) : Option Format :=
  match z.toNat, y.toNat with
  | 0, 0 => some (.f1 .rnz)                                   -- C0
  | 0, 1 => some (.f1 .rz)                                    -- C8
  | 0, 2 => some (.f1 .rnc)                                   -- D0
  | 0, 3 => some (.f1 .rc)                                    -- D8
  | 0, 4 => some (.f1 .rpo)                                   -- E0
  | 0, 5 => some (.f1 .rpe)                                   -- E8
  | 0, 6 => some (.f1 .rp)                                    -- F0
  | 0, 7 => some (.f1 .rm)                                    -- F8
  | 1, 0 => some (.f1 (.pop .bc))                             -- C1
  | 1, 1 => some (.f1 .ret)                                   -- C9
  | 1, 2 => some (.f1 (.pop .de))                             -- D1
  | 1, 4 => some (.f1 (.pop .hl))                             -- E1
  | 1, 5 => some (.f1 .pchl)                                  -- E9
  | 1, 6 => some (.f1 (.pop .psw))                            -- F1
  | 1, 7 => some (.f1 .sphl)                                  -- F9
  | 2, 0 => some (.f3 .jnz)                                   -- C2
  | 2, 1 => some (.f3 .jz)                                    -- CA
  | 2, 5 => some (.f3 .jpe)                                   -- EA
  | 3, 2 => some (.f2 .out)                                   -- D3
  | 5, 0 => some (.f1 (.push .bc))                            -- C5
  | 5, 2 => some (.f1 (.push .de))                            -- D5
  | 5, 4 => some (.f1 (.push .hl))                            -- E5
  | 5, 6 => some (.f1 (.push .psw))                           -- F5
  | 6, 3 => some (.f2 .sbi)                                   -- DE
  | 6, 6 => some (.f2 .ori)                                   -- F6
  | 7, _ => some (.f1 (.rst y))                               -- 11 nnn 111
  | _, _ => none

/-- The row of the opcode table a first byte selects (R80); `none` is an unlisted byte (R82). The
fields are those of R71: `q` in bits 7:6, then bits 5:3, then bits 2:0. -/
def decodeOpcode (op : Byte) : Option Format :=
  let y := op.extractLsb' 3 3
  let z := op.extractLsb' 0 3
  match (op.extractLsb' 6 2).toNat with
  | 0 => decodeQuadrant0 y z
  | 1 => decodeQuadrant1 y z
  | 2 => decodeQuadrant2 y z
  | _ => decodeQuadrant3 y z

/-- The 16-bit operand of an F3 instruction: `b3:b2` in the order the spec gives (R76, D1; log 13), and
the other way round under the other `OPERAND_ORDER`. -/
def operandWord (order : OperandOrder) (b2 b3 : Byte) : Word :=
  match order with
  | .lowFirst => concat b3 b2
  | .highFirst => concat b2 b3

/-- Decode the instruction at the head of a list of bytes and give back the bytes after it (R80). -/
def decode (order : OperandOrder) : List Byte → Except DecodeError (Instr × List Byte)
  | [] => .error .empty
  | op :: rest =>
    match decodeOpcode op with
    | none => .error (.unlistedOpcode op)
    | some (.f1 i) => .ok (i, rest)
    | some (.f2 mk) =>
      match rest with
      | [] => .error (.truncated op)
      | b2 :: after => .ok (mk b2, after)
    | some (.f3 mk) =>
      match rest with
      | [] => .error (.truncated op)
      | [_] => .error (.truncated op)
      | b2 :: b3 :: after => .ok (mk (operandWord order b2 b3), after)

/-- Byte `k` of an instruction whose bits are `w`, bit 0 the least significant bit of the first byte. -/
def tableByte (w k : Nat) : Byte := BitVec.ofNat 8 (w / 2 ^ (8 * k))

/-- The bytes, lowest address first, of an instruction of `nbits` bits `w`, as many as the longest
instruction has (R70); every bit above `nbits` is 0. -/
def tableBytes (nbits w : Nat) : List Byte :=
  let v := w % 2 ^ nbits
  [tableByte v 0, tableByte v 1, tableByte v 2]

/-- The instruction the decoder reads from an opcode-table word, in the operand order the spec gives. -/
def decodeTableWord (nbits w : Nat) : Option Instr :=
  match decode .lowFirst (tableBytes nbits w) with
  | .ok (i, _) => some i
  | .error _ => none

/-! ### The encoder -/

/-- The register code (R72). -/
def Reg.code : Reg → Nat
  | .b => 0
  | .c => 1
  | .d => 2
  | .e => 3
  | .h => 4
  | .l => 5
  | .a => 7

/-- The register-pair code (R73); SP and PSW share 11. -/
def RegPair.code : RegPair → Nat
  | .bc => 0
  | .de => 1
  | .hl => 2
  | .sp => 3
  | .psw => 3

/-- The first byte, the document's "Hex code" (R72 to R75, R79, and the encoding line of each rule). -/
def Instr.opcode : Instr → Byte
  | .nop => 0x00#8
  | .lxi p _ => BitVec.ofNat 8 (0x01 + 16 * p.code)
  | .mviR r _ => BitVec.ofNat 8 (0x06 + 8 * r.code)
  | .mviM _ => 0x36#8
  | .rlc => 0x07#8
  | .ldax p => BitVec.ofNat 8 (0x0A + 16 * p.code)
  | .rrc => 0x0F#8
  | .ral => 0x17#8
  | .rar => 0x1F#8
  | .rim => 0x20#8
  | .shld _ => 0x22#8
  | .lhld _ => 0x2A#8
  | .sim => 0x30#8
  | .lda _ => 0x3A#8
  | .movRR rd rs => BitVec.ofNat 8 (0x40 + 8 * rd.code + rs.code)
  | .movRM rd => BitVec.ofNat 8 (0x46 + 8 * rd.code)
  | .movMR rs => BitVec.ofNat 8 (0x70 + rs.code)
  | .sbbR r => BitVec.ofNat 8 (0x98 + r.code)
  | .sbbM => 0x9E#8
  | .oraR r => BitVec.ofNat 8 (0xB0 + r.code)
  | .oraM => 0xB6#8
  | .rnz => 0xC0#8
  | .pop p => BitVec.ofNat 8 (0xC1 + 16 * p.code)
  | .jnz _ => 0xC2#8
  | .push p => BitVec.ofNat 8 (0xC5 + 16 * p.code)
  | .rst n => BitVec.ofNat 8 (0xC7 + 8 * n.toNat)
  | .rz => 0xC8#8
  | .ret => 0xC9#8
  | .jz _ => 0xCA#8
  | .rnc => 0xD0#8
  | .out _ => 0xD3#8
  | .rc => 0xD8#8
  | .sbi _ => 0xDE#8
  | .rpo => 0xE0#8
  | .rpe => 0xE8#8
  | .pchl => 0xE9#8
  | .jpe _ => 0xEA#8
  | .rp => 0xF0#8
  | .ori _ => 0xF6#8
  | .rm => 0xF8#8
  | .sphl => 0xF9#8

/-- The operand bytes of a 16-bit operand, `b2` then `b3` (R70, R76). -/
def wordBytes (order : OperandOrder) (w : Word) : List Byte :=
  match order with
  | .lowFirst => [lo8 w, hi8 w]
  | .highFirst => [hi8 w, lo8 w]

/-- The operand bytes of an instruction (R70, R76). -/
def Instr.operandBytes (order : OperandOrder) : Instr → List Byte
  | .jpe w | .jz w | .jnz w | .lda w | .lhld w | .shld w | .lxi _ w => wordBytes order w
  | .mviR _ v | .mviM v | .ori v | .sbi v | .out v => [v]
  | .pchl | .ldax _ | .sphl | .movRR _ _ | .movMR _ | .movRM _ | .nop
  | .oraR _ | .oraM | .ral | .rar | .rlc | .rrc | .rim | .sim | .pop _ | .push _
  | .ret | .rc | .rnc | .rp | .rm | .rpe | .rpo | .rz | .rnz | .rst _ | .sbbR _ | .sbbM => []

/-- The bytes of an instruction, lowest address first (R70). -/
def encode (order : OperandOrder) (i : Instr) : List Byte := i.opcode :: i.operandBytes order

/-- The length in bytes, the first figure of "Bytes/m-cycles/t-states" (R70, R241). -/
def Instr.length : Instr → Nat
  | .jpe _ | .jz _ | .jnz _ | .lda _ | .lhld _ | .shld _ | .lxi _ _ => 3
  | .mviR _ _ | .mviM _ | .ori _ | .sbi _ | .out _ => 2
  | .pchl | .ldax _ | .sphl | .movRR _ _ | .movMR _ | .movRM _ | .nop
  | .oraR _ | .oraM | .ral | .rar | .rlc | .rrc | .rim | .sim | .pop _ | .push _
  | .ret | .rc | .rnc | .rp | .rm | .rpe | .rpo | .rz | .rnz | .rst _ | .sbbR _ | .sbbM => 1

end Sys2Proof
end

