-- ==== Sys2Proof/Machine/State.lean ====
section
/-! DEFINITION. The state of the machine as plain data, the ways a step can stop, and the state after
reset (10_state.md R20 to R43). -/

namespace Sys2Proof.Machine

/-- The seven 8-bit general registers (10_state.md R21). None is hardwired, none is banked. -/
structure Regs where
  a : Byte
  b : Byte
  c : Byte
  d : Byte
  e : Byte
  h : Byte
  l : Byte
deriving DecidableEq, Repr

/-- The five 1-bit flags (10_state.md R28). -/
structure Flags where
  s : Bool
  z : Bool
  ac : Bool
  p : Bool
  cy : Bool
deriving DecidableEq, Repr

/-- Memory: the locations that do not read as `Config.unlistedByte`, as (address, byte) pairs. The
canonical form is `Memory.wf` (Machine/Ops.lean). -/
abbrev Memory := List Host.Cell

/-- One event of the output trace (10_state.md R41). -/
inductive TraceEvent where
  /-- An `IoWrite(port, value)` (20_memory.md R53, 44_io_rim_sim.md R140). -/
  | io (port value : Byte)
  /-- A new serial output data bit (44_io_rim_sim.md R142). -/
  | sod (bit : Bool)
deriving DecidableEq, Repr

/-- The whole state (10_state.md R42, R43), with three fields of the model's own at the end. -/
structure State where
  /-- A, B, C, D, E, H, L (R21). -/
  regs : Regs
  /-- S, Z, AC, P, CY (R28). -/
  flags : Flags
  /-- The stack pointer (R24). -/
  sp : Word
  /-- The program counter (R25): between steps, the address of the next instruction's first byte. -/
  pc : Word
  /-- The memory (20_memory.md R51). -/
  mem : Memory
  /-- The interrupt masks, bit 2 for 7.5, bit 1 for 6.5, bit 0 for 5.5; 1 is masked (R38). -/
  imask : BitVec 3
  /-- The serial output data bit (R38). -/
  sod : Bool
  /-- The latched request of interrupt 7.5 (R38). -/
  r75 : Bool
  /-- The interrupt-enable flag (R38); no in-scope instruction writes it. -/
  ie : Bool
  /-- The serial input data bit, an input from outside the core (R38). -/
  sid : Bool
  /-- The output trace, oldest event first (R41, R43). -/
  trace : List TraceEvent
  /-- MODEL'S OWN: the number of draws taken (00_scope.md R12; log 8). -/
  draws : Nat
  /-- MODEL'S OWN: the accesses made so far to what is not plain storage, oldest first (20_memory.md R59;
  log 26). Nothing is added under the default map and the default `OUT_DEV`. -/
  bus : List BusEvent
  /-- MODEL'S OWN: the launch parameters (R41; log 5). No step writes it. -/
  launch : Launch
deriving DecidableEq, Repr

/-- The faults of the machine: NONE. "No in-scope instruction raises a synchronous exception"
(60_exceptions.md R200), and "nothing in the model is fault" (93_implementation_defined.md section 1).
Nobody raises one; safe. -/
inductive Fault where
deriving DecidableEq, Repr

/-- Why the model has no meaning for a step: the two refusals of 00_scope.md R13, and two that no step
meets (`StepStopsOnlyForByteOrMap`). A refusal is no event of the machine: it
saves nothing and transfers nowhere (60_exceptions.md R201), and a claim about a run says nothing past it. -/
inductive Refusal where
  /-- `UnlistedOpcode(byte, addr)` (30_encoding.md R82): raised by the fetch. Safe. -/
  | unlistedOpcode (op : Byte) (addr : Word)
  /-- `UnadmittedAccess(addr, kind)` (20_memory.md R52): raised by any memory access the launch's map
  does not admit; never under the default map. Safe. -/
  | unadmittedAccess (addr : Word) (kind : AccessKind)
  /-- A term of `Instr` that is no instruction of the spec: its register pair is not one its rule admits
  (10_state.md R23; log 18). Raised by a meaning; no byte decodes to such a term. Safe. -/
  | illFormed (mnemonic : String)
  /-- An instruction with no meaning yet; raised by `exec`'s arm. No arm does. Safe. -/
  | notModelled (mnemonic : String)
deriving DecidableEq, Repr

/-- The outcome of a step of this machine. -/
abbrev Result := Host.Outcome State Fault Refusal

/-- A launch state (70_reset_and_hazards.md R230): `pc` at the launch's `RESET_PC`, the hidden state at
10_state.md R42's values, the trace empty, and whatever registers, flags, `sp`, memory image and serial
input the launch happens to have. -/
def State.atLaunch (l : Launch) (g : Regs) (f : Flags) (sp : Word) (m : Memory) (sid : Bool) : State :=
  { regs := g
    flags := f
    sp := sp
    pc := l.resetPc
    mem := m
    imask := 0b111#3
    sod := false
    r75 := false
    ie := false
    sid := sid
    trace := []
    draws := 0
    bus := []
    launch := l }

/-- The state right after reset: the launch state under the default launch (log 2, log 3), registers,
flags and `sp`, which the spec leaves arbitrary, at the values log 1 names, and memory with nothing
listed (log 4). -/
def State.reset : State :=
  State.atLaunch Config.defaultLaunch
    { a := 0x00#8, b := 0x00#8, c := 0x00#8, d := 0x00#8, e := 0x00#8, h := 0x00#8, l := 0x00#8 }
    { s := false, z := false, ac := false, p := false, cy := false }
    0x0000#16 [] false

end Sys2Proof.Machine
end

