-- ==== Sys2Proof/Machine/Ops.lean ====
section
/-! DEFINITION. The named operations over memory, registers and the stack that every meaning is written
over: memory and port accesses through the launch's map and devices, the register file, the output
trace, and the machine's one transfer to a fixed address (RST n, 60_exceptions.md R207) beside the return from it. -/

namespace Sys2Proof.Machine

/-! ### Memory as data -/

/-- The byte listed at `k`, or what an unlisted location reads as (log 4). -/
def Memory.lookup : Memory → Nat → Byte
  | [], _ => Config.unlistedByte
  | (a, v) :: rest, k => if a = k then v else Memory.lookup rest k

/-- List `v` at `k`, keeping addresses rising and listing no byte that an unlisted location reads as. -/
def Memory.insert : Memory → Nat → Byte → Memory
  | [], k, v => if v = Config.unlistedByte then [] else [(k, v)]
  | (a, w) :: rest, k, v =>
    if k < a then
      if v = Config.unlistedByte then (a, w) :: rest else (k, v) :: (a, w) :: rest
    else if k = a then
      if v = Config.unlistedByte then rest else (k, v) :: rest
    else (a, w) :: Memory.insert rest k v

/-- `MemRead(addr, 1)` on plain storage (00_scope.md R10, 20_memory.md R52). -/
def Memory.read (m : Memory) (addr : Word) : Byte := m.lookup addr.toNat

/-- `MemWrite(addr, 1, v)` on plain storage (00_scope.md R10, 20_memory.md R52). -/
def Memory.write (m : Memory) (addr : Word) (v : Byte) : Memory := m.insert addr.toNat v

/-- The canonical form from address `lo` on. -/
def Memory.wfFrom : Nat → Memory → Bool
  | _, [] => true
  | lo, (a, v) :: rest =>
    decide (lo ≤ a) && decide (a < 65536) && decide (v ≠ Config.unlistedByte) && Memory.wfFrom (a + 1) rest

/-- The canonical form: addresses strictly rising and inside the 2^16 locations of 20_memory.md R51, no
entry equal to what an unlisted address reads as. -/
def Memory.wf (m : Memory) : Bool := m.wfFrom 0

/-! ### The memory map -/

/-- Does the region hold this address? -/
def regionCovers (r : Region) (addr : Word) : Bool :=
  decide (r.base ≤ addr.toNat) && decide (addr.toNat < r.base + r.size)

/-- Does the region admit this kind of access? A fetch is a read (20_memory.md R52). -/
def regionPermits (r : Region) : AccessKind → Bool
  | .fetch => r.readable
  | .read => r.readable
  | .write => r.writable

/-- The region that describes an address: the first one that holds it (log 5). -/
def regionOf (m : List Region) (addr : Word) : Option Region := m.find? (fun r => regionCovers r addr)

/-- Why the map does not let the access through, or `none` where it does (20_memory.md R52). An address
in no region admits nothing (log 5). -/
def mapRefusal (m : List Region) (kind : AccessKind) (addr : Word) : Option Refusal :=
  match regionOf m addr with
  | none => some (.unadmittedAccess addr kind)
  | some r => if regionPermits r kind then none else some (.unadmittedAccess addr kind)

/-- The launch's map lets this access through. -/
abbrev State.admits (s : State) (kind : AccessKind) (addr : Word) : Prop :=
  mapRefusal s.launch.memMap kind addr = none

/-- The launch's map says that the location is not plain storage (20_memory.md R52, R59). -/
def State.isDevice (s : State) (addr : Word) : Bool :=
  match regionOf s.launch.memMap addr with
  | none => false
  | some r => !r.plain

/-! ### One access -/

/-- The byte an admitted fetch or read returns: what memory holds, or a device's answer, of which
nothing is known (20_memory.md R52, R59; log 26). -/
def State.byteAt (s : State) (kind : AccessKind) (addr : Word) : Byte :=
  if s.isDevice addr then Config.deviceByte s.launch s.bus kind addr else s.mem.read addr

/-- The state after an admitted fetch or read: a device has been accessed once more (20_memory.md R59). -/
def State.afterRead (s : State) (kind : AccessKind) (addr : Word) : State :=
  if s.isDevice addr then { s with bus := s.bus ++ [.access kind addr (s.byteAt kind addr)] } else s

/-- The state after an admitted write: memory holds the byte, or a device has received it
(20_memory.md R52, R59). -/
def State.afterWrite (s : State) (addr : Word) (v : Byte) : State :=
  if s.isDevice addr then { s with bus := s.bus ++ [.access .write addr v] }
  else { s with mem := s.mem.write addr v }

/-- What the two reads of a 16-bit transfer return, low half first (20_memory.md R54, R57). -/
def State.wordAt (s : State) (addr : Word) : Word :=
  concat ((s.afterRead .read addr).byteAt .read (addr + 1#16)) (s.byteAt .read addr)

/-- The state after the two reads of a 16-bit transfer. -/
def State.afterReadWord (s : State) (addr : Word) : State :=
  (s.afterRead .read addr).afterRead .read (addr + 1#16)

/-- A byte access of kind `fetch` or `read` (00_scope.md R10 `MemRead(addr, 1)`, 20_memory.md R52). -/
def readByte (kind : AccessKind) (s : State) (addr : Word) : Except Refusal (Byte × State) :=
  match mapRefusal s.launch.memMap kind addr with
  | some r => .error r
  | none => .ok (s.byteAt kind addr, s.afterRead kind addr)

/-- `MemWrite(addr, 1, v)` (00_scope.md R10, 20_memory.md R52). -/
def writeByte (s : State) (addr : Word) (v : Byte) : Except Refusal State :=
  match mapRefusal s.launch.memMap .write addr with
  | some r => .error r
  | none => .ok (s.afterWrite addr v)

/-- `MemRead(addr, 2)`: the byte at `addr` first, then the byte at `addr + 1`, low half first
(00_scope.md R10, 20_memory.md R54). -/
def readWord (s : State) (addr : Word) : Except Refusal (Word × State) := do
  let (lo, s1) ← readByte .read s addr
  let (hi, s2) ← readByte .read s1 (addr + 1#16)
  pure (concat hi lo, s2)

/-- `MemWrite(addr, 2, w)`: the low byte at `addr` first, then the high byte at `addr + 1`
(00_scope.md R10, 20_memory.md R54). -/
def writeWord (s : State) (addr : Word) (w : Word) : Except Refusal State := do
  let s1 ← writeByte s addr (lo8 w)
  writeByte s1 (addr + 1#16) (hi8 w)

/-! ### Registers, program counter, trace -/

/-- `x[r]` (00_scope.md R9). -/
def Regs.get (g : Regs) : Reg → Byte
  | .a => g.a
  | .b => g.b
  | .c => g.c
  | .d => g.d
  | .e => g.e
  | .h => g.h
  | .l => g.l

/-- `x[r] <- v` (00_scope.md R9). -/
def Regs.set (g : Regs) (r : Reg) (v : Byte) : Regs :=
  match r with
  | .a => { g with a := v }
  | .b => { g with b := v }
  | .c => { g with c := v }
  | .d => { g with d := v }
  | .e => { g with e := v }
  | .h => { g with h := v }
  | .l => { g with l := v }

/-- Read an 8-bit register. -/
def State.reg (s : State) (r : Reg) : Byte := s.regs.get r

/-- Write an 8-bit register. -/
def State.setReg (s : State) (r : Reg) (v : Byte) : State := { s with regs := s.regs.set r v }

/-- Replace the flags. -/
def State.setFlags (s : State) (f : Flags) : State := { s with flags := f }

/-- `sp <- w` (00_scope.md R9). -/
def State.setSp (s : State) (w : Word) : State := { s with sp := w }

/-- `pc <- target` (00_scope.md R9). -/
def State.goto (s : State) (target : Word) : State := { s with pc := target }

/-- `npc`, the address after an instruction of `len` bytes at `pc`, modulo 2^16 (10_state.md R26, R27). -/
def State.npc (s : State) (len : Nat) : Word := s.pc + BitVec.ofNat 16 len

/-- `pc <- npc`, as an instruction ends that did not write `pc` (10_state.md R26). -/
def State.advance (s : State) (len : Nat) : State := s.goto (s.npc len)

/-- Append an event to the output trace (10_state.md R41). -/
def State.emit (s : State) (ev : TraceEvent) : State := { s with trace := s.trace ++ [ev] }

/-- `IoWrite(port, v)` (00_scope.md R11): what the launch's `OUT_DEV` does with the byte (20_memory.md R53;
log 11). It touches no memory location. -/
def State.ioWrite (s : State) (port v : Byte) : State :=
  match s.launch.outDev with
  | .recorded => s.emit (.io port v)
  | .other _ => { s with bus := s.bus ++ [.port port v] }

/-- One draw has been taken (00_scope.md R12; log 8). -/
def State.countDraw (s : State) : State := { s with draws := s.draws + 1 }

/-- The result of a meaning: its next state, or the refusal it met. -/
def settle : Except Refusal State → Result
  | .ok s => .next s
  | .error r => .refused r

/-! ### The stack, the restart and the return -/

/-- Store a 16-bit value below `sp`: "the high order register … is put on the stack first", at `sp - 1`,
then the low half at `sp - 2`; `sp` falls by 2 (45_stack.md R151, 20_memory.md R68). -/
def pushWord (s : State) (w : Word) : Except Refusal State := do
  let s1 ← writeByte s (s.sp - 1#16) (hi8 w)
  let s2 ← writeByte s1 (s.sp - 2#16) (lo8 w)
  pure (s2.setSp (s.sp - 2#16))

/-- Load a 16-bit value at `sp`, the low half first; `sp` rises by 2 (45_stack.md R150). -/
def popWord (s : State) : Except Refusal (Word × State) := do
  let (w, s1) ← readWord s s.sp
  pure (w, s1.setSp (s.sp + 2#16))

/-- The restart address `8 * n` (30_encoding.md R75, 46_return_restart.md R170). -/
def restartAddress (n : BitVec 3) : Word := n.setWidth 16 * 8#16

/-- The machine's one transfer to a fixed address (60_exceptions.md R207, 46_return_restart.md R170):
save `npc` on the stack and go to `8 * n`. It saves nothing else and changes no mask. -/
def restart (s : State) (n : BitVec 3) (npc : Word) : Except Refusal State := do
  let s1 ← pushWord s npc
  pure (s1.goto (restartAddress n))

/-- `do_return()` (46_return_restart.md R169, 60_exceptions.md R208): `pc` from the two bytes at `sp`. -/
def doReturn (s : State) : Except Refusal State := do
  let (w, s1) ← popWord s
  pure (s1.goto w)

end Sys2Proof.Machine
end

