-- ==== Sys2Proof/Machine/Flags.lean ====
section
/-! DEFINITION. The flag computations (10_state.md R28 to R36, R44; 00_scope.md R14) and the three
arithmetic results whose flags they are: OR, subtract with borrow, the rotates. -/

namespace Sys2Proof.Machine

/-- The number of 1 bits of a byte (00_scope.md R7). -/
def popcount (v : Byte) : Nat :=
  (v.getLsbD 0).toNat + (v.getLsbD 1).toNat + (v.getLsbD 2).toNat + (v.getLsbD 3).toNat
    + (v.getLsbD 4).toNat + (v.getLsbD 5).toNat + (v.getLsbD 6).toNat + (v.getLsbD 7).toNat

/-- `set_ZSP(res)` (10_state.md R44, with R29, R30, R31): Z, S and P from the 8-bit result; AC and CY are
left to the caller. -/
def Flags.setZSP (f : Flags) (res : Byte) : Flags :=
  { f with
    z := decide (res = 0x00#8)
    s := res.getLsbD 7
    p := decide (popcount res % 2 = 0) }

/-- The recommended instance of `AC_SUB`: the carry out of bit 3 of `a + ~v + (1 - c)` (10_state.md R33). -/
def acSubRecommended (a v : Byte) (c : Bool) : Bool :=
  decide (0x0F < (a &&& 0x0F#8).toNat + (~~~v &&& 0x0F#8).toNat + (1 - c.toNat))

/-- `AC_SUB(a, v, c)` under the launch's instance (10_state.md R33, D9; log 6). -/
def acSub (inst : AcSub) (a v : Byte) (c : Bool) : Bool :=
  match inst with
  | .recommended => acSubRecommended a v c
  | .other k => Config.acSubOther k a v c

/-- The 9-bit difference `zext_9(a) - zext_9(v) - zext_9(c)` of `sbb8` (47_subtract.md R180). -/
def difference9 (a v : Byte) (c : Bool) : BitVec 9 :=
  a.setWidth 9 - v.setWidth 9 - (BitVec.ofBool c).setWidth 9

/-- `sbb8(v)`: subtract the operand and CY from A, all five flags written (47_subtract.md R180). -/
def sbb8 (s : State) (v : Byte) : State :=
  let a := s.reg .a
  let c := s.flags.cy
  let d9 := difference9 a v c
  let res := d9.setWidth 8
  (s.setReg .a res).setFlags
    { s.flags.setZSP res with ac := acSub s.launch.acSub a v c, cy := d9.getLsbD 8 }

/-- OR the operand into A; Z, S, P from the result, AC and CY reset (43_logic_rotate.md R130 to R132). -/
def orA (s : State) (v : Byte) : State :=
  let res := s.reg .a ||| v
  (s.setReg .a res).setFlags { s.flags.setZSP res with ac := false, cy := false }

/-- Write A and CY and no other flag: what a rotate does (43_logic_rotate.md R133 to R136). -/
def setAccCarry (s : State) (a : Byte) (cy : Bool) : State :=
  (s.setReg .a a).setFlags { s.flags with cy := cy }

/-- `a[6:0] : b`, bits move up one place and `b` enters bit 0 (43_logic_rotate.md R133, R135). -/
def shiftUp (a : Byte) (b : Bool) : Byte := a.extractLsb' 0 7 ++ BitVec.ofBool b

/-- `b : a[7:1]`, bits move down one place and `b` enters bit 7 (43_logic_rotate.md R134, R136). -/
def shiftDown (b : Bool) (a : Byte) : Byte := BitVec.ofBool b ++ a.extractLsb' 1 7

/-- Bit `k` of the flag byte: the flag the layout puts there, or the drawn bit (10_state.md R36). -/
def pswBit (l : PswLayout) (f : Flags) (u : Byte) (k : Fin 8) : Bool :=
  if k = l.s then f.s
  else if k = l.z then f.z
  else if k = l.ac then f.ac
  else if k = l.p then f.p
  else if k = l.cy then f.cy
  else u.getLsbD k

/-- `flags_to_byte(u)` under a layout (10_state.md R36; log 7); under the recommended one it is
S:Z:u5:AC:u3:P:u1:CY, so that R36's three-bit `u` is bits 5, 3, 1 here. -/
def flagsToByte (l : PswLayout) (f : Flags) (u : Byte) : Byte :=
  BitVec.ofBool (pswBit l f u 7) ++ BitVec.ofBool (pswBit l f u 6) ++ BitVec.ofBool (pswBit l f u 5)
    ++ BitVec.ofBool (pswBit l f u 4) ++ BitVec.ofBool (pswBit l f u 3) ++ BitVec.ofBool (pswBit l f u 2)
    ++ BitVec.ofBool (pswBit l f u 1) ++ BitVec.ofBool (pswBit l f u 0)

/-- `byte_to_flags(b)` under a layout; the other bits go nowhere (10_state.md R36; log 7). -/
def byteToFlags (l : PswLayout) (b : Byte) : Flags :=
  { s := b.getLsbD l.s, z := b.getLsbD l.z, ac := b.getLsbD l.ac, p := b.getLsbD l.p, cy := b.getLsbD l.cy }

/-- `cond(cc)` (00_scope.md R14). -/
def Flags.holds (f : Flags) : Cond → Bool
  | .nz => !f.z
  | .z => f.z
  | .nc => !f.cy
  | .c => f.cy
  | .po => !f.p
  | .pe => f.p
  | .p => !f.s
  | .m => f.s

end Sys2Proof.Machine
end

