-- ==== Sys2Proof/Machine/Operands.lean ====
section
/-! DEFINITION. The operand forms (30_encoding.md R76): register pairs, memory through HL, the pair
forms of LDAX, LXI, PUSH and POP, and the conditional transfers. Where a function answers `none`, the
pair is not one the instruction admits (10_state.md R23). -/

namespace Sys2Proof.Machine

/-- `B:C` (10_state.md R23). -/
def State.bc (s : State) : Word := concat (s.reg .b) (s.reg .c)

/-- `D:E` (10_state.md R23). -/
def State.de (s : State) : Word := concat (s.reg .d) (s.reg .e)

/-- `H:L` (10_state.md R23): also the address of every `M` operand (00_scope.md R15). -/
def State.hl (s : State) : Word := concat (s.reg .h) (s.reg .l)

/-- Write `hi8(w)` to the high register of a pair and `lo8(w)` to the low one (00_scope.md R9). -/
def setHalves (s : State) (hi lo : Reg) (w : Word) : State := (s.setReg lo (lo8 w)).setReg hi (hi8 w)

/-- `MemRead(H:L, 1)`, the operand `M` as a source (00_scope.md R15). -/
def readM (s : State) : Except Refusal (Byte × State) := readByte .read s s.hl

/-- `MemWrite(H:L, 1, v)`, the operand `M` as a destination (00_scope.md R15). -/
def writeM (s : State) (v : Byte) : Except Refusal State := writeByte s s.hl v

/-- The address LDAX reads: `B:C` or `D:E` (41_load_store_16.md R111). -/
def ldaxAddress (s : State) : RegPair → Option Word
  | .bc => some s.bc
  | .de => some s.de
  | .hl | .sp | .psw => none

/-- `rp[Rp] <- data16` of LXI (41_load_store_16.md R113). -/
def lxiWrite (s : State) (p : RegPair) (w : Word) : Option State :=
  match p with
  | .bc => some (setHalves s .b .c w)
  | .de => some (setHalves s .d .e w)
  | .hl => some (setHalves s .h .l w)
  | .sp => some (s.setSp w)
  | .psw => none

/-- The flag byte a PUSH PSW stores in this state (10_state.md R36, 45_stack.md R151; log 8). -/
def State.pswByte (s : State) : Byte :=
  flagsToByte s.launch.pswLayout s.flags (Config.pswSpare s.draws)

/-- What PUSH stores, high half first in the pair, and the state with the draw of PSW's three spare
bits counted (45_stack.md R151; log 8). -/
def pushOperand (s : State) : RegPair → Option (Word × State)
  | .bc => some (s.bc, s)
  | .de => some (s.de, s)
  | .hl => some (s.hl, s)
  | .psw => some (concat (s.reg .a) s.pswByte, s.countDraw)
  | .sp => none

/-- Where POP puts the popped value (45_stack.md R150). -/
def popWrite (s : State) (p : RegPair) (w : Word) : Option State :=
  match p with
  | .bc => some (setHalves s .b .c w)
  | .de => some (setHalves s .d .e w)
  | .hl => some (setHalves s .h .l w)
  | .psw => some ((s.setReg .a (hi8 w)).setFlags (byteToFlags s.launch.pswLayout (lo8 w)))
  | .sp => none

/-- Take what an operand form gives, or refuse the ill-formed term by its mnemonic (log 18). -/
def admitted {α : Type} (mnemonic : String) : Option α → Except Refusal α
  | some x => .ok x
  | none => .error (.illFormed mnemonic)

/-- `if cond(cc) then pc <- addr16 else pc <- npc` (40_jumps.md R100 to R102). -/
def jumpIf (s : State) (cc : Cond) (addr : Word) : State :=
  if s.flags.holds cc then s.goto addr else s.advance 3

/-- `if cond(cc) then do_return() else pc <- npc` (46_return_restart.md R161 to R168). -/
def returnIf (s : State) (cc : Cond) : Except Refusal State :=
  if s.flags.holds cc then doReturn s else .ok (s.advance 1)

end Sys2Proof.Machine
end

