-- ==== Sys2Proof/Machine/InputOutput.lean ====
section
/-! DEFINITION. The meanings of OUT, RIM and SIM (44_io_rim_sim.md). -/

namespace Sys2Proof.Machine

/-- OUT port8: `IoWrite(port8, A)` (R140). -/
def execOut (port : Byte) (s : State) : Result := .next ((s.ioWrite port (s.reg .a)).advance 2)

/-- RIM: A is a draw, which stands for the whole word the chip would read (R141; log 9). -/
def execRim (s : State) : Result :=
  .next (((s.setReg .a (Config.rimWord s.draws s.imask s.r75 s.ie s.sid)).countDraw).advance 1)

/-- Bit 3 of SIM's word, mask set enable: the masks from bits 2 to 0 (R142, 10_state.md R40; log 10). -/
def simMasks (s : State) (a : Byte) : State :=
  if a.getLsbD 3 then { s with imask := a.extractLsb' 0 3 } else s

/-- Bit 4 of SIM's word: reset the latched request of interrupt 7.5 (R142, 10_state.md R40; log 10). -/
def simLatch (s : State) (a : Byte) : State :=
  if a.getLsbD 4 then { s with r75 := false } else s

/-- Bit 6 of SIM's word, serial data enable: the serial output bit from bit 7, appended to the output
trace (R142, 10_state.md R40; log 10). -/
def simSerial (s : State) (a : Byte) : State :=
  if a.getLsbD 6 then ({ s with sod := a.getLsbD 7 }).emit (.sod (a.getLsbD 7)) else s

/-- SIM: the masks, the 7.5 latch and the serial output bit from A (R142). -/
def execSim (s : State) : Result :=
  let a := s.reg .a
  .next ((simSerial (simLatch (simMasks s a) a) a).advance 1)

end Sys2Proof.Machine
end

