-- ==== Sys2Proof/Machine/Jumps.lean ====
section
/-! DEFINITION. The meanings of the jumps (40_jumps.md). -/

namespace Sys2Proof.Machine

/-- JPE addr16: jump if parity even (R100). -/
def execJpe (addr : Word) (s : State) : Result := .next (jumpIf s .pe addr)

/-- JZ addr16: jump if zero (R101). -/
def execJz (addr : Word) (s : State) : Result := .next (jumpIf s .z addr)

/-- JNZ addr16: jump if not zero (R102). -/
def execJnz (addr : Word) (s : State) : Result := .next (jumpIf s .nz addr)

/-- PCHL: jump to the address in HL (R103). -/
def execPchl (s : State) : Result := .next (s.goto s.hl)

end Sys2Proof.Machine
end

