-- ==== Sys2Proof/Machine/LoadStore16.lean ====
section
/-! DEFINITION. The meanings of LDA, LDAX, LHLD, LXI, SHLD and SPHL (41_load_store_16.md). -/

namespace Sys2Proof.Machine

/-- LDA addr16: A from the byte at `addr16` (R110). -/
def execLda (addr : Word) (s : State) : Result := settle do
  let (v, s1) ← readByte .read s addr
  pure ((s1.setReg .a v).advance 3)

/-- LDAX Rp: A from the byte at BC or DE (R111). -/
def execLdax (pair : RegPair) (s : State) : Result := settle do
  let addr ← admitted "LDAX" (ldaxAddress s pair)
  let (v, s1) ← readByte .read s addr
  pure ((s1.setReg .a v).advance 1)

/-- LHLD addr16: L from `addr16`, H from `addr16 + 1` (R112). -/
def execLhld (addr : Word) (s : State) : Result := settle do
  let (w, s1) ← readWord s addr
  pure ((setHalves s1 .h .l w).advance 3)

/-- LXI Rp, data16 (R113). -/
def execLxi (pair : RegPair) (data : Word) (s : State) : Result := settle do
  let s1 ← admitted "LXI" (lxiWrite s pair data)
  pure (s1.advance 3)

/-- SHLD addr16: L to `addr16`, then H to `addr16 + 1` (R114). -/
def execShld (addr : Word) (s : State) : Result := settle do
  let s1 ← writeWord s addr s.hl
  pure (s1.advance 3)

/-- SPHL: `sp <- H:L` (R115). -/
def execSphl (s : State) : Result := .next ((s.setSp s.hl).advance 1)

end Sys2Proof.Machine
end

