-- ==== Sys2Proof/Machine/LogicRotate.lean ====
section
/-! DEFINITION. The meanings of the OR group and the four rotates (43_logic_rotate.md). -/

namespace Sys2Proof.Machine

/-- ORA R (R130). -/
def execOraR (r : Reg) (s : State) : Result := .next ((orA s (s.reg r)).advance 1)

/-- ORA M (R131, conflict C9: the result goes to A). -/
def execOraM (s : State) : Result := settle do
  let (v, s1) ← readM s
  pure ((orA s1 v).advance 1)

/-- ORI data8 (R132). -/
def execOri (data : Byte) (s : State) : Result := .next ((orA s data).advance 2)

/-- RAL: the 9-bit rotation of `CY:A` to the left (R133). -/
def execRal (s : State) : Result :=
  let a := s.reg .a
  .next ((setAccCarry s (shiftUp a s.flags.cy) (a.getLsbD 7)).advance 1)

/-- RAR: the 9-bit rotation of `A:CY` to the right (R134). -/
def execRar (s : State) : Result :=
  let a := s.reg .a
  .next ((setAccCarry s (shiftDown s.flags.cy a) (a.getLsbD 0)).advance 1)

/-- RLC: the 8-bit rotation to the left; D7 goes to D0 and CY (R135). -/
def execRlc (s : State) : Result :=
  let a := s.reg .a
  .next ((setAccCarry s (shiftUp a (a.getLsbD 7)) (a.getLsbD 7)).advance 1)

/-- RRC: the 8-bit rotation to the right; D0 goes to D7 and CY (R136). -/
def execRrc (s : State) : Result :=
  let a := s.reg .a
  .next ((setAccCarry s (shiftDown (a.getLsbD 0) a) (a.getLsbD 0)).advance 1)

end Sys2Proof.Machine
end

