-- ==== Sys2Proof/Machine/Moves.lean ====
section
/-! DEFINITION. The meanings of the three MOV forms, the two MVI forms and NOP (42_mov_mvi_nop.md). -/

namespace Sys2Proof.Machine

/-- MOV Rd, Rs (R120). -/
def execMovRR (rd rs : Reg) (s : State) : Result := .next ((s.setReg rd (s.reg rs)).advance 1)

/-- MOV M, Rs (R121). -/
def execMovMR (rs : Reg) (s : State) : Result := settle do
  let s1 ← writeM s (s.reg rs)
  pure (s1.advance 1)

/-- MOV Rd, M: the address uses H and L as they are before the write (R122). -/
def execMovRM (rd : Reg) (s : State) : Result := settle do
  let (v, s1) ← readM s
  pure ((s1.setReg rd v).advance 1)

/-- MVI R, data8 (R123). -/
def execMviR (r : Reg) (data : Byte) (s : State) : Result := .next ((s.setReg r data).advance 2)

/-- MVI M, data8 (R124). -/
def execMviM (data : Byte) (s : State) : Result := settle do
  let s1 ← writeM s data
  pure (s1.advance 2)

/-- NOP: `pc` only (R125). -/
def execNop (s : State) : Result := .next (s.advance 1)

end Sys2Proof.Machine
end

