-- ==== Sys2Proof/Machine/Returns.lean ====
section
/-! DEFINITION. The meanings of RET, the eight conditional returns and RST n (46_return_restart.md). -/

namespace Sys2Proof.Machine

/-- RET (R160). -/
def execRet (s : State) : Result := settle (doReturn s)

/-- RC: return if CY = 1 (R161). -/
def execRc (s : State) : Result := settle (returnIf s .c)

/-- RNC: return if CY = 0 (R162). -/
def execRnc (s : State) : Result := settle (returnIf s .nc)

/-- RP: return if S = 0 (R163). -/
def execRp (s : State) : Result := settle (returnIf s .p)

/-- RM: return if S = 1 (R164). -/
def execRm (s : State) : Result := settle (returnIf s .m)

/-- RPE: return if P = 1 (R165). -/
def execRpe (s : State) : Result := settle (returnIf s .pe)

/-- RPO: return if P = 0 (R166). -/
def execRpo (s : State) : Result := settle (returnIf s .po)

/-- RZ: return if Z = 1 (R167). -/
def execRz (s : State) : Result := settle (returnIf s .z)

/-- RNZ: return if Z = 0 (R168). -/
def execRnz (s : State) : Result := settle (returnIf s .nz)

/-- RST n: push the address of the next instruction, go to `8 * n` (R170, 60_exceptions.md R207). -/
def execRst (n : BitVec 3) (s : State) : Result := settle (restart s n (s.npc 1))

end Sys2Proof.Machine
end

