-- ==== Sys2Proof/Machine/Stack.lean ====
section
/-! DEFINITION. The meanings of POP and PUSH (45_stack.md). -/

namespace Sys2Proof.Machine

/-- POP Rp: low half from `sp`, high half from `sp + 1`, `sp` up by 2 (R150). -/
def execPop (pair : RegPair) (s : State) : Result := settle do
  let (w, s1) ← popWord s
  let s2 ← admitted "POP" (popWrite s1 pair w)
  pure (s2.advance 1)

/-- PUSH Rp: high half to `sp - 1`, low half to `sp - 2`, `sp` down by 2 (R151). -/
def execPush (pair : RegPair) (s : State) : Result := settle do
  let (w, s1) ← admitted "PUSH" (pushOperand s pair)
  let s2 ← pushWord s1 w
  pure (s2.advance 1)

end Sys2Proof.Machine
end

