-- ==== Sys2Proof/Machine/Subtract.lean ====
section
/-! DEFINITION. The meanings of SBB R, SBB M and SBI (47_subtract.md). -/

namespace Sys2Proof.Machine

/-- SBB R, printed "SSB R" (R181, conflict C2). -/
def execSbbR (r : Reg) (s : State) : Result := .next ((sbb8 s (s.reg r)).advance 1)

/-- SBB M (R182). -/
def execSbbM (s : State) : Result := settle do
  let (v, s1) ← readM s
  pure ((sbb8 s1 v).advance 1)

/-- SBI data8 (R183). -/
def execSbi (data : Byte) (s : State) : Result := .next ((sbb8 s data).advance 2)

end Sys2Proof.Machine
end

