-- ==== Sys2Proof/Machine/Dispatch.lean ====
section
/-! DEFINITION. The dispatch: one arm per instruction, each one direct call of its meaning. -/

namespace Sys2Proof.Machine

def exec (i : Instr) (s : State) : Host.Outcome State Fault Refusal :=
  match i with
  | .jpe addr => Sys2Proof.Machine.execJpe addr s
  | .jz addr => Sys2Proof.Machine.execJz addr s
  | .jnz addr => Sys2Proof.Machine.execJnz addr s
  | .pchl => Sys2Proof.Machine.execPchl s
  | .lda addr => Sys2Proof.Machine.execLda addr s
  | .ldax pair => Sys2Proof.Machine.execLdax pair s
  | .lhld addr => Sys2Proof.Machine.execLhld addr s
  | .lxi pair data => Sys2Proof.Machine.execLxi pair data s
  | .shld addr => Sys2Proof.Machine.execShld addr s
  | .sphl => Sys2Proof.Machine.execSphl s
  | .movRR rd rs => Sys2Proof.Machine.execMovRR rd rs s
  | .movMR rs => Sys2Proof.Machine.execMovMR rs s
  | .movRM rd => Sys2Proof.Machine.execMovRM rd s
  | .mviR r data => Sys2Proof.Machine.execMviR r data s
  | .mviM data => Sys2Proof.Machine.execMviM data s
  | .nop => Sys2Proof.Machine.execNop s
  | .oraR r => Sys2Proof.Machine.execOraR r s
  | .oraM => Sys2Proof.Machine.execOraM s
  | .ori data => Sys2Proof.Machine.execOri data s
  | .ral => Sys2Proof.Machine.execRal s
  | .rar => Sys2Proof.Machine.execRar s
  | .rlc => Sys2Proof.Machine.execRlc s
  | .rrc => Sys2Proof.Machine.execRrc s
  | .out port => Sys2Proof.Machine.execOut port s
  | .rim => Sys2Proof.Machine.execRim s
  | .sim => Sys2Proof.Machine.execSim s
  | .pop pair => Sys2Proof.Machine.execPop pair s
  | .push pair => Sys2Proof.Machine.execPush pair s
  | .ret => Sys2Proof.Machine.execRet s
  | .rc => Sys2Proof.Machine.execRc s
  | .rnc => Sys2Proof.Machine.execRnc s
  | .rp => Sys2Proof.Machine.execRp s
  | .rm => Sys2Proof.Machine.execRm s
  | .rpe => Sys2Proof.Machine.execRpe s
  | .rpo => Sys2Proof.Machine.execRpo s
  | .rz => Sys2Proof.Machine.execRz s
  | .rnz => Sys2Proof.Machine.execRnz s
  | .rst n => Sys2Proof.Machine.execRst n s
  | .sbbR r => Sys2Proof.Machine.execSbbR r s
  | .sbbM => Sys2Proof.Machine.execSbbM s
  | .sbi data => Sys2Proof.Machine.execSbi data s

end Sys2Proof.Machine
end

