-- ==== Sys2Proof/Machine/Fetch.lean ====
section
/-! DEFINITION. Fetching an instruction (10_state.md R26, 30_encoding.md R80), and storing one where the
next fetch finds it. -/

namespace Sys2Proof.Machine

/-- `row <- lookup of op`; `if row is absent: refuse(UnlistedOpcode(op, pc))` (10_state.md R26). -/
def lookupRow (op : Byte) (addr : Word) : Except Refusal Format :=
  match decodeOpcode op with
  | some f => .ok f
  | none => .error (.unlistedOpcode op addr)

/-- Fetch the instruction at `pc`: the first byte, its row, then the operand bytes its length asks for,
in ascending address order (10_state.md R26, R27; 20_memory.md R67); and the state the fetches leave. -/
def fetchInstr (s : State) : Except Refusal (Instr × State) := do
  let (op, s1) ← readByte .fetch s s.pc
  let row ← lookupRow op s.pc
  match row with
  | .f1 i => pure (i, s1)
  | .f2 mk =>
    let (b2, s2) ← readByte .fetch s1 (s.pc + 1#16)
    pure (mk b2, s2)
  | .f3 mk =>
    let (b2, s2) ← readByte .fetch s1 (s.pc + 1#16)
    let (b3, s3) ← readByte .fetch s2 (s.pc + 2#16)
    pure (mk (operandWord s.launch.operandOrder b2 b3), s3)

/-- Store bytes at ascending addresses, modulo 2^16, whatever the map admits: a load of memory from
outside the machine (log 19). -/
def placeBytes (m : Memory) (addr : Word) : List Byte → Memory
  | [] => m
  | v :: rest => placeBytes (m.write addr v) (addr + 1#16) rest

end Sys2Proof.Machine
end

