-- ==== Sys2Proof/Machine/Step.lean ====
section
/-! DEFINITION. One step of the core (10_state.md R26), and a state with an instruction placed where the
next step fetches it. -/

namespace Sys2Proof.Machine

/-- One step: fetch the instruction at `pc`, then execute it (10_state.md R26). -/
def step (s : State) : Host.Outcome State Fault Refusal :=
  match fetchInstr s with
  | .ok (i, s1) => exec i s1
  | .error r => .refused r

/-- The state with an instruction of the opcode table stored at `pc`, where the next step fetches it
(log 19). Nothing but memory changes. -/
def State.withFetchWord (s : State) (nbits w : Nat) : State :=
  { s with mem := placeBytes s.mem s.pc (tableBytes nbits w) }

end Sys2Proof.Machine
end

