-- ==== Sys2Proof/Safety.lean ====
section
/-! DEFINITION. What claims about the machine are said in: the terms of a frame, the tables of the spec
that say what an instruction may touch, and a run up to `END_PC`. Nothing here is used by `step`. -/

namespace Sys2Proof.Machine

/-! ### The terms of a frame -/

/-- Every byte of memory outside the listed addresses reads as before. -/
def SameMemoryBut (addrs : List Word) (s t : State) : Prop :=
  ∀ x : Word, x ∉ addrs → t.mem.read x = s.mem.read x

/-- Every register outside the listed ones is unchanged. -/
def SameRegsBut (rs : List Reg) (s t : State) : Prop := ∀ r : Reg, r ∉ rs → t.reg r = s.reg r

/-- The interrupt masks, the serial output bit, the 7.5 latch, the enable flag and the input bit are
unchanged (10_state.md R38). -/
def SameHidden (s t : State) : Prop :=
  t.imask = s.imask ∧ t.sod = s.sod ∧ t.r75 = s.r75 ∧ t.ie = s.ie ∧ t.sid = s.sid

/-- The trace, the draw counter and the launch parameters are unchanged. What `bus` becomes is said of
every instruction at once by `AccessesArePerformedOnceInOrder`. -/
def SameRecords (s t : State) : Prop := t.trace = s.trace ∧ t.draws = s.draws ∧ t.launch = s.launch

/-- The frame of an instruction that writes at most the listed registers and stores at most to the
listed addresses; flags, `sp` and `pc` are said apart. -/
def Frame (rs : List Reg) (addrs : List Word) (s t : State) : Prop :=
  SameRegsBut rs s t ∧ SameMemoryBut addrs s t ∧ SameHidden s t ∧ SameRecords s t

/-- The launch's map lets every access through: true of the default map (20_memory.md R52). -/
def State.AdmitsAll (s : State) : Prop := ∀ (k : AccessKind) (x : Word), s.admits k x

/-- A location of plain read-write storage, as every location of the default map is (20_memory.md R52). -/
abbrev State.IsRam (s : State) (x : Word) : Prop :=
  s.admits .fetch x ∧ s.admits .read x ∧ s.admits .write x ∧ s.isDevice x = false

/-- What an admitted store of `v` at `x` does: plain storage reads `v` there afterwards, a device has
received it (20_memory.md R52, R59). -/
def Stored (s : State) (x : Word) (v : Byte) (t : State) : Prop :=
  if s.isDevice x then .access .write x v ∈ t.bus else t.mem.read x = v

/-- The invariant of every step: the memory is in its canonical form (the model's representation, log 4). -/
abbrev State.Inv (s : State) : Prop := s.mem.wf = true

/-! ### The flags of a result, said independently of the meanings -/

/-- The number of 1 bits, by counting positions (00_scope.md R7). -/
def onesIn (v : Byte) : Nat := ((List.range 8).filter fun i => v.getLsbD i).length

/-- Z, S and P are those of the 8-bit result (10_state.md R29, R30, R31). -/
def ZspOf (res : Byte) (f : Flags) : Prop :=
  f.z = decide (res.toNat = 0) ∧ f.s = decide (128 ≤ res.toNat) ∧ f.p = decide (onesIn res % 2 = 0)

/-- `t` is `s` after A was ORed with `v` and nothing but A, the flags and `pc` was written
(43_logic_rotate.md R130). -/
def OrEffect (s : State) (v : Byte) (t : State) : Prop :=
  t.reg .a = s.reg .a ||| v ∧ ZspOf (t.reg .a) t.flags ∧ t.flags.ac = false ∧ t.flags.cy = false ∧
    t.sp = s.sp ∧ Frame [.a] [] s t

/-- `t` is `s` after `v` and CY were subtracted from A and nothing but A, the flags and `pc` was written
(47_subtract.md R180): the value modulo 256, CY the borrow, AC by the launch's instance. -/
def SbbEffect (s : State) (v : Byte) (t : State) : Prop :=
  ((t.reg .a).toNat : Int) = ((s.reg .a).toNat - v.toNat - s.flags.cy.toNat : Int) % 256 ∧
    (t.flags.cy = true ↔ (s.reg .a).toNat < v.toNat + s.flags.cy.toNat) ∧
    ZspOf (t.reg .a) t.flags ∧
    t.flags.ac = acSub s.launch.acSub (s.reg .a) v s.flags.cy ∧
    (s.launch.acSub = .recommended →
      (t.flags.ac = true ↔ v.toNat % 16 + s.flags.cy.toNat ≤ (s.reg .a).toNat % 16)) ∧
    t.sp = s.sp ∧ Frame [.a] [] s t

/-! ### What the spec's tables let an instruction touch -/

/-- The registers the spec says an instruction writes (10_state.md R22). -/
def writtenRegs : Instr → List Reg
  | .lda _ | .ldax _ | .oraR _ | .oraM | .ori _ | .ral | .rar | .rlc | .rrc | .rim
  | .sbbR _ | .sbbM | .sbi _ => [.a]
  | .lhld _ => [.h, .l]
  | .lxi .bc _ | .pop .bc => [.b, .c]
  | .lxi .de _ | .pop .de => [.d, .e]
  | .lxi .hl _ | .pop .hl => [.h, .l]
  | .pop .psw => [.a]
  | .lxi .sp _ | .lxi .psw _ | .pop .sp => []
  | .movRR rd _ => [rd]
  | .movRM rd => [rd]
  | .mviR r _ => [r]
  | .jpe _ | .jz _ | .jnz _ | .pchl | .shld _ | .sphl | .movMR _ | .mviM _ | .nop | .out _ | .sim
  | .push _ | .ret | .rc | .rnc | .rp | .rm | .rpe | .rpo | .rz | .rnz | .rst _ => []

/-- The addresses the spec says an instruction stores to, in the order of the stores (20_memory.md R51,
R67): the same expressions the meanings apply. -/
def storedAddresses (s : State) : Instr → List Word
  | .shld addr => [addr, addr + 1#16]
  | .movMR _ => [s.hl]
  | .mviM _ => [s.hl]
  | .push _ => [s.sp - 1#16, s.sp - 2#16]
  | .rst _ => [s.sp - 1#16, s.sp - 2#16]
  | .jpe _ | .jz _ | .jnz _ | .pchl | .lda _ | .ldax _ | .lhld _ | .lxi _ _ | .sphl
  | .movRR _ _ | .movRM _ | .mviR _ _ | .nop | .oraR _ | .oraM | .ori _ | .ral | .rar | .rlc | .rrc
  | .out _ | .rim | .sim | .pop _ | .ret | .rc | .rnc | .rp | .rm | .rpe | .rpo | .rz | .rnz
  | .sbbR _ | .sbbM | .sbi _ => []

/-- One data access of an instruction, or its `IoWrite`. -/
inductive Access where
  | read (addr : Word)
  | write (addr : Word) (v : Byte)
  | port (port v : Byte)
deriving DecidableEq, Repr

/-- The two reads of a transfer from the stack (20_memory.md R51, R67). -/
def stackReads (s : State) : List Access := [.read s.sp, .read (s.sp + 1#16)]

/-- The two writes of a transfer to the stack, the high byte first (20_memory.md R51, R67). -/
def stackWrites (s : State) (hi lo : Byte) : List Access :=
  [.write (s.sp - 1#16) hi, .write (s.sp - 2#16) lo]

/-- The accesses the spec says an instruction makes after its fetch, in their order (20_memory.md R51,
R57, R67). A term that is no instruction of the spec makes none. -/
def dataAccesses (s : State) : Instr → List Access
  | .lda addr => [.read addr]
  | .ldax .bc => [.read s.bc]
  | .ldax .de => [.read s.de]
  | .lhld addr => [.read addr, .read (addr + 1#16)]
  | .shld addr => [.write addr (s.reg .l), .write (addr + 1#16) (s.reg .h)]
  | .movRM _ | .oraM | .sbbM => [.read s.hl]
  | .movMR rs => [.write s.hl (s.reg rs)]
  | .mviM data => [.write s.hl data]
  | .out port => [.port port (s.reg .a)]
  | .pop .bc | .pop .de | .pop .hl | .pop .psw | .ret => stackReads s
  | .push .bc => stackWrites s (s.reg .b) (s.reg .c)
  | .push .de => stackWrites s (s.reg .d) (s.reg .e)
  | .push .hl => stackWrites s (s.reg .h) (s.reg .l)
  | .push .psw => stackWrites s (s.reg .a) s.pswByte
  | .rst _ => stackWrites s (hi8 (s.pc + 1#16)) (lo8 (s.pc + 1#16))
  | .rc => if s.flags.cy then stackReads s else []
  | .rnc => if s.flags.cy then [] else stackReads s
  | .rm => if s.flags.s then stackReads s else []
  | .rp => if s.flags.s then [] else stackReads s
  | .rpe => if s.flags.p then stackReads s else []
  | .rpo => if s.flags.p then [] else stackReads s
  | .rz => if s.flags.z then stackReads s else []
  | .rnz => if s.flags.z then [] else stackReads s
  | .jpe _ | .jz _ | .jnz _ | .pchl | .lxi _ _ | .sphl | .movRR _ _ | .mviR _ _ | .nop | .oraR _ | .ori _
  | .ral | .rar | .rlc | .rrc | .rim | .sim | .sbbR _ | .sbi _
  | .ldax .hl | .ldax .sp | .ldax .psw | .pop .sp | .push .sp => []

/-- Why the map does not let one access through. A port access is always let through. -/
def Access.refusal (m : List Region) : Access → Option Refusal
  | .read x => mapRefusal m .read x
  | .write x _ => mapRefusal m .write x
  | .port _ _ => none

/-- The first access of the list that the map does not let through, as the refusal it is. -/
def firstRefusal (m : List Region) (as : List Access) : Option Refusal := as.findSome? (Access.refusal m)

/-- One access performed: what it does to memory and to what stands outside the core. -/
def State.performOne (s : State) : Access → State
  | .read x => s.afterRead .read x
  | .write x v => s.afterWrite x v
  | .port p v => s.ioWrite p v

/-- A list of accesses performed, each once, in order (20_memory.md R59). -/
def State.perform (s : State) (as : List Access) : State := as.foldl State.performOne s

/-- The bytes that `n` fetches from `x` on return, and the state they leave. -/
def fetched : Nat → Word → State → List Byte × State
  | 0, _, s => ([], s)
  | n + 1, x, s =>
    let r := fetched n (x + 1#16) (s.afterRead .fetch x)
    (s.byteAt .fetch x :: r.1, r.2)

/-- The instructions that write all five flags (10_state.md R34). -/
def writesAllFlags : Instr → Bool
  | .oraR _ | .oraM | .ori _ | .sbbR _ | .sbbM | .sbi _ | .pop .psw => true
  | .jpe _ | .jz _ | .jnz _ | .pchl | .lda _ | .ldax _ | .lhld _ | .lxi _ _ | .shld _ | .sphl
  | .movRR _ _ | .movMR _ | .movRM _ | .mviR _ _ | .mviM _ | .nop | .ral | .rar | .rlc | .rrc
  | .out _ | .rim | .sim | .pop _ | .push _ | .ret | .rc | .rnc | .rp | .rm | .rpe | .rpo | .rz | .rnz
  | .rst _ => false

/-- The rotates, which write CY and no other flag (10_state.md R34). -/
def isRotate : Instr → Bool
  | .ral | .rar | .rlc | .rrc => true
  | .jpe _ | .jz _ | .jnz _ | .pchl | .lda _ | .ldax _ | .lhld _ | .lxi _ _ | .shld _ | .sphl
  | .movRR _ _ | .movMR _ | .movRM _ | .mviR _ _ | .mviM _ | .nop | .oraR _ | .oraM | .ori _
  | .out _ | .rim | .sim | .pop _ | .push _ | .ret | .rc | .rnc | .rp | .rm | .rpe | .rpo | .rz | .rnz
  | .rst _ | .sbbR _ | .sbbM | .sbi _ => false

/-- The eight conditional returns and the conditions they test (00_scope.md R14). -/
def returnCond : Instr → Option Cond
  | .rnz => some .nz
  | .rz => some .z
  | .rnc => some .nc
  | .rc => some .c
  | .rpo => some .po
  | .rpe => some .pe
  | .rp => some .p
  | .rm => some .m
  | .jpe _ | .jz _ | .jnz _ | .pchl | .lda _ | .ldax _ | .lhld _ | .lxi _ _ | .shld _ | .sphl
  | .movRR _ _ | .movMR _ | .movRM _ | .mviR _ _ | .mviM _ | .nop | .oraR _ | .oraM | .ori _
  | .ral | .rar | .rlc | .rrc | .out _ | .rim | .sim | .pop _ | .push _ | .ret
  | .rst _ | .sbbR _ | .sbbM | .sbi _ => none

/-- The three conditional jumps, the conditions they test and their targets (00_scope.md R14). -/
def jumpCond : Instr → Option (Cond × Word)
  | .jpe addr => some (.pe, addr)
  | .jz addr => some (.z, addr)
  | .jnz addr => some (.nz, addr)
  | .pchl | .lda _ | .ldax _ | .lhld _ | .lxi _ _ | .shld _ | .sphl
  | .movRR _ _ | .movMR _ | .movRM _ | .mviR _ _ | .mviM _ | .nop | .oraR _ | .oraM | .ori _
  | .ral | .rar | .rlc | .rrc | .out _ | .rim | .sim | .pop _ | .push _ | .ret
  | .rc | .rnc | .rp | .rm | .rpe | .rpo | .rz | .rnz | .rst _ | .sbbR _ | .sbbM | .sbi _ => none

/-- Does this instruction, in this state, write `pc` itself (10_state.md R25)? -/
def transfers (s : State) (i : Instr) : Bool :=
  match i with
  | .pchl | .ret | .rst _ => true
  | _ =>
    match jumpCond i, returnCond i with
    | some (cc, _), _ => s.flags.holds cc
    | none, some cc => s.flags.holds cc
    | none, none => false

/-- What `sp` holds after the instruction, where it does not stop (10_state.md R24). -/
def spAfter (s : State) (i : Instr) : Word :=
  match i with
  | .lxi p data => if p = .sp then data else s.sp
  | .sphl => s.hl
  | .pop _ | .ret => s.sp + 2#16
  | .push _ | .rst _ => s.sp - 2#16
  | _ =>
    match returnCond i with
    | some cc => if s.flags.holds cc then s.sp + 2#16 else s.sp
    | none => s.sp

/-- The events the instruction appends to the output trace (10_state.md R41, R140, R142); OUT appends one
under the default `OUT_DEV` (20_memory.md R53). -/
def emitted (s : State) (i : Instr) : List TraceEvent :=
  match i with
  | .out port => if s.launch.outDev = .recorded then [.io port (s.reg .a)] else []
  | .sim => if (s.reg .a).getLsbD 6 then [.sod ((s.reg .a).getLsbD 7)] else []
  | _ => []

/-- The 120 first bytes the opcode table does not list, spelled out from 30_encoding.md R82, so that this
does not rest on the decoder. -/
def unlistedOpcodes : List Nat :=
  [0x02, 0x03, 0x04, 0x05, 0x08, 0x09, 0x0B, 0x0C, 0x0D, 0x10, 0x12, 0x13, 0x14, 0x15, 0x18, 0x19,
   0x1B, 0x1C, 0x1D, 0x23, 0x24, 0x25, 0x27, 0x28, 0x29, 0x2B, 0x2C, 0x2D, 0x2F, 0x32, 0x33, 0x34,
   0x35, 0x37, 0x38, 0x39, 0x3B, 0x3C, 0x3D, 0x3F, 0x76]
  ++ List.range' 0x80 24 ++ List.range' 0xA0 16 ++ List.range' 0xB8 8 ++
  [0xC3, 0xC4, 0xC6, 0xCB, 0xCC, 0xCD, 0xCE, 0xD2, 0xD4, 0xD6, 0xD9, 0xDA, 0xDB, 0xDC, 0xDD, 0xE2,
   0xE3, 0xE4, 0xE6, 0xEB, 0xEC, 0xED, 0xEE, 0xF2, 0xF3, 0xF4, 0xFA, 0xFB, 0xFC, 0xFD, 0xFE]

/-! ### What an observer sees -/

/-- The state with the hidden state of 10_state.md R38 and the trace blanked: what a program can see
without RIM. -/
def State.visible (s : State) : State :=
  { s with imask := 0, sod := false, r75 := false, ie := false, sid := false, trace := [] }

/-- The state with AC blanked. -/
def State.withoutAC (s : State) : State := s.setFlags { s.flags with ac := false }

/-- Two results agree under a view of the state: both go on to states the view cannot tell apart, or
both stop for the same reason. -/
def Agree (view : State → State) : Result → Result → Prop
  | .next t, .next u => view t = view u
  | .refused r, .refused q => r = q
  | .next _, .refused _ => False
  | .refused _, .next _ => False
  | .fault r, _ => nomatch r
  | _, .fault r => nomatch r

/-! ### Sequences and runs -/

/-- Execute instructions one after the other, whatever stands in memory, stopping at the first refusal. -/
def execAll : List Instr → State → Result
  | [], s => .next s
  | i :: rest, s =>
    match exec i s with
    | .next t => execAll rest t
    | .refused r => .refused r
    | .fault r => nomatch r

/-- The encoding of an instruction as one number, bit 0 the least significant bit of its first byte. -/
def encodingNumber (order : OperandOrder) (i : Instr) : Nat :=
  (encode order i).foldr (fun v n => v.toNat + 256 * n) 0

/-- How a run of at most some number of steps ends. -/
inductive RunEnd where
  /-- `pc` is `END_PC`: the run is over in this state. -/
  | over (s : State)
  /-- The steps are used up. -/
  | running (s : State)
  /-- A step was refused: no final state (70_reset_and_hazards.md R234). -/
  | refused (r : Refusal)
deriving DecidableEq, Repr

/-- A run to `END_PC`, a parameter with no default: the run is over when `pc = END_PC` at the start of a
step, and the instruction there is not fetched (70_reset_and_hazards.md R234; log 16). -/
def runTo (endPc : Word) : Nat → State → RunEnd
  | 0, s => if s.pc = endPc then .over s else .running s
  | n + 1, s =>
    if s.pc = endPc then .over s
    else
      match step s with
      | .next t => runTo endPc n t
      | .refused r => .refused r
      | .fault r => nomatch r

end Sys2Proof.Machine
end

