-- ==== Sys2Proof/Certificates/Slice0/Obligations.lean ====
section
/-! DEFINITION. The statements for the provers. Each docstring names the rule of spec/ it formalises, or,
for a clause the spec or the model chose, the decision (D<n>) or the log entry. Where a statement does
not say what `pc` becomes, `PcIsSequentialUnlessTransfer` does. -/

open Sys2Proof Sys2Proof.Machine

/-! ### Encoding and decoding -/

/-- Decoding an encoded well-formed instruction gives it back, with every operand at every value, whatever
bytes follow and under either `OPERAND_ORDER` (30_encoding.md R70, R76, R80; 20_memory.md R55). -/
def Obligations.DecodeInvertsEncode : Prop :=
  ∀ (order : OperandOrder) (i : Instr) (rest : List Byte), i.wellFormed = true →
    decode order (encode order i ++ rest) = .ok (i, rest)

/-- Bytes that decode are the encoding of what they decode to, which is well formed: no two byte sequences
mean the same instruction and no bit is dropped (30_encoding.md R80, R85). -/
def Obligations.EncodeInvertsDecode : Prop :=
  ∀ (order : OperandOrder) (bs rest : List Byte) (i : Instr), decode order bs = .ok (i, rest) →
    i.wellFormed = true ∧ bs = encode order i ++ rest

/-- Words written out from the spec's hex-code tables decode to what they stand for, one or more of each
family (95_test_vectors.md S-1, 30_encoding.md R78; EAh is decision D29). That 34 12 after CA is 1234h is the
operand byte order of R76, decision D1, log 13; that E2h and 76h are refused is R82, decision D14. -/
def Obligations.SpecWordsDecodeAsPrinted : Prop :=
  decodeTableWord 24 0x1234CA = some (.jz 0x1234) ∧ decodeTableWord 24 0x5678EA = some (.jpe 0x5678) ∧
  decodeTableWord 8 0x1A = some (.ldax .de) ∧ decodeTableWord 24 0x123421 = some (.lxi .hl 0x1234) ∧
  decodeTableWord 8 0x66 = some (.movRM .h) ∧ decodeTableWord 16 0x0A06 = some (.mviR .b 0x0A) ∧
  decodeTableWord 8 0xB5 = some (.oraR .l) ∧ decodeTableWord 8 0x1F = some .rar ∧
  decodeTableWord 16 0x10D3 = some (.out 0x10) ∧ decodeTableWord 8 0xF5 = some (.push .psw) ∧
  decodeTableWord 8 0xD8 = some .rc ∧ decodeTableWord 8 0xEF = some (.rst 5) ∧
  decodeTableWord 16 0x01DE = some (.sbi 0x01) ∧
  decodeTableWord 24 0x5678E2 = none ∧ decodeTableWord 8 0x76 = none

/-! ### The step -/

/-- A step runs the decoded instruction: when the bytes at `pc`, in plain storage, decode and the map admits
the fetch of as many as the instruction has, `step` is `exec` of it on the same state. Where fetches meet
devices, it is `exec` of what the fetched bytes decode to, on the state the fetches leave
(10_state.md R26, R27, decision D2; 20_memory.md R59). -/
def Obligations.StepRunsDecodedInstruction : Prop :=
  ∀ (s : State) (i : Instr),
    (∀ rest : List Byte,
      decode s.launch.operandOrder
        [s.mem.read s.pc, s.mem.read (s.pc + 1#16), s.mem.read (s.pc + 2#16)] = .ok (i, rest) →
      (∀ k, k < i.length → s.admits .fetch (s.npc k) ∧ s.isDevice (s.npc k) = false) →
      i.wellFormed = true ∧ step s = exec i s) ∧
    (∀ n : Nat, decode s.launch.operandOrder (fetched n s.pc s).1 = .ok (i, []) →
      (∀ k, k < n → s.admits .fetch (s.npc k)) →
      i.wellFormed = true ∧ i.length = n ∧ step s = exec i (fetched n s.pc s).2)

/-- An unlisted byte at `pc` is refused by name, whatever stands after it (30_encoding.md R82, decision
D14). -/
def Obligations.StepRefusesUnlistedByte : Prop :=
  ∀ s : State, s.admits .fetch s.pc → (s.byteAt .fetch s.pc).toNat ∈ unlistedOpcodes →
    step s = .refused (.unlistedOpcode (s.byteAt .fetch s.pc) s.pc)

/-- The order of a fetch's refusals: an unadmitted first byte before the lookup; for a listed byte the
operand bytes in ascending order, all of them, also for a conditional jump that is not taken
(60_exceptions.md R206, 20_memory.md R67, decision D25). -/
def Obligations.FetchRefusalsComeInAddressOrder : Prop :=
  ∀ (s : State) (r : Refusal),
    (mapRefusal s.launch.memMap .fetch s.pc = some r → step s = .refused r) ∧
    (∀ mk, s.admits .fetch s.pc → decodeOpcode (s.byteAt .fetch s.pc) = some (.f2 mk) →
      mapRefusal s.launch.memMap .fetch (s.pc + 1#16) = some r → step s = .refused r) ∧
    (∀ mk, s.admits .fetch s.pc → decodeOpcode (s.byteAt .fetch s.pc) = some (.f3 mk) →
      mapRefusal s.launch.memMap .fetch (s.pc + 1#16) = some r → step s = .refused r) ∧
    (∀ mk, s.admits .fetch s.pc → decodeOpcode (s.byteAt .fetch s.pc) = some (.f3 mk) →
      s.admits .fetch (s.pc + 1#16) →
      mapRefusal s.launch.memMap .fetch (s.pc + 2#16) = some r → step s = .refused r)

/-- With a map that admits everything, as the default does, a step has a next state exactly when the byte at
`pc` is not one of R82's 120: nothing else stops a step (10_state.md R26, 60_exceptions.md R200, R201;
decisions D14, D15, D17). -/
def Obligations.EveryListedByteStepsInFullMemory : Prop :=
  unlistedOpcodes.length = 120 ∧
  ∀ s : State, s.AdmitsAll →
    ((s.byteAt .fetch s.pc).toNat ∉ unlistedOpcodes ↔ ∃ t, step s = .next t)

/-- The only stops of a step are the two named refusals of R13: `UnlistedOpcode` for the byte at `pc`, and
`UnadmittedAccess` for an access the launch's map does not admit (00_scope.md R13, 60_exceptions.md R201). In
particular no step meets an ill-formed term (log 18), and no device stops one (20_memory.md R59; log 26). -/
def Obligations.StepStopsOnlyForByteOrMap : Prop :=
  ∀ (s : State) (r : Refusal), step s = .refused r →
    (r = .unlistedOpcode (s.byteAt .fetch s.pc) s.pc ∧ (s.byteAt .fetch s.pc).toNat ∈ unlistedOpcodes) ∨
      ∃ (k : AccessKind) (x : Word), r = .unadmittedAccess x k ∧ mapRefusal s.launch.memMap k x = some r

/-- A term whose register pair the instruction does not admit is refused, never given an effect
(10_state.md R23; the refusal is the model's, log 18). -/
def Obligations.IllFormedTermsAreRefused : Prop :=
  ∀ (i : Instr) (s : State), i.wellFormed = false → ∃ r, exec i s = .refused r

/-- The memory's canonical form is kept by every step (the model's representation, log 4). -/
def Obligations.StepKeepsMemoryCanonical : Prop :=
  ∀ s t : State, s.Inv → step s = .next t → t.Inv

/-- What a launch leaves, whatever the launch parameters and whatever registers, flags, `sp`, memory image and
serial input it happens to have: R42's column "after reset" where it gives a value (`pc` and the hidden state
are logs 2 and 3), the trace empty. That the record of device accesses is empty is the model's choice, log 26.
`State.reset` is one such launch, under the default parameters (log 5): `pc` at the recommended `RESET_PC`
(log 2, decision D21), and the default map, which admits everything and has no device (decision D17). That its
memory lists nothing, which is the canonical form, is the model's choice, log 4. -/
def Obligations.ResetLeavesTabledValues : Prop :=
  (∀ (l : Launch) (g : Regs) (f : Flags) (sp : Word) (m : Memory) (sid : Bool),
    let s := State.atLaunch l g f sp m sid
    s.pc = l.resetPc ∧ s.imask = 0b111 ∧ s.sod = false ∧ s.r75 = false ∧ s.ie = false ∧ s.trace = [] ∧
      s.bus = [] ∧ s.regs = g ∧ s.flags = f ∧ s.sp = sp ∧ s.mem = m ∧ s.sid = sid ∧ s.launch = l) ∧
  (∃ g f sp sid, State.reset = State.atLaunch Config.defaultLaunch g f sp [] sid) ∧
  State.reset.Inv ∧ State.reset.pc = 0x0000 ∧ State.reset.AdmitsAll ∧
    ∀ x : Word, State.reset.isDevice x = false

/-- An instruction placed by `withFetchWord` is the next one run, in any state whose map admits everything
and has plain storage where it is placed (how a program comes to run is the model's choice, log 19). -/
def Obligations.PlacedInstructionRunsNext : Prop :=
  ∀ (s : State) (i : Instr), s.AdmitsAll → (∀ k, k < 3 → s.isDevice (s.npc k) = false) → s.Inv →
    i.wellFormed = true →
    step (s.withFetchWord (8 * i.length) (encodingNumber s.launch.operandOrder i)) =
      exec i (s.withFetchWord (8 * i.length) (encodingNumber s.launch.operandOrder i))

/-! ### What every instruction leaves alone -/

/-- Every register outside the column "written by" of R22 is unchanged, for every instruction
(10_state.md R22, a table the spec derives). -/
def Obligations.RegistersChangeOnlyAsTabled : Prop :=
  ∀ (i : Instr) (s t : State), exec i s = .next t → SameRegsBut (writtenRegs i) s t

/-- Every flag outside R34's table is unchanged: the rotates write CY only, the OR, subtract and POP PSW
instructions all five, every other instruction none (10_state.md R34; POP PSW is conflict C3). -/
def Obligations.FlagsChangeOnlyAsTabled : Prop :=
  ∀ (i : Instr) (s t : State), exec i s = .next t → writesAllFlags i = false →
    t.flags.s = s.flags.s ∧ t.flags.z = s.flags.z ∧ t.flags.ac = s.flags.ac ∧ t.flags.p = s.flags.p ∧
      (isRotate i = false → t.flags.cy = s.flags.cy)

/-- `sp` after every instruction: written by LXI SP, SPHL, POP, PUSH, RET, the taken conditional returns
and RST n, and by nothing else (10_state.md R24, decisions D3 to D6). -/
def Obligations.StackPointerMovesOnlyAsTabled : Prop :=
  ∀ (i : Instr) (s t : State), exec i s = .next t → t.sp = spAfter s i

/-- `pc` after every instruction that does not transfer is the address after its last byte
(10_state.md R25, R26, decisions D2, D3). -/
def Obligations.PcIsSequentialUnlessTransfer : Prop :=
  ∀ (i : Instr) (s t : State), exec i s = .next t → transfers s i = false →
    t.pc = s.pc + BitVec.ofNat 16 i.length

/-- Every byte of memory outside the addresses R51 lists as written by the instruction reads as before
(20_memory.md R51; decisions D3, D4, D6 for the stack). -/
def Obligations.MemoryChangesOnlyWhereStored : Prop :=
  ∀ (i : Instr) (s t : State), exec i s = .next t → SameMemoryBut (storedAddresses s i) s t

/-- No instruction but SIM writes the interrupt masks, the serial output bit or the 7.5 latch, and no
instruction writes the enable flag or the serial input bit (10_state.md R38, 60_exceptions.md R205). That
nothing outside the core writes them either in this model (the 7.5 input, the serial input pin) is its choice
and the launch premise of decision D16: log 14. -/
def Obligations.HiddenStateIsWrittenBySimAlone : Prop :=
  ∀ (i : Instr) (s t : State), exec i s = .next t →
    (i ≠ .sim → SameHidden s t) ∧ t.ie = s.ie ∧ t.sid = s.sid

/-- The output trace only grows, by what OUT (under the default `OUT_DEV`) and SIM append, and the launch
parameters never change (10_state.md R41, decisions D12, D18; the launch fields are the model's, logs 5 and
11). -/
def Obligations.TraceGrowsByOutAndSimAlone : Prop :=
  ∀ (i : Instr) (s t : State), exec i s = .next t →
    t.trace = s.trace ++ emitted s i ∧ t.launch = s.launch

/-- The hidden state is invisible but to RIM: from two states that differ only in it and in the trace, a
step whose first byte is not 20h goes on to states that differ only there, or stops alike
(10_state.md R38: "Nothing in scope reads `imask`, `sod`, `r75` or `ie` except RIM"). The two states have the
same draw counter and the same record of device accesses, so a PUSH PSW (F5h) draws the same spare bits and a
device answers alike in both: the model's choices, logs 8 and 26 (two draws need not agree, R12). -/
def Obligations.HiddenStateIsSeenByRimAlone : Prop :=
  ∀ s u : State, s.visible = u.visible → s.byteAt .fetch s.pc ≠ 0x20#8 →
    Agree State.visible (step s) (step u)

/-- AC is read by PUSH PSW alone: from two states that differ only in AC, a step whose first byte is not
F5h goes on to states that differ at most in AC, or stops alike (10_state.md R33, R35). The two states have
the same draw counter and the same record of device accesses, so a RIM (20h) draws the same word and a device
answers alike in both: the model's choices, logs 8, 9 and 26 (two draws need not agree, R12). -/
def Obligations.AuxCarryIsSeenByPushPswAlone : Prop :=
  ∀ s u : State, s.withoutAC = u.withoutAC → s.byteAt .fetch s.pc ≠ 0xF5#8 →
    Agree State.withoutAC (step s) (step u)

/-! ### Jumps -/

/-- JPE, JZ and JNZ go to `addr16` exactly when parity is even, Z = 1, Z = 0, else on; nothing else changes
(40_jumps.md R100, R101, R102; `npc` is decision D2). -/
def Obligations.ConditionalJumpsFollowTheirFlag : Prop :=
  ∀ (addr : Word) (s : State),
    exec (.jpe addr) s = .next { s with pc := if s.flags.p = true then addr else s.pc + 3#16 } ∧
    exec (.jz addr) s = .next { s with pc := if s.flags.z = true then addr else s.pc + 3#16 } ∧
    exec (.jnz addr) s = .next { s with pc := if s.flags.z = false then addr else s.pc + 3#16 }

/-- PCHL copies H and L into `pc`, H the high-order bits, and changes nothing else; its code is E9h
(40_jumps.md R103). -/
def Obligations.PchlCopiesHlIntoPc : Prop :=
  (∀ order, encode order .pchl = [0xE9]) ∧
  ∀ s : State, ∃ t, exec .pchl s = .next t ∧
    hi8 t.pc = s.reg .h ∧ lo8 t.pc = s.reg .l ∧
    t.flags = s.flags ∧ t.sp = s.sp ∧ Frame [] [] s t

/-! ### Loads and stores of A, HL, SP and pairs -/

/-- LDA loads A from the byte at `addr16` and changes nothing else but `pc` (41_load_store_16.md R110;
`byteAt` is `PlainStorageReadsAsStored`; the map's hypothesis is 20_memory.md R52, decision D17; a device's
byte is a free value, log 26). -/
def Obligations.LdaLoadsAccumulator : Prop :=
  ∀ (addr : Word) (s : State), s.admits .read addr →
    ∃ t, exec (.lda addr) s = .next t ∧ t.reg .a = s.byteAt .read addr ∧
      t.flags = s.flags ∧ t.sp = s.sp ∧ Frame [.a] [] s t

/-- LDAX loads A from the byte at B:C or D:E and leaves the pair alone; the codes are 0Ah and 1Ah
(41_load_store_16.md R111; the map's hypothesis is 20_memory.md R52, decision D17; a device's byte is a free
value, log 26). -/
def Obligations.LdaxLoadsThroughPair : Prop :=
  (∀ order, encode order (.ldax .bc) = [0x0A] ∧ encode order (.ldax .de) = [0x1A]) ∧
  ∀ s : State,
    (s.admits .read (concat (s.reg .b) (s.reg .c)) →
      ∃ t, exec (.ldax .bc) s = .next t ∧
        t.reg .a = s.byteAt .read (concat (s.reg .b) (s.reg .c)) ∧
        t.flags = s.flags ∧ t.sp = s.sp ∧ Frame [.a] [] s t) ∧
    (s.admits .read (concat (s.reg .d) (s.reg .e)) →
      ∃ t, exec (.ldax .de) s = .next t ∧
        t.reg .a = s.byteAt .read (concat (s.reg .d) (s.reg .e)) ∧
        t.flags = s.flags ∧ t.sp = s.sp ∧ Frame [.a] [] s t)

/-- LHLD loads L from `addr16`, then H from the next location, modulo 2^16, whatever H and L were
(41_load_store_16.md R112; the wrap is decision D3; the map's hypothesis is 20_memory.md R52, decision D17; a
device's byte is a free value, log 26). -/
def Obligations.LhldLoadsLThenH : Prop :=
  ∀ (addr : Word) (s : State), s.admits .read addr → s.admits .read (addr + 1#16) →
    ∃ t, exec (.lhld addr) s = .next t ∧
      t.reg .l = s.byteAt .read addr ∧
      t.reg .h = (s.afterRead .read addr).byteAt .read (addr + 1#16) ∧
      t.flags = s.flags ∧ t.sp = s.sp ∧ Frame [.h, .l] [] s t

/-- LXI loads a 16-bit constant into BC, DE, HL or SP, the high register taking the high-order byte
(41_load_store_16.md R113). -/
def Obligations.LxiLoadsPair : Prop :=
  ∀ (w : Word) (s : State),
    (∃ t, exec (.lxi .bc w) s = .next t ∧ t.reg .b = hi8 w ∧ t.reg .c = lo8 w ∧
      t.flags = s.flags ∧ t.sp = s.sp ∧ Frame [.b, .c] [] s t) ∧
    (∃ t, exec (.lxi .de w) s = .next t ∧ t.reg .d = hi8 w ∧ t.reg .e = lo8 w ∧
      t.flags = s.flags ∧ t.sp = s.sp ∧ Frame [.d, .e] [] s t) ∧
    (∃ t, exec (.lxi .hl w) s = .next t ∧ t.reg .h = hi8 w ∧ t.reg .l = lo8 w ∧
      t.flags = s.flags ∧ t.sp = s.sp ∧ Frame [.h, .l] [] s t) ∧
    (∃ t, exec (.lxi .sp w) s = .next t ∧ t.sp = w ∧ t.flags = s.flags ∧ Frame [] [] s t)

/-- SHLD stores L at `addr16` and H at the next location, modulo 2^16, and no other byte (41_load_store_16.md
R114, 20_memory.md R54; the wrap is decision D3; the map's hypothesis is 20_memory.md R52, decision D17; at a
device `Stored` says that the model's record holds the write, log 26). -/
def Obligations.ShldStoresLThenH : Prop :=
  ∀ (addr : Word) (s : State), s.Inv → s.admits .write addr → s.admits .write (addr + 1#16) →
    ∃ t, exec (.shld addr) s = .next t ∧
      Stored s addr (s.reg .l) t ∧ Stored s (addr + 1#16) (s.reg .h) t ∧
      t.flags = s.flags ∧ t.sp = s.sp ∧ Frame [] [addr, addr + 1#16] s t

/-- SPHL copies H and L into `sp`, H the high-order part, and changes nothing else but `pc`; its code is
F9h (41_load_store_16.md R115). -/
def Obligations.SphlCopiesHlIntoSp : Prop :=
  (∀ order, encode order .sphl = [0xF9]) ∧
  ∀ s : State, ∃ t, exec .sphl s = .next t ∧
    hi8 t.sp = s.reg .h ∧ lo8 t.sp = s.reg .l ∧ t.flags = s.flags ∧ Frame [] [] s t

/-! ### Moves -/

/-- MOV Rd,Rs copies any of the seven registers to any of the seven and changes nothing else but `pc`
(42_mov_mvi_nop.md R120). -/
def Obligations.MovCopiesRegister : Prop :=
  ∀ (rd rs : Reg) (s : State), ∃ t, exec (.movRR rd rs) s = .next t ∧ t.reg rd = s.reg rs ∧
    t.flags = s.flags ∧ t.sp = s.sp ∧ Frame [rd] [] s t

/-- MOV M,Rs stores the register at H:L and no other byte, and changes no register; the codes are those of the
document's table (42_mov_mvi_nop.md R121; the map's hypothesis is 20_memory.md R52, decision D17; at a device
`Stored` says that the model's record holds the write, log 26). -/
def Obligations.MovStoresRegisterAtHl : Prop :=
  (∀ order, [Reg.a, .b, .c, .d, .e, .h, .l].map (fun r => encode order (.movMR r)) =
    [[0x77], [0x70], [0x71], [0x72], [0x73], [0x74], [0x75]]) ∧
  ∀ (rs : Reg) (s : State), s.Inv → s.admits .write s.hl →
    ∃ t, exec (.movMR rs) s = .next t ∧ Stored s (concat (s.reg .h) (s.reg .l)) (s.reg rs) t ∧
      t.flags = s.flags ∧ t.sp = s.sp ∧ Frame [] [s.hl] s t

/-- MOV Rd,M loads the byte at H:L, as H and L are before the write; the codes are those of the document's
table (42_mov_mvi_nop.md R122; the map's hypothesis is 20_memory.md R52, decision D17; a device's byte is a
free value, log 26). -/
def Obligations.MovLoadsRegisterFromHl : Prop :=
  (∀ order, [Reg.a, .b, .c, .d, .e, .h, .l].map (fun r => encode order (.movRM r)) =
    [[0x7E], [0x46], [0x4E], [0x56], [0x5E], [0x66], [0x6E]]) ∧
  ∀ (rd : Reg) (s : State), s.admits .read s.hl →
    ∃ t, exec (.movRM rd) s = .next t ∧
      t.reg rd = s.byteAt .read (concat (s.reg .h) (s.reg .l)) ∧
      t.flags = s.flags ∧ t.sp = s.sp ∧ Frame [rd] [] s t

/-- MVI R stores the 8 bits of data in the register; the codes are those of the document's table
(42_mov_mvi_nop.md R123). -/
def Obligations.MviLoadsConstant : Prop :=
  (∀ order (v : Byte), [Reg.a, .b, .c, .d, .e, .h, .l].map (fun r => encode order (.mviR r v)) =
    [[0x3E, v], [0x06, v], [0x0E, v], [0x16, v], [0x1E, v], [0x26, v], [0x2E, v]]) ∧
  ∀ (r : Reg) (v : Byte) (s : State), ∃ t, exec (.mviR r v) s = .next t ∧ t.reg r = v ∧
    t.flags = s.flags ∧ t.sp = s.sp ∧ Frame [r] [] s t

/-- MVI M stores the 8 bits of data at H:L and no other byte; its code is 36h (42_mov_mvi_nop.md R124; the
map's hypothesis is 20_memory.md R52, decision D17; at a device `Stored` says that the model's record holds
the write, log 26). -/
def Obligations.MviStoresConstantAtHl : Prop :=
  (∀ order (v : Byte), encode order (.mviM v) = [0x36, v]) ∧
  ∀ (v : Byte) (s : State), s.Inv → s.admits .write s.hl →
    ∃ t, exec (.mviM v) s = .next t ∧ Stored s (concat (s.reg .h) (s.reg .l)) v t ∧
      t.flags = s.flags ∧ t.sp = s.sp ∧ Frame [] [s.hl] s t

/-- NOP changes `pc` only, to the next byte (42_mov_mvi_nop.md R125; `npc` is decision D2). -/
def Obligations.NopChangesPcOnly : Prop :=
  ∀ s : State, exec .nop s = .next { s with pc := s.pc + 1#16 }

/-- A store into the instruction stream is seen by the very next fetch: MOV M,Rs onto the byte after itself,
then the step there runs the stored byte as a one-, two- or three-byte instruction, with the operand bytes
that stand after it, or refuses it (20_memory.md R63, decision D20). -/
def Obligations.StoreIsSeenByNextFetch : Prop :=
  ∀ (rs : Reg) (s : State), s.Inv → s.admits .write s.hl → s.isDevice s.hl = false →
    s.hl = s.pc + 1#16 → s.admits .fetch (s.pc + 1#16) →
    ∃ t, exec (.movMR rs) s = .next t ∧
      (∀ i, decodeOpcode (s.reg rs) = some (.f1 i) → step t = exec i t) ∧
      (∀ mk, decodeOpcode (s.reg rs) = some (.f2 mk) →
        s.admits .fetch (s.pc + 2#16) → s.isDevice (s.pc + 2#16) = false →
        step t = exec (mk (s.mem.read (s.pc + 2#16))) t) ∧
      (∀ mk, decodeOpcode (s.reg rs) = some (.f3 mk) →
        s.admits .fetch (s.pc + 2#16) → s.isDevice (s.pc + 2#16) = false →
        s.admits .fetch (s.pc + 3#16) → s.isDevice (s.pc + 3#16) = false →
        step t = exec (mk (operandWord s.launch.operandOrder
          (s.mem.read (s.pc + 2#16)) (s.mem.read (s.pc + 3#16)))) t) ∧
      (decodeOpcode (s.reg rs) = none → step t = .refused (.unlistedOpcode (s.reg rs) (s.pc + 1#16)))

/-! ### OR and rotates -/

/-- ORA R, ORA M and ORI leave A OR the operand in A, set Z, S, P from it and reset AC and CY
(43_logic_rotate.md R130, R131, R132; what Z, S, P say of the result is decision D8; the map's hypothesis is
20_memory.md R52, decision D17; a device's byte is a free value, log 26). -/
def Obligations.OrInstructionsSetResultAndFlags : Prop :=
  ∀ s : State,
    (∀ r : Reg, ∃ t, exec (.oraR r) s = .next t ∧ OrEffect s (s.reg r) t) ∧
    (s.admits .read s.hl → ∃ t, exec .oraM s = .next t ∧ OrEffect s (s.byteAt .read s.hl) t) ∧
    (∀ v : Byte, ∃ t, exec (.ori v) s = .next t ∧ OrEffect s v t)

/-- RAL is the 9-bit rotation of CY:A to the left and RAR that of A:CY to the right; CY is the only flag
written; the codes are 17h and 1Fh (43_logic_rotate.md R133, R134). -/
def Obligations.RalRarRotateThroughCarry : Prop :=
  (∀ order, encode order .ral = [0x17] ∧ encode order .rar = [0x1F]) ∧
  ∀ s : State,
    (∃ t, exec .ral s = .next t ∧
      2 * (s.reg .a).toNat + s.flags.cy.toNat = 256 * t.flags.cy.toNat + (t.reg .a).toNat ∧
      t.flags.cy = (s.reg .a).getLsbD 7 ∧
      t.flags = { s.flags with cy := t.flags.cy } ∧ t.sp = s.sp ∧ Frame [.a] [] s t) ∧
    (∃ t, exec .rar s = .next t ∧
      256 * s.flags.cy.toNat + (s.reg .a).toNat = 2 * (t.reg .a).toNat + t.flags.cy.toNat ∧
      t.flags.cy = (s.reg .a).getLsbD 0 ∧
      t.flags = { s.flags with cy := t.flags.cy } ∧ t.sp = s.sp ∧ Frame [.a] [] s t)

/-- RLC and RRC rotate the 8 bits of A by one place; the bit that moves round goes to CY too, the only flag
written; the codes are 07h and 0Fh (43_logic_rotate.md R135, R136). -/
def Obligations.RlcRrcRotateAccumulator : Prop :=
  (∀ order, encode order .rlc = [0x07] ∧ encode order .rrc = [0x0F]) ∧
  ∀ s : State,
    (∃ t, exec .rlc s = .next t ∧
      (∀ k, k < 7 → (t.reg .a).getLsbD (k + 1) = (s.reg .a).getLsbD k) ∧
      (t.reg .a).getLsbD 0 = (s.reg .a).getLsbD 7 ∧ t.flags.cy = (s.reg .a).getLsbD 7 ∧
      t.flags = { s.flags with cy := t.flags.cy } ∧ t.sp = s.sp ∧ Frame [.a] [] s t) ∧
    (∃ t, exec .rrc s = .next t ∧
      (∀ k, k < 7 → (t.reg .a).getLsbD k = (s.reg .a).getLsbD (k + 1)) ∧
      (t.reg .a).getLsbD 7 = (s.reg .a).getLsbD 0 ∧ t.flags.cy = (s.reg .a).getLsbD 0 ∧
      t.flags = { s.flags with cy := t.flags.cy } ∧ t.sp = s.sp ∧ Frame [.a] [] s t)

/-- Rotates undo each other: RAL then RAR and RAR then RAL restore A and CY, RLC then RRC restores A and
leaves CY its old bit 7 (95_test_vectors.md V-I (e)). -/
def Obligations.RotatesUndoEachOther : Prop :=
  ∀ s : State,
    (∃ t, execAll [.ral, .rar] s = .next t ∧ t.regs = s.regs ∧ t.flags = s.flags) ∧
    (∃ t, execAll [.rar, .ral] s = .next t ∧ t.regs = s.regs ∧ t.flags = s.flags) ∧
    (∃ t, execAll [.rlc, .rrc] s = .next t ∧ t.regs = s.regs ∧
      t.flags = { s.flags with cy := (s.reg .a).getLsbD 7 })

/-- Nine RAL, or nine RAR, restore A and every flag; eight RLC, or eight RRC, restore A
(95_test_vectors.md V-I (f)). -/
def Obligations.FullTurnsRestoreAccumulator : Prop :=
  ∀ s : State,
    (∃ t, execAll (List.replicate 9 .ral) s = .next t ∧ t.regs = s.regs ∧ t.flags = s.flags) ∧
    (∃ t, execAll (List.replicate 9 .rar) s = .next t ∧ t.regs = s.regs ∧ t.flags = s.flags) ∧
    (∃ t, execAll (List.replicate 8 .rlc) s = .next t ∧ t.regs = s.regs) ∧
    (∃ t, execAll (List.replicate 8 .rrc) s = .next t ∧ t.regs = s.regs)

/-! ### Output, RIM, SIM -/

/-- OUT presents A at the port and changes nothing else but `pc` (44_io_rim_sim.md R140): under the default
`OUT_DEV` the port and A are appended to the output trace (decision D18, log 11); under another one the
record of device accesses holds them (log 26). -/
def Obligations.OutRecordsPortAndAccumulator : Prop :=
  ∀ (port : Byte) (s : State),
    (s.launch.outDev = .recorded → exec (.out port) s =
      .next { s with trace := s.trace ++ [.io port (s.reg .a)], pc := s.pc + 2#16 }) ∧
    (∀ k, s.launch.outDev = .other k → exec (.out port) s =
      .next { s with bus := s.bus ++ [.port port (s.reg .a)], pc := s.pc + 2#16 })

/-- RIM loads A with a draw, of which nothing is known, counts the draw, and changes nothing else but `pc`
(44_io_rim_sim.md R141, decision D11; the counter is the model's, log 9). -/
def Obligations.RimLoadsAnUnknownWord : Prop :=
  ∀ s : State, ∃ t, exec .rim s = .next t ∧
    t.reg .a = Config.rimWord s.draws s.imask s.r75 s.ie s.sid ∧ SameRegsBut [.a] s t ∧
    t.flags = s.flags ∧ t.sp = s.sp ∧ SameMemoryBut [] s t ∧ SameHidden s t ∧
    t.trace = s.trace ∧ t.launch = s.launch ∧ t.draws = s.draws + 1

/-- SIM by the layout of R40: bit 3 lets bits 2 to 0 into the masks, bit 4 clears the 7.5 latch, bit 6 lets
bit 7 out as the serial bit, which the trace records; nothing else changes but `pc`
(44_io_rim_sim.md R142; the layout is general knowledge, decision D12, log 10). -/
def Obligations.SimSetsMasksLatchAndSerialBit : Prop :=
  ∀ s : State, ∃ t, exec .sim s = .next t ∧
    t.imask = (if (s.reg .a).getLsbD 3 then (s.reg .a).setWidth 3 else s.imask) ∧
    t.r75 = (if (s.reg .a).getLsbD 4 then false else s.r75) ∧
    t.sod = (if (s.reg .a).getLsbD 6 then (s.reg .a).getLsbD 7 else s.sod) ∧
    t.trace = (if (s.reg .a).getLsbD 6 then s.trace ++ [.sod ((s.reg .a).getLsbD 7)] else s.trace) ∧
    t.ie = s.ie ∧ t.sid = s.sid ∧ t.regs = s.regs ∧ t.flags = s.flags ∧ t.sp = s.sp ∧
    SameMemoryBut [] s t ∧ t.draws = s.draws ∧ t.launch = s.launch

/-! ### The stack -/

/-- PUSH of BC, DE and HL stores the high register at `sp - 1` and the low register at `sp - 2`, lowers `sp`
by 2 and changes nothing else but `pc` (45_stack.md R151; the movement of `sp` is decision D4, log 21; the
map's hypothesis is 20_memory.md R52, decision D17; at a device `Stored` says that the model's record holds
the write, log 26). -/
def Obligations.PushStoresPair : Prop :=
  ∀ s : State, s.Inv → s.admits .write (s.sp - 1#16) → s.admits .write (s.sp - 2#16) →
    ∀ p hi lo, (p, hi, lo) ∈ [(RegPair.bc, Reg.b, Reg.c), (.de, .d, .e), (.hl, .h, .l)] →
      ∃ t, exec (.push p) s = .next t ∧
        Stored s (s.sp - 1#16) (s.reg hi) t ∧ Stored s (s.sp - 2#16) (s.reg lo) t ∧
        t.sp = s.sp - 2#16 ∧ t.flags = s.flags ∧ Frame [] [s.sp - 1#16, s.sp - 2#16] s t

/-- PUSH PSW stores A at `sp - 1` and at `sp - 2` a byte that holds S, Z, AC, P and CY in the bits the
launch's `PSW_LAYOUT` names (five different ones), 7, 6, 4, 2 and 0 under the recommended layout; the other
bits are the draw's, of which nothing is known (45_stack.md R151, 10_state.md R36; the layout is decision D10,
log 7; the movement of `sp` is D4, log 21; the draw is log 8; the map's hypothesis is 20_memory.md R52,
decision D17; at a device `Stored` says that the model's record holds the write, log 26). -/
def Obligations.PushPswStoresAccumulatorAndFlags : Prop :=
  ∀ s : State, s.Inv → s.admits .write (s.sp - 1#16) → s.admits .write (s.sp - 2#16) →
    (∃ t, exec (.push .psw) s = .next t ∧
      Stored s (s.sp - 1#16) (s.reg .a) t ∧ Stored s (s.sp - 2#16) s.pswByte t ∧
      t.sp = s.sp - 2#16 ∧ t.regs = s.regs ∧ t.flags = s.flags ∧
      SameMemoryBut [s.sp - 1#16, s.sp - 2#16] s t ∧ SameHidden s t ∧
      t.trace = s.trace ∧ t.launch = s.launch ∧ t.draws = s.draws + 1) ∧
    (∀ l, s.launch.pswLayout = l → l.wf = true →
      s.pswByte.getLsbD l.s = s.flags.s ∧ s.pswByte.getLsbD l.z = s.flags.z ∧
      s.pswByte.getLsbD l.ac = s.flags.ac ∧ s.pswByte.getLsbD l.p = s.flags.p ∧
      s.pswByte.getLsbD l.cy = s.flags.cy ∧
      ∀ k : Fin 8, k ∉ [l.s, l.z, l.ac, l.p, l.cy] →
        s.pswByte.getLsbD k = (Config.pswSpare s.draws).getLsbD k) ∧
    (s.launch.pswLayout = Config.recommendedPswLayout →
      s.pswByte.getLsbD 7 = s.flags.s ∧ s.pswByte.getLsbD 6 = s.flags.z ∧
      s.pswByte.getLsbD 4 = s.flags.ac ∧ s.pswByte.getLsbD 2 = s.flags.p ∧
      s.pswByte.getLsbD 0 = s.flags.cy ∧
      s.pswByte.getLsbD 5 = (Config.pswSpare s.draws).getLsbD 5 ∧
      s.pswByte.getLsbD 3 = (Config.pswSpare s.draws).getLsbD 3 ∧
      s.pswByte.getLsbD 1 = (Config.pswSpare s.draws).getLsbD 1)

/-- POP of BC, DE and HL loads the low register from `sp`, then the high one from `sp + 1`, raises `sp` by 2,
and writes no flag; POP PSW loads A and all five flags, from the bits the launch's `PSW_LAYOUT` names, 7, 6,
4, 2, 0 under the recommended layout (45_stack.md R150, conflict C3; the second increment is decision D4, log
21; the layout D10, log 7; the map's hypothesis is 20_memory.md R52, decision D17; a device's byte is a free
value, log 26). -/
def Obligations.PopLoadsPair : Prop :=
  ∀ s : State, s.admits .read s.sp → s.admits .read (s.sp + 1#16) →
    ∀ lowByte highByte, lowByte = s.byteAt .read s.sp →
      highByte = (s.afterRead .read s.sp).byteAt .read (s.sp + 1#16) →
    (∀ p hi lo, (p, hi, lo) ∈ [(RegPair.bc, Reg.b, Reg.c), (.de, .d, .e), (.hl, .h, .l)] →
      ∃ t, exec (.pop p) s = .next t ∧ t.reg lo = lowByte ∧ t.reg hi = highByte ∧
        t.sp = s.sp + 2#16 ∧ t.flags = s.flags ∧ Frame [hi, lo] [] s t) ∧
    (∃ t, exec (.pop .psw) s = .next t ∧ t.reg .a = highByte ∧
      (∀ l, s.launch.pswLayout = l →
        t.flags.s = lowByte.getLsbD l.s ∧ t.flags.z = lowByte.getLsbD l.z ∧
        t.flags.ac = lowByte.getLsbD l.ac ∧ t.flags.p = lowByte.getLsbD l.p ∧
        t.flags.cy = lowByte.getLsbD l.cy) ∧
      (s.launch.pswLayout = Config.recommendedPswLayout →
        t.flags.s = lowByte.getLsbD 7 ∧ t.flags.z = lowByte.getLsbD 6 ∧
        t.flags.ac = lowByte.getLsbD 4 ∧ t.flags.p = lowByte.getLsbD 2 ∧
        t.flags.cy = lowByte.getLsbD 0) ∧
      t.sp = s.sp + 2#16 ∧ Frame [.a] [] s t)

/-- In plain storage, PUSH then POP of the same pair, PSW included and whatever its drawn bits and its
layout, restores every register, every flag and `sp` (95_test_vectors.md V-I (a), (b); 45_stack.md R151,
decision D4). -/
def Obligations.PushThenPopRestores : Prop :=
  ∀ (p : RegPair) (s : State), p.admittedByStack = true → s.Inv →
    (p = .psw → s.launch.pswLayout.wf = true) →
    s.IsRam (s.sp - 1#16) → s.IsRam (s.sp - 2#16) →
    ∃ t, execAll [.push p, .pop p] s = .next t ∧
      t.regs = s.regs ∧ t.flags = s.flags ∧ t.sp = s.sp ∧ t.pc = s.pc + 2#16 ∧
      SameMemoryBut [s.sp - 1#16, s.sp - 2#16] s t

/-- In plain storage, SHLD then LHLD of the same address leaves H and L as they were
(95_test_vectors.md V-I (d); 41_load_store_16.md R112, R114). -/
def Obligations.ShldThenLhldRestoresHl : Prop :=
  ∀ (addr : Word) (s : State), s.Inv → s.IsRam addr → s.IsRam (addr + 1#16) →
    ∃ t, execAll [.shld addr, .lhld addr] s = .next t ∧
      t.regs = s.regs ∧ t.flags = s.flags ∧ t.sp = s.sp

/-- A data access the map does not let through is refused: the one byte of LDA, LDAX, MOV Rd,M, MOV M,Rs,
MVI M, ORA M, SBB M; and in a two-byte transfer in the order of its accesses, LHLD, SHLD, POP, RET and the
eight taken conditional returns the lower address first, PUSH and RST n the higher (20_memory.md R52, R56, R67,
60_exceptions.md R206, decision D25; that the map refuses is D17). -/
def Obligations.DataRefusalsComeInAccessOrder : Prop :=
  ∀ (s : State) (r : Refusal) (addr : Word) (p : RegPair) (n : BitVec 3), p.admittedByStack = true →
    (mapRefusal s.launch.memMap .read addr = some r →
      exec (.lda addr) s = .refused r ∧ exec (.lhld addr) s = .refused r) ∧
    (s.admits .read addr → mapRefusal s.launch.memMap .read (addr + 1#16) = some r →
      exec (.lhld addr) s = .refused r) ∧
    (mapRefusal s.launch.memMap .write addr = some r → exec (.shld addr) s = .refused r) ∧
    (s.admits .write addr → mapRefusal s.launch.memMap .write (addr + 1#16) = some r →
      exec (.shld addr) s = .refused r) ∧
    (mapRefusal s.launch.memMap .read s.bc = some r → exec (.ldax .bc) s = .refused r) ∧
    (mapRefusal s.launch.memMap .read s.de = some r → exec (.ldax .de) s = .refused r) ∧
    (mapRefusal s.launch.memMap .read s.hl = some r →
      (∀ rd, exec (.movRM rd) s = .refused r) ∧ exec .oraM s = .refused r ∧ exec .sbbM s = .refused r) ∧
    (mapRefusal s.launch.memMap .write s.hl = some r →
      (∀ rs, exec (.movMR rs) s = .refused r) ∧ ∀ v, exec (.mviM v) s = .refused r) ∧
    (mapRefusal s.launch.memMap .read s.sp = some r →
      exec (.pop p) s = .refused r ∧ exec .ret s = .refused r ∧
      ∀ i cc, returnCond i = some cc → s.flags.holds cc = true → exec i s = .refused r) ∧
    (s.admits .read s.sp → mapRefusal s.launch.memMap .read (s.sp + 1#16) = some r →
      exec (.pop p) s = .refused r ∧ exec .ret s = .refused r ∧
      ∀ i cc, returnCond i = some cc → s.flags.holds cc = true → exec i s = .refused r) ∧
    (mapRefusal s.launch.memMap .write (s.sp - 1#16) = some r →
      exec (.push p) s = .refused r ∧ exec (.rst n) s = .refused r) ∧
    (s.admits .write (s.sp - 1#16) → mapRefusal s.launch.memMap .write (s.sp - 2#16) = some r →
      exec (.push p) s = .refused r ∧ exec (.rst n) s = .refused r)

/-! ### Returns and restart -/

/-- RET loads `pc` from the two bytes at the top of the stack, the low half first, and raises `sp` by 2;
nothing else changes (46_return_restart.md R160, R169; byte order and `sp` are decision D5, log 21; the map's
hypothesis is 20_memory.md R52, decision D17; a device's byte is a free value, log 26). -/
def Obligations.RetLoadsPcFromStack : Prop :=
  ∀ s : State, s.admits .read s.sp → s.admits .read (s.sp + 1#16) →
    ∃ t, exec .ret s = .next t ∧
      lo8 t.pc = s.byteAt .read s.sp ∧ hi8 t.pc = (s.afterRead .read s.sp).byteAt .read (s.sp + 1#16) ∧
      t.sp = s.sp + 2#16 ∧ t.flags = s.flags ∧ Frame [] [] s t

/-- Each of the eight conditional returns is a RET when its condition holds, from plain storage with `pc` and
`sp` alone changed; when it does not hold, only `pc` moves, to the next byte, and the stack is not read
(46_return_restart.md R161 to R168; decisions D2, D5; the map's hypothesis is 20_memory.md R52, decision D17;
a device's byte is a free value, log 26). -/
def Obligations.ConditionalReturnsFollowTheirFlag : Prop :=
  ∀ (i : Instr) (cond : Bool) (s : State),
    (i, cond) ∈ [(Instr.rnz, !s.flags.z), (.rz, s.flags.z), (.rnc, !s.flags.cy), (.rc, s.flags.cy),
      (.rpo, !s.flags.p), (.rpe, s.flags.p), (.rp, !s.flags.s), (.rm, s.flags.s)] →
    (cond = true → s.admits .read s.sp → s.admits .read (s.sp + 1#16) →
      exec i s = exec .ret s ∧
      exec i s = .next { s.afterReadWord s.sp with pc := s.wordAt s.sp, sp := s.sp + 2#16 } ∧
      (s.isDevice s.sp = false → s.isDevice (s.sp + 1#16) = false →
        exec i s = .next { s with
          pc := concat (s.mem.read (s.sp + 1#16)) (s.mem.read s.sp), sp := s.sp + 2#16 })) ∧
    (cond = false → exec i s = .next { s with pc := s.pc + 1#16 })

/-- RST n stores the address of the next instruction below `sp`, high byte first, lowers `sp` by 2 and goes to
`8 * n`; no register, flag or mask changes (46_return_restart.md R170, 60_exceptions.md R207; what "like a
call" stores is decision D6, log 21; the map's hypothesis is 20_memory.md R52, decision D17; at a device
`Stored` says that the model's record holds the write, log 26). -/
def Obligations.RstSavesNextAddressAndRestarts : Prop :=
  ∀ (n : BitVec 3) (s : State), s.Inv → s.admits .write (s.sp - 1#16) → s.admits .write (s.sp - 2#16) →
    ∃ t, exec (.rst n) s = .next t ∧
      t.pc.toNat = 8 * n.toNat ∧
      Stored s (s.sp - 1#16) (hi8 (s.pc + 1#16)) t ∧ Stored s (s.sp - 2#16) (lo8 (s.pc + 1#16)) t ∧
      t.sp = s.sp - 2#16 ∧ t.flags = s.flags ∧ Frame [] [s.sp - 1#16, s.sp - 2#16] s t

/-- In plain storage, RST n then RET comes back to the byte after the RST, with `sp`, every register and
every flag as they were (95_test_vectors.md V-I (c); decisions D5, D6). -/
def Obligations.RstThenRetComesBack : Prop :=
  ∀ (n : BitVec 3) (s : State), s.Inv → s.IsRam (s.sp - 1#16) → s.IsRam (s.sp - 2#16) →
    ∃ t, execAll [.rst n, .ret] s = .next t ∧
      t.pc = s.pc + 1#16 ∧ t.sp = s.sp ∧ t.regs = s.regs ∧ t.flags = s.flags

/-! ### Subtract with borrow -/

/-- SBB R, SBB M and SBI leave `A - operand - CY` modulo 256 in A, CY set exactly on a borrow, Z, S, P from
the result, AC by the launch's `AC_SUB` (47_subtract.md R180 to R183; decisions D7, D8, D9, logs 6 and 22; the
map's hypothesis is 20_memory.md R52, decision D17; a device's byte is a free value, log 26). -/
def Obligations.SubtractInstructionsSetResultAndFlags : Prop :=
  ∀ s : State,
    (∀ r : Reg, ∃ t, exec (.sbbR r) s = .next t ∧ SbbEffect s (s.reg r) t) ∧
    (s.admits .read s.hl → ∃ t, exec .sbbM s = .next t ∧ SbbEffect s (s.byteAt .read s.hl) t) ∧
    (∀ v : Byte, ∃ t, exec (.sbi v) s = .next t ∧ SbbEffect s v t)

/-- SBB A spreads the carry over the whole of A: 00h with CY clear, FFh with CY set, and CY stays
(47_subtract.md R181, corner cases; decision D7). -/
def Obligations.SbbASpreadsCarry : Prop :=
  ∀ s : State, ∃ t, exec (.sbbR .a) s = .next t ∧
    t.reg .a = (if s.flags.cy then 0xFF#8 else 0x00#8) ∧ t.flags.cy = s.flags.cy ∧
    t.flags.z = !s.flags.cy ∧ t.flags.s = s.flags.cy ∧ t.flags.p = true

/-! ### Runs -/

/-- A run to `END_PC` is over where `pc` is `END_PC`, at once if it starts there, without fetching; a run
that is over stays over with more steps allowed; and from anywhere else a run takes one step and goes on from
the state it leaves, or ends in the refusal the step meets (70_reset_and_hazards.md R234, decision D22, log
16). -/
def Obligations.RunsEndAtEndPc : Prop :=
  ∀ (endPc : Word) (n : Nat) (s : State),
    (s.pc = endPc → runTo endPc n s = .over s) ∧
    (∀ t, runTo endPc n s = .over t → t.pc = endPc ∧ ∀ m, runTo endPc (n + m) s = .over t) ∧
    (s.pc ≠ endPc →
      runTo endPc 0 s = .running s ∧
      (∀ t, step s = .next t → runTo endPc (n + 1) s = runTo endPc n t) ∧
      (∀ r, step s = .refused r → runTo endPc (n + 1) s = .refused r))

/-! ### Accesses and the map -/

/-- Each data access of an instruction is performed once, in the order of R67, and nothing else is: memory
and the record of device accesses are what performing the list of the instruction's accesses leaves
(20_memory.md R51, R57, R59, R67; the record is the model's, log 26). -/
def Obligations.AccessesArePerformedOnceInOrder : Prop :=
  ∀ (i : Instr) (s t : State), exec i s = .next t →
    t.mem = (s.perform (dataAccesses s i)).mem ∧ t.bus = (s.perform (dataAccesses s i)).bus

/-- An instruction stops exactly at the first of its data accesses that the map does not admit, and where
the map admits them all it goes on (20_memory.md R52, R67, 60_exceptions.md R200, R206; decisions D17, D25). -/
def Obligations.InstructionStopsAtFirstUnadmittedAccess : Prop :=
  ∀ (i : Instr) (s : State), i.wellFormed = true →
    (∀ r, firstRefusal s.launch.memMap (dataAccesses s i) = some r → exec i s = .refused r) ∧
    (firstRefusal s.launch.memMap (dataAccesses s i) = none → ∃ t, exec i s = .next t)

/-- What the accesses above mean: plain storage reads what was last written there and no read of it leaves
a mark; a device's read leaves one event, and so does a write, which leaves memory alone (20_memory.md R52,
R54, R59; the record is the model's, log 26). -/
def Obligations.PlainStorageReadsAsStored : Prop :=
  ∀ (s : State) (k : AccessKind) (x : Word) (v : Byte),
    (s.isDevice x = false →
      s.byteAt k x = s.mem.read x ∧ s.afterRead k x = s ∧
      (s.Inv → (s.afterWrite x v).byteAt k x = v ∧
        ∀ y, y ≠ x → (s.afterWrite x v).mem.read y = s.mem.read y)) ∧
    (s.isDevice x = true →
      s.afterRead k x = { s with bus := s.bus ++ [.access k x (s.byteAt k x)] } ∧
      s.afterWrite x v = { s with bus := s.bus ++ [.access .write x v] }) ∧
    (s.isDevice x = false → s.isDevice (x + 1#16) = false →
      s.wordAt x = concat (s.mem.read (x + 1#16)) (s.mem.read x) ∧ s.afterReadWord x = s)
end

