-- ==== Sys2Proof/Laws/Memory.lean ====
section
/-! SUPPORT. The laws of memory as data: what a location reads after a write, and that every operation
keeps the canonical form (20_memory.md R52; log 4). -/

namespace Sys2Proof.Machine

theorem Memory.wfFrom_mono {m : Memory} {lo lo' : Nat} (h : lo' ≤ lo) (hw : m.wfFrom lo = true) :
    m.wfFrom lo' = true := by
  cases m with
  | nil => rfl
  | cons c rest =>
    obtain ⟨a, v⟩ := c
    simp only [Memory.wfFrom, Bool.and_eq_true, decide_eq_true_eq] at hw ⊢
    exact ⟨⟨⟨le_trans h hw.1.1.1, hw.1.1.2⟩, hw.1.2⟩, hw.2⟩

/-- Below its first address a canonical memory lists nothing. -/
theorem Memory.lookup_below {m : Memory} {lo k : Nat} (hw : m.wfFrom lo = true) (hk : k < lo) :
    m.lookup k = Config.unlistedByte := by
  induction m generalizing lo with
  | nil => rfl
  | cons c rest ih =>
    obtain ⟨a, v⟩ := c
    simp only [Memory.wfFrom, Bool.and_eq_true, decide_eq_true_eq] at hw
    have hne : a ≠ k := by omega
    simp only [Memory.lookup, if_neg hne]
    exact ih hw.2 (by omega)

/-- A write leaves every other location alone, whatever the memory's form. -/
theorem Memory.lookup_insert_ne {m : Memory} {k j : Nat} (v : Byte) (h : j ≠ k) :
    (m.insert k v).lookup j = m.lookup j := by
  induction m with
  | nil =>
    simp only [Memory.insert]
    split
    · rfl
    · simp only [Memory.lookup, if_neg (Ne.symm h)]
  | cons c rest ih =>
    obtain ⟨a, w⟩ := c
    have hk : k ≠ j := Ne.symm h
    simp only [Memory.insert]
    split
    · split
      · rfl
      · simp only [Memory.lookup, if_neg hk]
    · split
      · next _ hka =>
        subst hka
        split
        · simp only [Memory.lookup, if_neg hk]
        · simp only [Memory.lookup, if_neg hk]
      · simp only [Memory.lookup, ih]

/-- A location reads what was last written there. -/
theorem Memory.lookup_insert_self {m : Memory} {lo k : Nat} (v : Byte) (hw : m.wfFrom lo = true) :
    (m.insert k v).lookup k = v := by
  induction m generalizing lo with
  | nil =>
    simp only [Memory.insert]
    split
    · next h => rw [h]; rfl
    · simp [Memory.lookup]
  | cons c rest ih =>
    obtain ⟨a, w⟩ := c
    have hw' := hw
    simp only [Memory.wfFrom, Bool.and_eq_true, decide_eq_true_eq] at hw
    simp only [Memory.insert]
    split
    · next hka =>
      split
      · next hv =>
        have : Memory.wfFrom a ((a, w) :: rest) = true := by
          simp only [Memory.wfFrom, Bool.and_eq_true, decide_eq_true_eq]
          exact ⟨⟨⟨le_refl a, hw.1.1.2⟩, hw.1.2⟩, hw.2⟩
        rw [Memory.lookup_below this hka, hv]
      · simp [Memory.lookup]
    · split
      · next _ hka =>
        subst hka
        split
        · next hv => rw [Memory.lookup_below hw.2 (Nat.lt_succ_self k), hv]
        · simp [Memory.lookup]
      · next _ hka =>
        simp only [Memory.lookup, if_neg (Ne.symm hka)]
        exact ih hw.2

theorem Memory.insert_wfFrom {m : Memory} {lo k : Nat} (v : Byte) (hw : m.wfFrom lo = true)
    (hlo : lo ≤ k) (hk : k < 65536) : (m.insert k v).wfFrom lo = true := by
  induction m generalizing lo with
  | nil =>
    simp only [Memory.insert]
    split
    · rfl
    · next h => simp [Memory.wfFrom, hlo, hk, h]
  | cons c rest ih =>
    obtain ⟨a, w⟩ := c
    have hw' := hw
    simp only [Memory.wfFrom, Bool.and_eq_true, decide_eq_true_eq] at hw
    simp only [Memory.insert]
    split
    · next hka =>
      split
      · exact hw'
      · next hv =>
        simp only [Memory.wfFrom, Bool.and_eq_true, decide_eq_true_eq]
        exact ⟨⟨⟨hlo, hk⟩, hv⟩, ⟨⟨Nat.succ_le_of_lt hka, hw.1.1.2⟩, hw.1.2⟩, hw.2⟩
    · split
      · next _ hka =>
        subst hka
        split
        · exact Memory.wfFrom_mono (Nat.le_succ_of_le hlo) hw.2
        · next hv =>
          simp only [Memory.wfFrom, Bool.and_eq_true, decide_eq_true_eq]
          exact ⟨⟨⟨hlo, hk⟩, hv⟩, hw.2⟩
      · next h1 h2 =>
        simp only [Memory.wfFrom, Bool.and_eq_true, decide_eq_true_eq]
        exact ⟨hw.1, ih hw.2 (by omega)⟩

/-- Every write keeps the canonical form. -/
theorem Memory.write_wf {m : Memory} (addr : Word) (v : Byte) (hw : m.wf = true) :
    (m.write addr v).wf = true :=
  Memory.insert_wfFrom v hw (Nat.zero_le _) addr.isLt

/-- A location reads what was last written there (20_memory.md R52). -/
theorem Memory.read_write_self {m : Memory} (addr : Word) (v : Byte) (hw : m.wf = true) :
    (m.write addr v).read addr = v := Memory.lookup_insert_self v hw

/-- A write leaves every other location alone. -/
theorem Memory.read_write_ne {m : Memory} {addr x : Word} (v : Byte) (h : x ≠ addr) :
    (m.write addr v).read x = m.read x :=
  Memory.lookup_insert_ne v (fun e => h (BitVec.eq_of_toNat_eq e))

theorem Memory.read_write {m : Memory} (addr x : Word) (v : Byte) (hw : m.wf = true) :
    (m.write addr v).read x = if x = addr then v else m.read x := by
  split
  · next h => rw [h, Memory.read_write_self addr v hw]
  · next h => exact Memory.read_write_ne v h

/-- Two canonical memories that read alike are the same data. -/
theorem Memory.eq_of_lookup {m n : Memory} {lo : Nat} (hm : m.wfFrom lo = true) (hn : n.wfFrom lo = true)
    (h : ∀ k, m.lookup k = n.lookup k) : m = n := by
  induction m generalizing n lo with
  | nil =>
    cases n with
    | nil => rfl
    | cons c rest =>
      obtain ⟨a, v⟩ := c
      simp only [Memory.wfFrom, Bool.and_eq_true, decide_eq_true_eq] at hn
      have := h a
      simp [Memory.lookup] at this
      exact absurd this.symm hn.1.2
  | cons c rest ih =>
    obtain ⟨a, v⟩ := c
    have hm' := hm
    simp only [Memory.wfFrom, Bool.and_eq_true, decide_eq_true_eq] at hm
    cases n with
    | nil =>
      have := h a
      simp [Memory.lookup] at this
      exact absurd this hm.1.2
    | cons c2 rest2 =>
      obtain ⟨b, w⟩ := c2
      have hn' := hn
      simp only [Memory.wfFrom, Bool.and_eq_true, decide_eq_true_eq] at hn
      have ha := h a
      have hb := h b
      simp only [Memory.lookup, if_true] at ha hb
      have hab : a = b := by
        rcases Nat.lt_trichotomy a b with hlt | heq | hgt
        · rw [if_neg (by omega), Memory.lookup_below hn.2 (by omega)] at ha
          exact absurd ha hm.1.2
        · exact heq
        · rw [if_neg (by omega), Memory.lookup_below hm.2 (by omega)] at hb
          exact absurd hb.symm hn.1.2
      subst hab
      rw [if_pos rfl] at ha
      subst ha
      have hrest : rest = rest2 := by
        apply ih hm.2 hn.2
        intro k
        by_cases hk : a = k
        · subst hk
          rw [Memory.lookup_below hm.2 (Nat.lt_succ_self a), Memory.lookup_below hn.2 (Nat.lt_succ_self a)]
        · have := h k
          simpa only [Memory.lookup, if_neg hk] using this
      rw [hrest]

/-- Memory with nothing listed, as reset leaves it, is canonical (log 4). -/
theorem Memory.wf_nil : Memory.wf [] = true := rfl

end Sys2Proof.Machine
end

