-- ==== Sys2Proof/Laws/State.lean ====
section
/-! SUPPORT. The small lemmas of State's updates: one per field per update, true by `rfl`, so that no
proof unfolds a record update; and what the register file reads after a write. -/

namespace Sys2Proof.Machine

variable (s : State)

/-! ### setReg -/

@[simp] theorem State.setReg_regs (r : Reg) (v : Byte) : (s.setReg r v).regs = s.regs.set r v := rfl

@[simp] theorem State.setReg_flags (r : Reg) (v : Byte) : (s.setReg r v).flags = s.flags := rfl

@[simp] theorem State.setReg_sp (r : Reg) (v : Byte) : (s.setReg r v).sp = s.sp := rfl

@[simp] theorem State.setReg_pc (r : Reg) (v : Byte) : (s.setReg r v).pc = s.pc := rfl

@[simp] theorem State.setReg_mem (r : Reg) (v : Byte) : (s.setReg r v).mem = s.mem := rfl

@[simp] theorem State.setReg_imask (r : Reg) (v : Byte) : (s.setReg r v).imask = s.imask := rfl

@[simp] theorem State.setReg_sod (r : Reg) (v : Byte) : (s.setReg r v).sod = s.sod := rfl

@[simp] theorem State.setReg_r75 (r : Reg) (v : Byte) : (s.setReg r v).r75 = s.r75 := rfl

@[simp] theorem State.setReg_ie (r : Reg) (v : Byte) : (s.setReg r v).ie = s.ie := rfl

@[simp] theorem State.setReg_sid (r : Reg) (v : Byte) : (s.setReg r v).sid = s.sid := rfl

@[simp] theorem State.setReg_trace (r : Reg) (v : Byte) : (s.setReg r v).trace = s.trace := rfl

@[simp] theorem State.setReg_draws (r : Reg) (v : Byte) : (s.setReg r v).draws = s.draws := rfl

@[simp] theorem State.setReg_bus (r : Reg) (v : Byte) : (s.setReg r v).bus = s.bus := rfl

@[simp] theorem State.setReg_launch (r : Reg) (v : Byte) : (s.setReg r v).launch = s.launch := rfl

/-! ### setFlags -/

@[simp] theorem State.setFlags_regs (f : Flags) : (s.setFlags f).regs = s.regs := rfl

@[simp] theorem State.setFlags_flags (f : Flags) : (s.setFlags f).flags = f := rfl

@[simp] theorem State.setFlags_sp (f : Flags) : (s.setFlags f).sp = s.sp := rfl

@[simp] theorem State.setFlags_pc (f : Flags) : (s.setFlags f).pc = s.pc := rfl

@[simp] theorem State.setFlags_mem (f : Flags) : (s.setFlags f).mem = s.mem := rfl

@[simp] theorem State.setFlags_imask (f : Flags) : (s.setFlags f).imask = s.imask := rfl

@[simp] theorem State.setFlags_sod (f : Flags) : (s.setFlags f).sod = s.sod := rfl

@[simp] theorem State.setFlags_r75 (f : Flags) : (s.setFlags f).r75 = s.r75 := rfl

@[simp] theorem State.setFlags_ie (f : Flags) : (s.setFlags f).ie = s.ie := rfl

@[simp] theorem State.setFlags_sid (f : Flags) : (s.setFlags f).sid = s.sid := rfl

@[simp] theorem State.setFlags_trace (f : Flags) : (s.setFlags f).trace = s.trace := rfl

@[simp] theorem State.setFlags_draws (f : Flags) : (s.setFlags f).draws = s.draws := rfl

@[simp] theorem State.setFlags_bus (f : Flags) : (s.setFlags f).bus = s.bus := rfl

@[simp] theorem State.setFlags_launch (f : Flags) : (s.setFlags f).launch = s.launch := rfl

/-! ### setSp -/

@[simp] theorem State.setSp_regs (w : Word) : (s.setSp w).regs = s.regs := rfl

@[simp] theorem State.setSp_flags (w : Word) : (s.setSp w).flags = s.flags := rfl

@[simp] theorem State.setSp_sp (w : Word) : (s.setSp w).sp = w := rfl

@[simp] theorem State.setSp_pc (w : Word) : (s.setSp w).pc = s.pc := rfl

@[simp] theorem State.setSp_mem (w : Word) : (s.setSp w).mem = s.mem := rfl

@[simp] theorem State.setSp_imask (w : Word) : (s.setSp w).imask = s.imask := rfl

@[simp] theorem State.setSp_sod (w : Word) : (s.setSp w).sod = s.sod := rfl

@[simp] theorem State.setSp_r75 (w : Word) : (s.setSp w).r75 = s.r75 := rfl

@[simp] theorem State.setSp_ie (w : Word) : (s.setSp w).ie = s.ie := rfl

@[simp] theorem State.setSp_sid (w : Word) : (s.setSp w).sid = s.sid := rfl

@[simp] theorem State.setSp_trace (w : Word) : (s.setSp w).trace = s.trace := rfl

@[simp] theorem State.setSp_draws (w : Word) : (s.setSp w).draws = s.draws := rfl

@[simp] theorem State.setSp_bus (w : Word) : (s.setSp w).bus = s.bus := rfl

@[simp] theorem State.setSp_launch (w : Word) : (s.setSp w).launch = s.launch := rfl

/-! ### goto -/

@[simp] theorem State.goto_regs (w : Word) : (s.goto w).regs = s.regs := rfl

@[simp] theorem State.goto_flags (w : Word) : (s.goto w).flags = s.flags := rfl

@[simp] theorem State.goto_sp (w : Word) : (s.goto w).sp = s.sp := rfl

@[simp] theorem State.goto_pc (w : Word) : (s.goto w).pc = w := rfl

@[simp] theorem State.goto_mem (w : Word) : (s.goto w).mem = s.mem := rfl

@[simp] theorem State.goto_imask (w : Word) : (s.goto w).imask = s.imask := rfl

@[simp] theorem State.goto_sod (w : Word) : (s.goto w).sod = s.sod := rfl

@[simp] theorem State.goto_r75 (w : Word) : (s.goto w).r75 = s.r75 := rfl

@[simp] theorem State.goto_ie (w : Word) : (s.goto w).ie = s.ie := rfl

@[simp] theorem State.goto_sid (w : Word) : (s.goto w).sid = s.sid := rfl

@[simp] theorem State.goto_trace (w : Word) : (s.goto w).trace = s.trace := rfl

@[simp] theorem State.goto_draws (w : Word) : (s.goto w).draws = s.draws := rfl

@[simp] theorem State.goto_bus (w : Word) : (s.goto w).bus = s.bus := rfl

@[simp] theorem State.goto_launch (w : Word) : (s.goto w).launch = s.launch := rfl

/-! ### advance -/

@[simp] theorem State.advance_regs (n : Nat) : (s.advance n).regs = s.regs := rfl

@[simp] theorem State.advance_flags (n : Nat) : (s.advance n).flags = s.flags := rfl

@[simp] theorem State.advance_sp (n : Nat) : (s.advance n).sp = s.sp := rfl

@[simp] theorem State.advance_pc (n : Nat) : (s.advance n).pc = s.npc n := rfl

@[simp] theorem State.advance_mem (n : Nat) : (s.advance n).mem = s.mem := rfl

@[simp] theorem State.advance_imask (n : Nat) : (s.advance n).imask = s.imask := rfl

@[simp] theorem State.advance_sod (n : Nat) : (s.advance n).sod = s.sod := rfl

@[simp] theorem State.advance_r75 (n : Nat) : (s.advance n).r75 = s.r75 := rfl

@[simp] theorem State.advance_ie (n : Nat) : (s.advance n).ie = s.ie := rfl

@[simp] theorem State.advance_sid (n : Nat) : (s.advance n).sid = s.sid := rfl

@[simp] theorem State.advance_trace (n : Nat) : (s.advance n).trace = s.trace := rfl

@[simp] theorem State.advance_draws (n : Nat) : (s.advance n).draws = s.draws := rfl

@[simp] theorem State.advance_bus (n : Nat) : (s.advance n).bus = s.bus := rfl

@[simp] theorem State.advance_launch (n : Nat) : (s.advance n).launch = s.launch := rfl

/-! ### emit -/

@[simp] theorem State.emit_regs (ev : TraceEvent) : (s.emit ev).regs = s.regs := rfl

@[simp] theorem State.emit_flags (ev : TraceEvent) : (s.emit ev).flags = s.flags := rfl

@[simp] theorem State.emit_sp (ev : TraceEvent) : (s.emit ev).sp = s.sp := rfl

@[simp] theorem State.emit_pc (ev : TraceEvent) : (s.emit ev).pc = s.pc := rfl

@[simp] theorem State.emit_mem (ev : TraceEvent) : (s.emit ev).mem = s.mem := rfl

@[simp] theorem State.emit_imask (ev : TraceEvent) : (s.emit ev).imask = s.imask := rfl

@[simp] theorem State.emit_sod (ev : TraceEvent) : (s.emit ev).sod = s.sod := rfl

@[simp] theorem State.emit_r75 (ev : TraceEvent) : (s.emit ev).r75 = s.r75 := rfl

@[simp] theorem State.emit_ie (ev : TraceEvent) : (s.emit ev).ie = s.ie := rfl

@[simp] theorem State.emit_sid (ev : TraceEvent) : (s.emit ev).sid = s.sid := rfl

@[simp] theorem State.emit_trace (ev : TraceEvent) : (s.emit ev).trace = s.trace ++ [ev] := rfl

@[simp] theorem State.emit_draws (ev : TraceEvent) : (s.emit ev).draws = s.draws := rfl

@[simp] theorem State.emit_bus (ev : TraceEvent) : (s.emit ev).bus = s.bus := rfl

@[simp] theorem State.emit_launch (ev : TraceEvent) : (s.emit ev).launch = s.launch := rfl

/-! ### countDraw -/

@[simp] theorem State.countDraw_regs : (s.countDraw).regs = s.regs := rfl

@[simp] theorem State.countDraw_flags : (s.countDraw).flags = s.flags := rfl

@[simp] theorem State.countDraw_sp : (s.countDraw).sp = s.sp := rfl

@[simp] theorem State.countDraw_pc : (s.countDraw).pc = s.pc := rfl

@[simp] theorem State.countDraw_mem : (s.countDraw).mem = s.mem := rfl

@[simp] theorem State.countDraw_imask : (s.countDraw).imask = s.imask := rfl

@[simp] theorem State.countDraw_sod : (s.countDraw).sod = s.sod := rfl

@[simp] theorem State.countDraw_r75 : (s.countDraw).r75 = s.r75 := rfl

@[simp] theorem State.countDraw_ie : (s.countDraw).ie = s.ie := rfl

@[simp] theorem State.countDraw_sid : (s.countDraw).sid = s.sid := rfl

@[simp] theorem State.countDraw_trace : (s.countDraw).trace = s.trace := rfl

@[simp] theorem State.countDraw_draws : (s.countDraw).draws = s.draws + 1 := rfl

@[simp] theorem State.countDraw_bus : (s.countDraw).bus = s.bus := rfl

@[simp] theorem State.countDraw_launch : (s.countDraw).launch = s.launch := rfl

/-! ### Registers -/

@[simp] theorem Regs.get_set_self (g : Regs) (r : Reg) (v : Byte) : (g.set r v).get r = v := by
  cases r <;> rfl

theorem Regs.get_set_ne (g : Regs) {r q : Reg} (v : Byte) (h : q ≠ r) : (g.set r v).get q = g.get q := by
  cases r <;> cases q <;> first | rfl | exact absurd rfl h

theorem Regs.get_set (g : Regs) (r q : Reg) (v : Byte) :
    (g.set r v).get q = if q = r then v else g.get q := by
  split
  · next h => rw [h, Regs.get_set_self]
  · next h => exact Regs.get_set_ne g v h

theorem Regs.ext_get (g k : Regs) (h : ∀ r, g.get r = k.get r) : g = k := by
  cases g; cases k
  have ha := h .a; have hb := h .b; have hc := h .c; have hd := h .d
  have he := h .e; have hh := h .h; have hl := h .l
  simp only [Regs.get] at ha hb hc hd he hh hl
  simp only [ha, hb, hc, hd, he, hh, hl]

theorem State.reg_setReg (r q : Reg) (v : Byte) :
    (s.setReg r v).reg q = if q = r then v else s.reg q := Regs.get_set s.regs r q v

@[simp] theorem State.reg_setReg_self (r : Reg) (v : Byte) : (s.setReg r v).reg r = v :=
  Regs.get_set_self s.regs r v

theorem State.reg_setReg_ne {r q : Reg} (v : Byte) (h : q ≠ r) : (s.setReg r v).reg q = s.reg q :=
  Regs.get_set_ne s.regs v h

@[simp] theorem State.reg_setFlags (f : Flags) (q : Reg) : (s.setFlags f).reg q = s.reg q := rfl

@[simp] theorem State.reg_setSp (w : Word) (q : Reg) : (s.setSp w).reg q = s.reg q := rfl

@[simp] theorem State.reg_goto (w : Word) (q : Reg) : (s.goto w).reg q = s.reg q := rfl

@[simp] theorem State.reg_advance (n : Nat) (q : Reg) : (s.advance n).reg q = s.reg q := rfl

@[simp] theorem State.reg_emit (ev : TraceEvent) (q : Reg) : (s.emit ev).reg q = s.reg q := rfl

@[simp] theorem State.reg_countDraw (q : Reg) : (s.countDraw).reg q = s.reg q := rfl

@[simp] theorem State.reg_withMem (m : Memory) (q : Reg) : ({ s with mem := m } : State).reg q = s.reg q := rfl

/-! ### Memory and port accesses: a read changes `bus` alone, a write memory or `bus` -/

@[simp] theorem State.afterRead_regs (k : AccessKind) (x : Word) : (s.afterRead k x).regs = s.regs := by
  unfold State.afterRead; split <;> rfl

@[simp] theorem State.afterRead_flags (k : AccessKind) (x : Word) : (s.afterRead k x).flags = s.flags := by
  unfold State.afterRead; split <;> rfl

@[simp] theorem State.afterRead_sp (k : AccessKind) (x : Word) : (s.afterRead k x).sp = s.sp := by
  unfold State.afterRead; split <;> rfl

@[simp] theorem State.afterRead_pc (k : AccessKind) (x : Word) : (s.afterRead k x).pc = s.pc := by
  unfold State.afterRead; split <;> rfl

@[simp] theorem State.afterRead_mem (k : AccessKind) (x : Word) : (s.afterRead k x).mem = s.mem := by
  unfold State.afterRead; split <;> rfl

@[simp] theorem State.afterRead_imask (k : AccessKind) (x : Word) : (s.afterRead k x).imask = s.imask := by
  unfold State.afterRead; split <;> rfl

@[simp] theorem State.afterRead_sod (k : AccessKind) (x : Word) : (s.afterRead k x).sod = s.sod := by
  unfold State.afterRead; split <;> rfl

@[simp] theorem State.afterRead_r75 (k : AccessKind) (x : Word) : (s.afterRead k x).r75 = s.r75 := by
  unfold State.afterRead; split <;> rfl

@[simp] theorem State.afterRead_ie (k : AccessKind) (x : Word) : (s.afterRead k x).ie = s.ie := by
  unfold State.afterRead; split <;> rfl

@[simp] theorem State.afterRead_sid (k : AccessKind) (x : Word) : (s.afterRead k x).sid = s.sid := by
  unfold State.afterRead; split <;> rfl

@[simp] theorem State.afterRead_trace (k : AccessKind) (x : Word) : (s.afterRead k x).trace = s.trace := by
  unfold State.afterRead; split <;> rfl

@[simp] theorem State.afterRead_draws (k : AccessKind) (x : Word) : (s.afterRead k x).draws = s.draws := by
  unfold State.afterRead; split <;> rfl

@[simp] theorem State.afterRead_launch (k : AccessKind) (x : Word) : (s.afterRead k x).launch = s.launch := by
  unfold State.afterRead; split <;> rfl

@[simp] theorem State.afterWrite_regs (x : Word) (v : Byte) : (s.afterWrite x v).regs = s.regs := by
  unfold State.afterWrite; split <;> rfl

@[simp] theorem State.afterWrite_flags (x : Word) (v : Byte) : (s.afterWrite x v).flags = s.flags := by
  unfold State.afterWrite; split <;> rfl

@[simp] theorem State.afterWrite_sp (x : Word) (v : Byte) : (s.afterWrite x v).sp = s.sp := by
  unfold State.afterWrite; split <;> rfl

@[simp] theorem State.afterWrite_pc (x : Word) (v : Byte) : (s.afterWrite x v).pc = s.pc := by
  unfold State.afterWrite; split <;> rfl

@[simp] theorem State.afterWrite_imask (x : Word) (v : Byte) : (s.afterWrite x v).imask = s.imask := by
  unfold State.afterWrite; split <;> rfl

@[simp] theorem State.afterWrite_sod (x : Word) (v : Byte) : (s.afterWrite x v).sod = s.sod := by
  unfold State.afterWrite; split <;> rfl

@[simp] theorem State.afterWrite_r75 (x : Word) (v : Byte) : (s.afterWrite x v).r75 = s.r75 := by
  unfold State.afterWrite; split <;> rfl

@[simp] theorem State.afterWrite_ie (x : Word) (v : Byte) : (s.afterWrite x v).ie = s.ie := by
  unfold State.afterWrite; split <;> rfl

@[simp] theorem State.afterWrite_sid (x : Word) (v : Byte) : (s.afterWrite x v).sid = s.sid := by
  unfold State.afterWrite; split <;> rfl

@[simp] theorem State.afterWrite_trace (x : Word) (v : Byte) : (s.afterWrite x v).trace = s.trace := by
  unfold State.afterWrite; split <;> rfl

@[simp] theorem State.afterWrite_draws (x : Word) (v : Byte) : (s.afterWrite x v).draws = s.draws := by
  unfold State.afterWrite; split <;> rfl

@[simp] theorem State.afterWrite_launch (x : Word) (v : Byte) : (s.afterWrite x v).launch = s.launch := by
  unfold State.afterWrite; split <;> rfl

@[simp] theorem State.afterReadWord_regs (x : Word) : (s.afterReadWord x).regs = s.regs := by
  simp [State.afterReadWord]

@[simp] theorem State.afterReadWord_flags (x : Word) : (s.afterReadWord x).flags = s.flags := by
  simp [State.afterReadWord]

@[simp] theorem State.afterReadWord_sp (x : Word) : (s.afterReadWord x).sp = s.sp := by
  simp [State.afterReadWord]

@[simp] theorem State.afterReadWord_pc (x : Word) : (s.afterReadWord x).pc = s.pc := by
  simp [State.afterReadWord]

@[simp] theorem State.afterReadWord_mem (x : Word) : (s.afterReadWord x).mem = s.mem := by
  simp [State.afterReadWord]

@[simp] theorem State.afterReadWord_imask (x : Word) : (s.afterReadWord x).imask = s.imask := by
  simp [State.afterReadWord]

@[simp] theorem State.afterReadWord_sod (x : Word) : (s.afterReadWord x).sod = s.sod := by
  simp [State.afterReadWord]

@[simp] theorem State.afterReadWord_r75 (x : Word) : (s.afterReadWord x).r75 = s.r75 := by
  simp [State.afterReadWord]

@[simp] theorem State.afterReadWord_ie (x : Word) : (s.afterReadWord x).ie = s.ie := by
  simp [State.afterReadWord]

@[simp] theorem State.afterReadWord_sid (x : Word) : (s.afterReadWord x).sid = s.sid := by
  simp [State.afterReadWord]

@[simp] theorem State.afterReadWord_trace (x : Word) : (s.afterReadWord x).trace = s.trace := by
  simp [State.afterReadWord]

@[simp] theorem State.afterReadWord_draws (x : Word) : (s.afterReadWord x).draws = s.draws := by
  simp [State.afterReadWord]

@[simp] theorem State.afterReadWord_launch (x : Word) : (s.afterReadWord x).launch = s.launch := by
  simp [State.afterReadWord]

@[simp] theorem State.ioWrite_regs (p v : Byte) : (s.ioWrite p v).regs = s.regs := by
  unfold State.ioWrite; split <;> rfl

@[simp] theorem State.ioWrite_flags (p v : Byte) : (s.ioWrite p v).flags = s.flags := by
  unfold State.ioWrite; split <;> rfl

@[simp] theorem State.ioWrite_sp (p v : Byte) : (s.ioWrite p v).sp = s.sp := by
  unfold State.ioWrite; split <;> rfl

@[simp] theorem State.ioWrite_pc (p v : Byte) : (s.ioWrite p v).pc = s.pc := by
  unfold State.ioWrite; split <;> rfl

@[simp] theorem State.ioWrite_mem (p v : Byte) : (s.ioWrite p v).mem = s.mem := by
  unfold State.ioWrite; split <;> rfl

@[simp] theorem State.ioWrite_imask (p v : Byte) : (s.ioWrite p v).imask = s.imask := by
  unfold State.ioWrite; split <;> rfl

@[simp] theorem State.ioWrite_sod (p v : Byte) : (s.ioWrite p v).sod = s.sod := by
  unfold State.ioWrite; split <;> rfl

@[simp] theorem State.ioWrite_r75 (p v : Byte) : (s.ioWrite p v).r75 = s.r75 := by
  unfold State.ioWrite; split <;> rfl

@[simp] theorem State.ioWrite_ie (p v : Byte) : (s.ioWrite p v).ie = s.ie := by
  unfold State.ioWrite; split <;> rfl

@[simp] theorem State.ioWrite_sid (p v : Byte) : (s.ioWrite p v).sid = s.sid := by
  unfold State.ioWrite; split <;> rfl

@[simp] theorem State.ioWrite_draws (p v : Byte) : (s.ioWrite p v).draws = s.draws := by
  unfold State.ioWrite; split <;> rfl

@[simp] theorem State.ioWrite_launch (p v : Byte) : (s.ioWrite p v).launch = s.launch := by
  unfold State.ioWrite; split <;> rfl

theorem State.afterWrite_mem (x : Word) (v : Byte) :
    (s.afterWrite x v).mem = if s.isDevice x then s.mem else s.mem.write x v := by
  unfold State.afterWrite; split <;> rfl

/-- Which locations are devices depends on the launch alone. -/
theorem State.isDevice_congr {s t : State} (h : t.launch = s.launch) (x : Word) :
    t.isDevice x = s.isDevice x := by
  unfold State.isDevice; rw [h]

@[simp] theorem State.isDevice_afterRead (k : AccessKind) (x y : Word) :
    (s.afterRead k x).isDevice y = s.isDevice y := State.isDevice_congr (s.afterRead_launch k x) y

@[simp] theorem State.isDevice_afterWrite (x y : Word) (v : Byte) :
    (s.afterWrite x v).isDevice y = s.isDevice y := State.isDevice_congr (s.afterWrite_launch x v) y

/-- Plain storage: a read returns what memory holds and leaves no mark, a write is a memory write. -/
theorem State.byteAt_plain {s : State} {x : Word} (k : AccessKind) (h : s.isDevice x = false) :
    s.byteAt k x = s.mem.read x := by simp [State.byteAt, h]

theorem State.afterRead_plain {s : State} {x : Word} (k : AccessKind) (h : s.isDevice x = false) :
    s.afterRead k x = s := by simp [State.afterRead, h]

theorem State.afterWrite_plain {s : State} {x : Word} (v : Byte) (h : s.isDevice x = false) :
    s.afterWrite x v = { s with mem := s.mem.write x v } := by simp [State.afterWrite, h]

theorem State.wordAt_plain {s : State} {x : Word} (h : s.isDevice x = false)
    (h1 : s.isDevice (x + 1#16) = false) :
    s.wordAt x = concat (s.mem.read (x + 1#16)) (s.mem.read x) := by
  simp [State.wordAt, State.afterRead_plain, State.byteAt_plain, h, h1]

theorem State.afterReadWord_plain {s : State} {x : Word} (h : s.isDevice x = false)
    (h1 : s.isDevice (x + 1#16) = false) : s.afterReadWord x = s := by
  simp [State.afterReadWord, State.afterRead_plain, h, h1]

/-- Nothing that leaves the launch and the history of accesses alone changes what a device answers. -/
theorem State.byteAt_congr {s t : State} (hl : t.launch = s.launch) (hb : t.bus = s.bus)
    (hm : t.mem = s.mem) (k : AccessKind) (x : Word) : t.byteAt k x = s.byteAt k x := by
  unfold State.byteAt; rw [State.isDevice_congr hl, hl, hb, hm]

@[simp] theorem State.reg_afterRead (k : AccessKind) (x : Word) (q : Reg) : (s.afterRead k x).reg q = s.reg q := by
  simp [State.reg]

@[simp] theorem State.reg_afterWrite (x : Word) (v : Byte) (q : Reg) : (s.afterWrite x v).reg q = s.reg q := by
  simp [State.reg]

@[simp] theorem State.reg_afterReadWord (x : Word) (q : Reg) : (s.afterReadWord x).reg q = s.reg q := by
  simp [State.reg]

@[simp] theorem State.reg_ioWrite (p v : Byte) (q : Reg) : (s.ioWrite p v).reg q = s.reg q := by
  simp [State.reg]

/-! ### Pairs -/

theorem toNat_concat (hi lo : Byte) : (concat hi lo).toNat = hi.toNat * 256 + lo.toNat := by
  have h1 := hi.isLt
  have h2 := lo.isLt
  simp only [concat, BitVec.toNat_add, BitVec.toNat_mul, BitVec.toNat_setWidth, BitVec.toNat_ofNat]
  omega

theorem toNat_hi8 (w : Word) : (hi8 w).toNat = w.toNat / 256 := by
  have h := w.isLt
  simp only [hi8, BitVec.extractLsb'_toNat, Nat.shiftRight_eq_div_pow]
  omega

theorem toNat_lo8 (w : Word) : (lo8 w).toNat = w.toNat % 256 := by
  simp only [lo8, BitVec.extractLsb'_toNat, Nat.shiftRight_eq_div_pow]
  omega

@[simp] theorem hi8_concat (hi lo : Byte) : hi8 (concat hi lo) = hi := by
  have h := lo.isLt
  apply BitVec.eq_of_toNat_eq
  rw [toNat_hi8, toNat_concat]
  omega

@[simp] theorem lo8_concat (hi lo : Byte) : lo8 (concat hi lo) = lo := by
  have h := lo.isLt
  apply BitVec.eq_of_toNat_eq
  rw [toNat_lo8, toNat_concat]
  omega

@[simp] theorem concat_halves (w : Word) : concat (hi8 w) (lo8 w) = w := by
  apply BitVec.eq_of_toNat_eq
  rw [toNat_concat, toNat_hi8, toNat_lo8]
  omega

end Sys2Proof.Machine
end

