-- ==== Sys2Proof/Laws/Ops.lean ====
section
/-! SUPPORT. One lemma per shared operation that says once everything it can do: what it answers where
the map admits its accesses, and, if it answers a state, what that state is. -/

namespace Sys2Proof.Machine

/-! ### Results -/

theorem bind_eq_ok {α β : Type} {x : Except Refusal α} {f : α → Except Refusal β} {t : β} :
    (x >>= f) = .ok t ↔ ∃ a, x = .ok a ∧ f a = .ok t := by
  cases x with
  | ok a =>
    constructor
    · intro h; exact ⟨a, rfl, h⟩
    · rintro ⟨b, hb, hf⟩; cases hb; exact hf
  | error r =>
    constructor
    · intro h; cases h
    · rintro ⟨b, hb, _⟩; cases hb

@[simp] theorem bind_ok {α β : Type} (a : α) (f : α → Except Refusal β) :
    ((Except.ok a : Except Refusal α) >>= f) = f a := rfl

@[simp] theorem bind_error {α β : Type} (r : Refusal) (f : α → Except Refusal β) :
    ((Except.error r : Except Refusal α) >>= f) = .error r := rfl

@[simp] theorem settle_ok (s : State) : settle (.ok s) = .next s := rfl

@[simp] theorem settle_pure (s : State) : settle (pure s) = .next s := rfl

@[simp] theorem settle_error (r : Refusal) : settle (.error r) = .refused r := rfl

theorem settle_eq_next {x : Except Refusal State} {t : State} : settle x = .next t ↔ x = .ok t := by
  cases x <;> simp [settle]

theorem settle_eq_refused {x : Except Refusal State} {r : Refusal} :
    settle x = .refused r ↔ x = .error r := by
  cases x <;> simp [settle]

/-! ### The map -/

/-- The default map is one region that holds every address (20_memory.md R52). -/
theorem regionOf_default (x : Word) : regionOf Config.defaultMemMap x =
    some { base := 0, size := 65536, readable := true, writable := true, plain := true } := by
  have hx := x.isLt
  have : regionCovers { base := 0, size := 65536, readable := true, writable := true, plain := true } x = true := by
    simp only [regionCovers, Bool.and_eq_true, decide_eq_true_eq]
    omega
  simp [regionOf, Config.defaultMemMap, this]

/-- The default map admits every access (20_memory.md R52). -/
theorem mapRefusal_default (k : AccessKind) (x : Word) : mapRefusal Config.defaultMemMap k x = none := by
  cases k <;> simp [mapRefusal, regionOf_default, regionPermits]

/-- The default map has no device (20_memory.md R52). -/
theorem isDevice_default {s : State} (h : s.launch.memMap = Config.defaultMemMap) (x : Word) :
    s.isDevice x = false := by
  simp [State.isDevice, h, regionOf_default]

/-- The only refusal of the map is `UnadmittedAccess` (00_scope.md R13, 20_memory.md R52). -/
theorem mapRefusal_eq_some {m : List Region} {k : AccessKind} {x : Word} {r : Refusal}
    (h : mapRefusal m k x = some r) : r = .unadmittedAccess x k := by
  unfold mapRefusal at h
  split at h
  · exact (Option.some.inj h).symm
  · split at h
    · cases h
    · exact (Option.some.inj h).symm

/-- Whether an access is admitted depends on the launch alone. -/
theorem admits_congr {s t : State} (h : t.launch = s.launch) (k : AccessKind) (x : Word) :
    t.admits k x ↔ s.admits k x := by
  unfold State.admits; rw [h]

/-! ### Byte accesses -/

theorem readByte_admitted {k : AccessKind} {s : State} {x : Word} (h : s.admits k x) :
    readByte k s x = .ok (s.byteAt k x, s.afterRead k x) := by
  unfold State.admits at h
  simp [readByte, h]

theorem readByte_refused {k : AccessKind} {s : State} {x : Word} {r : Refusal}
    (h : mapRefusal s.launch.memMap k x = some r) : readByte k s x = .error r := by
  simp [readByte, h]

theorem readByte_eq_ok {k : AccessKind} {s : State} {x : Word} {p : Byte × State} :
    readByte k s x = .ok p ↔ s.admits k x ∧ p = (s.byteAt k x, s.afterRead k x) := by
  unfold readByte State.admits
  split
  · next r h => simp [h]
  · next h => simp [h, eq_comm]

theorem writeByte_admitted {s : State} {x : Word} (v : Byte) (h : s.admits .write x) :
    writeByte s x v = .ok (s.afterWrite x v) := by
  unfold State.admits at h
  simp [writeByte, h]

theorem writeByte_refused {s : State} {x : Word} (v : Byte) {r : Refusal}
    (h : mapRefusal s.launch.memMap .write x = some r) : writeByte s x v = .error r := by
  simp [writeByte, h]

theorem writeByte_eq_ok {s t : State} {x : Word} {v : Byte} :
    writeByte s x v = .ok t ↔ s.admits .write x ∧ t = s.afterWrite x v := by
  unfold writeByte State.admits
  split
  · next r h => simp [h]
  · next h => simp [h, eq_comm]

/-! ### Word accesses and the stack -/

theorem readWord_eq_ok {s : State} {x : Word} {p : Word × State} :
    readWord s x = .ok p ↔
      (s.admits .read x ∧ s.admits .read (x + 1#16)) ∧ p = (s.wordAt x, s.afterReadWord x) := by
  simp only [readWord, bind_eq_ok, readByte_eq_ok, pure, Except.pure, Except.ok.injEq]
  constructor
  · rintro ⟨_, ⟨h0, rfl⟩, _, ⟨h1, rfl⟩, rfl⟩
    exact ⟨⟨h0, (admits_congr (s.afterRead_launch _ _) _ _).mp h1⟩, rfl⟩
  · rintro ⟨⟨h0, h1⟩, rfl⟩
    exact ⟨_, ⟨h0, rfl⟩, _, ⟨(admits_congr (s.afterRead_launch _ _) _ _).mpr h1, rfl⟩, rfl⟩

theorem writeWord_eq_ok {s t : State} {x w : Word} :
    writeWord s x w = .ok t ↔
      (s.admits .write x ∧ s.admits .write (x + 1#16)) ∧
        t = (s.afterWrite x (lo8 w)).afterWrite (x + 1#16) (hi8 w) := by
  simp only [writeWord, bind_eq_ok, writeByte_eq_ok]
  constructor
  · rintro ⟨_, ⟨h0, rfl⟩, h1, rfl⟩
    exact ⟨⟨h0, (admits_congr (s.afterWrite_launch _ _) _ _).mp h1⟩, rfl⟩
  · rintro ⟨⟨h0, h1⟩, rfl⟩
    exact ⟨_, ⟨h0, rfl⟩, (admits_congr (s.afterWrite_launch _ _) _ _).mpr h1, rfl⟩

/-- The state after both writes of a transfer to the stack, the high half first (20_memory.md R67). -/
def State.afterPush (s : State) (w : Word) : State :=
  ((s.afterWrite (s.sp - 1#16) (hi8 w)).afterWrite (s.sp - 2#16) (lo8 w)).setSp (s.sp - 2#16)

theorem pushWord_eq_ok {s t : State} {w : Word} :
    pushWord s w = .ok t ↔
      (s.admits .write (s.sp - 1#16) ∧ s.admits .write (s.sp - 2#16)) ∧ t = s.afterPush w := by
  simp only [pushWord, bind_eq_ok, writeByte_eq_ok, pure, Except.pure, Except.ok.injEq]
  constructor
  · rintro ⟨_, ⟨h0, rfl⟩, _, ⟨h1, rfl⟩, rfl⟩
    exact ⟨⟨h0, (admits_congr (s.afterWrite_launch _ _) _ _).mp h1⟩, rfl⟩
  · rintro ⟨⟨h0, h1⟩, rfl⟩
    exact ⟨_, ⟨h0, rfl⟩, _, ⟨(admits_congr (s.afterWrite_launch _ _) _ _).mpr h1, rfl⟩, rfl⟩

theorem popWord_eq_ok {s : State} {p : Word × State} :
    popWord s = .ok p ↔
      (s.admits .read s.sp ∧ s.admits .read (s.sp + 1#16)) ∧
        p = (s.wordAt s.sp, (s.afterReadWord s.sp).setSp (s.sp + 2#16)) := by
  simp only [popWord, bind_eq_ok, readWord_eq_ok, pure, Except.pure, Except.ok.injEq]
  constructor
  · rintro ⟨_, ⟨h, rfl⟩, rfl⟩
    exact ⟨h, rfl⟩
  · rintro ⟨h, rfl⟩
    exact ⟨_, ⟨h, rfl⟩, rfl⟩

theorem restart_eq_ok {s t : State} {n : BitVec 3} {npc : Word} :
    restart s n npc = .ok t ↔
      (s.admits .write (s.sp - 1#16) ∧ s.admits .write (s.sp - 2#16)) ∧
        t = (s.afterPush npc).goto (restartAddress n) := by
  simp only [restart, bind_eq_ok, pushWord_eq_ok, pure, Except.pure, Except.ok.injEq]
  constructor
  · rintro ⟨_, ⟨h, rfl⟩, rfl⟩
    exact ⟨h, rfl⟩
  · rintro ⟨h, rfl⟩
    exact ⟨_, ⟨h, rfl⟩, rfl⟩

theorem doReturn_eq_ok {s t : State} :
    doReturn s = .ok t ↔
      (s.admits .read s.sp ∧ s.admits .read (s.sp + 1#16)) ∧
        t = ((s.afterReadWord s.sp).setSp (s.sp + 2#16)).goto (s.wordAt s.sp) := by
  simp only [doReturn, bind_eq_ok, popWord_eq_ok, pure, Except.pure, Except.ok.injEq]
  constructor
  · rintro ⟨_, ⟨h, rfl⟩, rfl⟩
    exact ⟨h, rfl⟩
  · rintro ⟨h, rfl⟩
    exact ⟨_, ⟨h, rfl⟩, rfl⟩

theorem admitted_eq_ok {α : Type} {m : String} {x : Option α} {y : α} :
    admitted m x = .ok y ↔ x = some y := by
  cases x <;> simp [admitted]

theorem jumpIf_cases (s : State) (cc : Cond) (addr : Word) :
    (s.flags.holds cc = true ∧ jumpIf s cc addr = s.goto addr) ∨
      (s.flags.holds cc = false ∧ jumpIf s cc addr = s.advance 3) := by
  cases h : s.flags.holds cc <;> simp [jumpIf, h]

theorem returnIf_eq_ok {s t : State} {cc : Cond} :
    returnIf s cc = .ok t ↔
      (s.flags.holds cc = true ∧ doReturn s = .ok t) ∨ (s.flags.holds cc = false ∧ t = s.advance 1) := by
  cases h : s.flags.holds cc <;> simp [returnIf, h, eq_comm]

/-! ### Fetch -/

theorem lookupRow_eq_ok {op : Byte} {x : Word} {f : Format} :
    lookupRow op x = .ok f ↔ decodeOpcode op = some f := by
  unfold lookupRow
  split <;> next h => simp [h]

/-- If a fetch gives an instruction, its bytes were admitted and were read at `pc` and after it, in
ascending order (10_state.md R26, 20_memory.md R67). -/
theorem fetchInstr_eq_ok {s t : State} {i : Instr} :
    fetchInstr s = .ok (i, t) ↔
      s.admits .fetch s.pc ∧
        ((decodeOpcode (s.byteAt .fetch s.pc) = some (.f1 i) ∧ t = s.afterRead .fetch s.pc) ∨
          (∃ mk, decodeOpcode (s.byteAt .fetch s.pc) = some (.f2 mk) ∧ s.admits .fetch (s.pc + 1#16) ∧
            i = mk ((s.afterRead .fetch s.pc).byteAt .fetch (s.pc + 1#16)) ∧
            t = (s.afterRead .fetch s.pc).afterRead .fetch (s.pc + 1#16)) ∨
          (∃ mk, decodeOpcode (s.byteAt .fetch s.pc) = some (.f3 mk) ∧ s.admits .fetch (s.pc + 1#16) ∧
            s.admits .fetch (s.pc + 2#16) ∧
            i = mk (operandWord s.launch.operandOrder
              ((s.afterRead .fetch s.pc).byteAt .fetch (s.pc + 1#16))
              (((s.afterRead .fetch s.pc).afterRead .fetch (s.pc + 1#16)).byteAt .fetch (s.pc + 2#16))) ∧
            t = ((s.afterRead .fetch s.pc).afterRead .fetch (s.pc + 1#16)).afterRead .fetch (s.pc + 2#16))) := by
  have e1 : ∀ x, (s.afterRead .fetch s.pc).admits .fetch x ↔ s.admits .fetch x :=
    fun x => admits_congr (by simp) _ x
  have e2 : ∀ x, ((s.afterRead .fetch s.pc).afterRead .fetch (s.pc + 1#16)).admits .fetch x ↔ s.admits .fetch x :=
    fun x => admits_congr (by simp) _ x
  simp only [fetchInstr, bind_eq_ok, readByte_eq_ok, lookupRow_eq_ok]
  constructor
  · rintro ⟨_, ⟨h0, rfl⟩, row, hrow, hf⟩
    refine ⟨h0, ?_⟩
    cases row with
    | f1 j =>
      simp only [pure, Except.pure, Except.ok.injEq, Prod.mk.injEq] at hf
      obtain ⟨rfl, rfl⟩ := hf
      exact .inl ⟨hrow, rfl⟩
    | f2 mk =>
      simp only [bind_eq_ok, readByte_eq_ok, pure, Except.pure, Except.ok.injEq] at hf
      obtain ⟨_, ⟨h1, rfl⟩, hf⟩ := hf
      cases hf
      exact .inr (.inl ⟨mk, hrow, (e1 _).mp h1, rfl, rfl⟩)
    | f3 mk =>
      simp only [bind_eq_ok, readByte_eq_ok, pure, Except.pure, Except.ok.injEq] at hf
      obtain ⟨_, ⟨h1, rfl⟩, _, ⟨h2, rfl⟩, hf⟩ := hf
      cases hf
      exact .inr (.inr ⟨mk, hrow, (e1 _).mp h1, (e2 _).mp h2, rfl, rfl⟩)
  · rintro ⟨h0, ⟨hrow, rfl⟩ | ⟨mk, hrow, h1, rfl, rfl⟩ | ⟨mk, hrow, h1, h2, rfl, rfl⟩⟩
    · exact ⟨_, ⟨h0, rfl⟩, _, hrow, rfl⟩
    · refine ⟨_, ⟨h0, rfl⟩, _, hrow, ?_⟩
      simp [readByte_admitted ((e1 _).mpr h1), pure, Except.pure]
    · refine ⟨_, ⟨h0, rfl⟩, _, hrow, ?_⟩
      simp [readByte_admitted ((e1 _).mpr h1), readByte_admitted ((e2 _).mpr h2), pure, Except.pure]

/-- A step that answers a next state ran the instruction it fetched, after the fetches. -/
theorem step_eq_next {s t : State} :
    step s = .next t ↔ ∃ i s1, fetchInstr s = .ok (i, s1) ∧ exec i s1 = .next t := by
  unfold step
  split
  · next i s1 h => simp [h]
  · next r h => simp [h]

/-- A fetch changes nothing but the record of device accesses. -/
theorem fetchInstr_frame {s t : State} {i : Instr} (h : fetchInstr s = .ok (i, t)) :
    t = { s with bus := t.bus } := by
  obtain ⟨-, ⟨-, rfl⟩ | ⟨_, -, -, -, rfl⟩ | ⟨_, -, -, -, -, rfl⟩⟩ := fetchInstr_eq_ok.mp h <;>
    simp only [State.afterRead] <;> (repeat' split) <;> rfl

theorem afterWrite_wf {s : State} (x : Word) (v : Byte) (hw : s.mem.wf = true) :
    (s.afterWrite x v).mem.wf = true := by
  rw [State.afterWrite_mem]
  split
  · exact hw
  · exact Memory.write_wf x v hw

/-- A store leaves every other location alone, whatever is at the location stored to. -/
theorem afterWrite_read_ne {s : State} {x y : Word} (v : Byte) (h : y ≠ x) :
    (s.afterWrite x v).mem.read y = s.mem.read y := by
  rw [State.afterWrite_mem]
  split
  · rfl
  · exact Memory.read_write_ne v h

/-- A location of plain storage reads what was stored there (20_memory.md R52). -/
theorem afterWrite_read_self {s : State} {x : Word} (v : Byte) (hw : s.mem.wf = true)
    (hd : s.isDevice x = false) : (s.afterWrite x v).mem.read x = v := by
  rw [State.afterWrite_plain v hd]
  exact Memory.read_write_self x v hw

theorem placeBytes_wf {m : Memory} (addr : Word) (bs : List Byte) (hw : m.wf = true) :
    (placeBytes m addr bs).wf = true := by
  induction bs generalizing m addr with
  | nil => exact hw
  | cons v rest ih => exact ih _ (Memory.write_wf addr v hw)

end Sys2Proof.Machine
end

