-- ==== Sys2Proof/Laws/Accesses.lean ====
section
/-! SUPPORT. What an admitted store leaves, in the terms of the statements: `Stored` after one write, after
two, and the first refusal of one access or two. -/

namespace Sys2Proof.Machine

variable {s t : State}

theorem stored_congr {u : State} {x : Word} {v : Byte} (h : Stored s x v t) (hm : u.mem = t.mem)
    (hb : u.bus = t.bus) : Stored s x v u := by
  unfold Stored at *; rw [hm, hb]; exact h

/-- Which locations are devices depends on the launch alone. -/
theorem stored_of_launch {u : State} {x : Word} {v : Byte} (h : Stored s x v t)
    (hl : u.launch = s.launch) : Stored u x v t := by
  unfold Stored at *; rw [State.isDevice_congr hl]; exact h

theorem afterWrite_bus_mono (x : Word) (v : Byte) {e : BusEvent} (h : e ∈ s.bus) :
    e ∈ (s.afterWrite x v).bus := by
  unfold State.afterWrite; split <;> simp [h]

/-- One write (20_memory.md R52, R59). -/
theorem stored_afterWrite (x : Word) (v : Byte) (hi : s.Inv) : Stored s x v (s.afterWrite x v) := by
  unfold Stored
  split
  · next h => simp [State.afterWrite, h]
  · next h => exact afterWrite_read_self v hi (by simpa using h)

/-- Two writes to different locations: the first one's byte stands. -/
theorem stored_first {x y : Word} (v w : Byte) (hi : s.Inv) (hne : x ≠ y) :
    Stored s x v ((s.afterWrite x v).afterWrite y w) := by
  have h1 := stored_afterWrite (s := s) x v hi
  unfold Stored at *
  split at h1
  · next h => rw [if_pos h]; exact afterWrite_bus_mono y w h1
  · next h => rw [if_neg h, afterWrite_read_ne w hne]; exact h1

/-- Two writes: the second one's byte stands. -/
theorem stored_second (x y : Word) (v w : Byte) (hi : s.Inv) :
    Stored s y w ((s.afterWrite x v).afterWrite y w) :=
  stored_of_launch (stored_afterWrite y w (afterWrite_wf x v hi)) (by simp)

/-- Two writes leave every other location alone. -/
theorem sameMemory_twoWrites (x y : Word) (v w : Byte) :
    SameMemoryBut [x, y] s ((s.afterWrite x v).afterWrite y w) := by
  intro z hz
  simp only [List.mem_cons, List.not_mem_nil, or_false, not_or] at hz
  rw [afterWrite_read_ne w hz.2, afterWrite_read_ne v hz.1]

theorem firstRefusal_one (m : List Region) (a : Access) : firstRefusal m [a] = a.refusal m := by
  simp only [firstRefusal, List.findSome?_cons, List.findSome?_nil]
  cases a.refusal m <;> rfl

theorem firstRefusal_two (m : List Region) (a b : Access) :
    firstRefusal m [a, b] = (a.refusal m).or (b.refusal m) := by
  simp only [firstRefusal, List.findSome?_cons, List.findSome?_nil]
  cases a.refusal m <;> cases b.refusal m <;> rfl

end Sys2Proof.Machine
end

