-- ==== Sys2Proof/Laws/Decode.lean ====
section
/-! SUPPORT. What the decoder does with each format, and what a first byte can select: the lemmas the
provers cite instead of unfolding the opcode map (30_encoding.md R70, R76, R80, R82). -/

namespace Sys2Proof.Machine

/-- The operand bytes of a 16-bit operand are put together again, in either order (R76). -/
theorem wordBytes_operandWord (o : OperandOrder) (w : Word) :
    ∃ b2 b3, wordBytes o w = [b2, b3] ∧ operandWord o b2 b3 = w := by
  cases o
  · exact ⟨lo8 w, hi8 w, rfl, concat_halves w⟩
  · exact ⟨hi8 w, lo8 w, rfl, concat_halves w⟩

theorem wordBytes_of_operandWord (o : OperandOrder) (b2 b3 : Byte) :
    wordBytes o (operandWord o b2 b3) = [b2, b3] := by
  cases o <;> simp [wordBytes, operandWord]

theorem decode_f1 {op : Byte} {i : Instr} (o : OperandOrder) (h : decodeOpcode op = some (.f1 i))
    (rest : List Byte) : decode o (op :: rest) = .ok (i, rest) := by
  simp [decode, h]

theorem decode_f2 {op : Byte} {mk : Byte → Instr} (o : OperandOrder) (h : decodeOpcode op = some (.f2 mk))
    (v : Byte) (rest : List Byte) : decode o (op :: v :: rest) = .ok (mk v, rest) := by
  simp [decode, h]

theorem decode_f3 {op : Byte} {mk : Word → Instr} (o : OperandOrder) (h : decodeOpcode op = some (.f3 mk))
    (w : Word) (rest : List Byte) : decode o (op :: (wordBytes o w ++ rest)) = .ok (mk w, rest) := by
  obtain ⟨b2, b3, hb, hw⟩ := wordBytes_operandWord o w
  simp [decode, h, hb, hw]

/-- A listed first byte selects a well-formed instruction whose own code it is; every other first byte is
in R82's list. The operand is taken as 0, which neither a code nor well-formedness depends on. -/
theorem decodeOpcode_spec (op : Byte) :
    match decodeOpcode op with
    | some (.f1 i) => i.wellFormed = true ∧ encode .lowFirst i = [op]
    | some (.f2 mk) => (mk 0).wellFormed = true ∧ (mk 0).opcode = op
    | some (.f3 mk) => (mk 0).wellFormed = true ∧ (mk 0).opcode = op
    | none => op.toNat ∈ unlistedOpcodes := by
  have key : ∀ k : Fin 256, (match decodeOpcode (BitVec.ofFin k) with
      | some (.f1 i) => decide (i.wellFormed = true ∧ encode .lowFirst i = [BitVec.ofFin k])
      | some (.f2 mk) => decide ((mk 0).wellFormed = true ∧ (mk 0).opcode = BitVec.ofFin k)
      | some (.f3 mk) => decide ((mk 0).wellFormed = true ∧ (mk 0).opcode = BitVec.ofFin k)
      | none => decide ((k : Nat) ∈ unlistedOpcodes)) = true := by decide +kernel
  have h := key op.toFin
  rw [show BitVec.ofFin op.toFin = op from rfl] at h
  revert h
  split <;> simp

end Sys2Proof.Machine
end

