-- ==== Sys2Proof/Laws/Flags.lean ====
section
/-! SUPPORT. The laws of the flag byte, the subtraction and the rotates, which the provers cite instead
of unfolding them (10_state.md R36, 47_subtract.md R180, 43_logic_rotate.md R133 to R136). -/

namespace Sys2Proof.Machine

/-- Every bit of the flag byte (10_state.md R36). -/
theorem flagsToByte_getLsbD (l : PswLayout) (f : Flags) (u : Byte) (k : Fin 8) :
    (flagsToByte l f u).getLsbD k = pswBit l f u k := by
  have bits : ∀ (b0 b1 b2 b3 b4 b5 b6 b7 : Bool) (k : Fin 8),
      (BitVec.ofBool b7 ++ BitVec.ofBool b6 ++ BitVec.ofBool b5 ++ BitVec.ofBool b4 ++ BitVec.ofBool b3
        ++ BitVec.ofBool b2 ++ BitVec.ofBool b1 ++ BitVec.ofBool b0 : Byte).getLsbD k =
      (match k with | 0 => b0 | 1 => b1 | 2 => b2 | 3 => b3 | 4 => b4 | 5 => b5 | 6 => b6 | 7 => b7) := by
    decide +kernel
  unfold flagsToByte
  rw [bits]
  match k with
  | 0 => rfl
  | 1 => rfl
  | 2 => rfl
  | 3 => rfl
  | 4 => rfl
  | 5 => rfl
  | 6 => rfl
  | 7 => rfl

/-- Where the five flags have five different bits, each bit of the flag byte is its flag's. -/
theorem pswBit_of_wf {l : PswLayout} (h : l.wf = true) (f : Flags) (u : Byte) :
    pswBit l f u l.s = f.s ∧ pswBit l f u l.z = f.z ∧ pswBit l f u l.ac = f.ac ∧
      pswBit l f u l.p = f.p ∧ pswBit l f u l.cy = f.cy := by
  simp only [PswLayout.wf, decide_eq_true_eq, List.nodup_cons, List.mem_cons, List.not_mem_nil, or_false,
    not_or, not_false_eq_true, List.nodup_nil, and_true] at h
  obtain ⟨⟨h1, h2, h3, h4⟩, ⟨h5, h6, h7⟩, ⟨h8, h9⟩, h10⟩ := h
  refine ⟨?_, ?_, ?_, ?_, ?_⟩ <;> unfold pswBit
  · simp
  · rw [if_neg (Ne.symm h1)]; simp
  · rw [if_neg (Ne.symm h2), if_neg (Ne.symm h5)]; simp
  · rw [if_neg (Ne.symm h3), if_neg (Ne.symm h6), if_neg (Ne.symm h8)]; simp
  · rw [if_neg (Ne.symm h4), if_neg (Ne.symm h7), if_neg (Ne.symm h9), if_neg (Ne.symm h10)]; simp

/-- The flags survive the flag byte whatever the drawn bits are (10_state.md R36). -/
theorem byteToFlags_flagsToByte {l : PswLayout} (h : l.wf = true) (f : Flags) (u : Byte) :
    byteToFlags l (flagsToByte l f u) = f := by
  obtain ⟨h1, h2, h3, h4, h5⟩ := pswBit_of_wf h f u
  simp only [byteToFlags, flagsToByte_getLsbD, h1, h2, h3, h4, h5]

theorem difference9_toNat (a v : Byte) (c : Bool) :
    (difference9 a v c).toNat = (512 + a.toNat - v.toNat - c.toNat) % 512 := by
  have ha := a.isLt
  have hv := v.isLt
  cases c <;> simp [difference9, BitVec.toNat_sub, BitVec.toNat_setWidth] <;> omega

/-- The borrow out of bit 7 (10_state.md R32). -/
theorem difference9_borrow (a v : Byte) (c : Bool) :
    (difference9 a v c).getLsbD 8 = decide (a.toNat < v.toNat + c.toNat) := by
  have ha := a.isLt
  have hv := v.isLt
  have hc : c.toNat ≤ 1 := by cases c <;> simp
  have hd := difference9_toNat a v c
  rw [BitVec.getLsbD, Nat.testBit_eq_decide_div_mod_eq, hd]
  congr 1
  apply propext
  omega

/-- The 8-bit difference, modulo 256 (47_subtract.md R180). -/
theorem difference9_low (a v : Byte) (c : Bool) :
    ((difference9 a v c).setWidth 8).toNat = (512 + a.toNat - v.toNat - c.toNat) % 256 := by
  rw [BitVec.toNat_setWidth, difference9_toNat]
  omega

theorem shiftUp_getLsbD (a : Byte) (b : Bool) (i : Nat) (hi : i < 8) :
    (shiftUp a b).getLsbD i = if i = 0 then b else a.getLsbD (i - 1) := by
  revert a b
  interval_cases i <;> decide

theorem shiftDown_getLsbD (b : Bool) (a : Byte) (i : Nat) (hi : i < 8) :
    (shiftDown b a).getLsbD i = if i = 7 then b else a.getLsbD (i + 1) := by
  revert a b
  interval_cases i <;> decide

end Sys2Proof.Machine
end

