-- ==== Sys2Proof/Laws/Exec.lean ====
section
/-! SUPPORT. One inversion lemma per meaning that can stop: it answers a next state exactly where its
accesses are admitted, and then this state. The meanings that cannot stop are equations already. -/

namespace Sys2Proof.Machine

variable {s t : State}

theorem execLda_eq_next {addr : Word} :
    execLda addr s = .next t ↔
      s.admits .read addr ∧ t = ((s.afterRead .read addr).setReg .a (s.byteAt .read addr)).advance 3 := by
  simp only [execLda, settle_eq_next, bind_eq_ok, readByte_eq_ok, pure, Except.pure, Except.ok.injEq]
  constructor
  · rintro ⟨_, ⟨h, rfl⟩, rfl⟩; exact ⟨h, rfl⟩
  · rintro ⟨h, rfl⟩; exact ⟨_, ⟨h, rfl⟩, rfl⟩

theorem execLdax_eq_next {p : RegPair} :
    execLdax p s = .next t ↔
      ∃ addr, ldaxAddress s p = some addr ∧ s.admits .read addr ∧
        t = ((s.afterRead .read addr).setReg .a (s.byteAt .read addr)).advance 1 := by
  simp only [execLdax, settle_eq_next, bind_eq_ok, admitted_eq_ok, readByte_eq_ok, pure, Except.pure,
    Except.ok.injEq]
  constructor
  · rintro ⟨x, hx, _, ⟨h, rfl⟩, rfl⟩; exact ⟨x, hx, h, rfl⟩
  · rintro ⟨x, hx, h, rfl⟩; exact ⟨x, hx, _, ⟨h, rfl⟩, rfl⟩

theorem execLhld_eq_next {addr : Word} :
    execLhld addr s = .next t ↔
      (s.admits .read addr ∧ s.admits .read (addr + 1#16)) ∧
        t = (setHalves (s.afterReadWord addr) .h .l (s.wordAt addr)).advance 3 := by
  simp only [execLhld, settle_eq_next, bind_eq_ok, readWord_eq_ok, pure, Except.pure, Except.ok.injEq]
  constructor
  · rintro ⟨_, ⟨h, rfl⟩, rfl⟩; exact ⟨h, rfl⟩
  · rintro ⟨h, rfl⟩; exact ⟨_, ⟨h, rfl⟩, rfl⟩

theorem execLxi_eq_next {p : RegPair} {w : Word} :
    execLxi p w s = .next t ↔ ∃ s1, lxiWrite s p w = some s1 ∧ t = s1.advance 3 := by
  simp only [execLxi, settle_eq_next, bind_eq_ok, admitted_eq_ok, pure, Except.pure, Except.ok.injEq,
    eq_comm (b := t)]

theorem execShld_eq_next {addr : Word} :
    execShld addr s = .next t ↔
      (s.admits .write addr ∧ s.admits .write (addr + 1#16)) ∧
        t = ((s.afterWrite addr (lo8 s.hl)).afterWrite (addr + 1#16) (hi8 s.hl)).advance 3 := by
  simp only [execShld, settle_eq_next, bind_eq_ok, writeWord_eq_ok, pure, Except.pure, Except.ok.injEq]
  constructor
  · rintro ⟨_, ⟨h, rfl⟩, rfl⟩; exact ⟨h, rfl⟩
  · rintro ⟨h, rfl⟩; exact ⟨_, ⟨h, rfl⟩, rfl⟩

theorem readM_eq_ok {p : Byte × State} :
    readM s = .ok p ↔ s.admits .read s.hl ∧ p = (s.byteAt .read s.hl, s.afterRead .read s.hl) := readByte_eq_ok

theorem writeM_eq_ok {v : Byte} :
    writeM s v = .ok t ↔ s.admits .write s.hl ∧ t = s.afterWrite s.hl v := writeByte_eq_ok

theorem execMovMR_eq_next {r : Reg} :
    execMovMR r s = .next t ↔
      s.admits .write s.hl ∧ t = (s.afterWrite s.hl (s.reg r)).advance 1 := by
  simp only [execMovMR, settle_eq_next, bind_eq_ok, writeM_eq_ok, pure, Except.pure, Except.ok.injEq]
  constructor
  · rintro ⟨_, ⟨h, rfl⟩, rfl⟩; exact ⟨h, rfl⟩
  · rintro ⟨h, rfl⟩; exact ⟨_, ⟨h, rfl⟩, rfl⟩

theorem execMovRM_eq_next {r : Reg} :
    execMovRM r s = .next t ↔
      s.admits .read s.hl ∧ t = ((s.afterRead .read s.hl).setReg r (s.byteAt .read s.hl)).advance 1 := by
  simp only [execMovRM, settle_eq_next, bind_eq_ok, readM_eq_ok, pure, Except.pure, Except.ok.injEq]
  constructor
  · rintro ⟨_, ⟨h, rfl⟩, rfl⟩; exact ⟨h, rfl⟩
  · rintro ⟨h, rfl⟩; exact ⟨_, ⟨h, rfl⟩, rfl⟩

theorem execMviM_eq_next {v : Byte} :
    execMviM v s = .next t ↔ s.admits .write s.hl ∧ t = (s.afterWrite s.hl v).advance 2 := by
  simp only [execMviM, settle_eq_next, bind_eq_ok, writeM_eq_ok, pure, Except.pure, Except.ok.injEq]
  constructor
  · rintro ⟨_, ⟨h, rfl⟩, rfl⟩; exact ⟨h, rfl⟩
  · rintro ⟨h, rfl⟩; exact ⟨_, ⟨h, rfl⟩, rfl⟩

theorem execOraM_eq_next :
    execOraM s = .next t ↔
      s.admits .read s.hl ∧ t = (orA (s.afterRead .read s.hl) (s.byteAt .read s.hl)).advance 1 := by
  simp only [execOraM, settle_eq_next, bind_eq_ok, readM_eq_ok, pure, Except.pure, Except.ok.injEq]
  constructor
  · rintro ⟨_, ⟨h, rfl⟩, rfl⟩; exact ⟨h, rfl⟩
  · rintro ⟨h, rfl⟩; exact ⟨_, ⟨h, rfl⟩, rfl⟩

theorem execSbbM_eq_next :
    execSbbM s = .next t ↔
      s.admits .read s.hl ∧ t = (sbb8 (s.afterRead .read s.hl) (s.byteAt .read s.hl)).advance 1 := by
  simp only [execSbbM, settle_eq_next, bind_eq_ok, readM_eq_ok, pure, Except.pure, Except.ok.injEq]
  constructor
  · rintro ⟨_, ⟨h, rfl⟩, rfl⟩; exact ⟨h, rfl⟩
  · rintro ⟨h, rfl⟩; exact ⟨_, ⟨h, rfl⟩, rfl⟩

theorem execPop_eq_next {p : RegPair} :
    execPop p s = .next t ↔
      (s.admits .read s.sp ∧ s.admits .read (s.sp + 1#16)) ∧
        ∃ s2, popWrite ((s.afterReadWord s.sp).setSp (s.sp + 2#16)) p (s.wordAt s.sp) = some s2 ∧
          t = s2.advance 1 := by
  simp only [execPop, settle_eq_next, bind_eq_ok, admitted_eq_ok, popWord_eq_ok, pure, Except.pure,
    Except.ok.injEq]
  constructor
  · rintro ⟨_, ⟨h, rfl⟩, s2, h2, rfl⟩
    exact ⟨h, s2, h2, rfl⟩
  · rintro ⟨h, s2, h2, rfl⟩
    exact ⟨_, ⟨h, rfl⟩, s2, h2, rfl⟩

theorem execPush_eq_next {p : RegPair} :
    execPush p s = .next t ↔
      ∃ w s1, pushOperand s p = some (w, s1) ∧
        (s1.admits .write (s1.sp - 1#16) ∧ s1.admits .write (s1.sp - 2#16)) ∧
        t = (s1.afterPush w).advance 1 := by
  simp only [execPush, settle_eq_next, bind_eq_ok, admitted_eq_ok, pure, Except.pure, Except.ok.injEq]
  constructor
  · rintro ⟨⟨w, s1⟩, hp, s2, h2, rfl⟩
    obtain ⟨h, rfl⟩ := pushWord_eq_ok.mp h2
    exact ⟨w, s1, hp, h, rfl⟩
  · rintro ⟨w, s1, hp, h, rfl⟩
    exact ⟨⟨w, s1⟩, hp, _, pushWord_eq_ok.mpr ⟨h, rfl⟩, rfl⟩

theorem execRet_eq_next :
    execRet s = .next t ↔
      (s.admits .read s.sp ∧ s.admits .read (s.sp + 1#16)) ∧
        t = ((s.afterReadWord s.sp).setSp (s.sp + 2#16)).goto (s.wordAt s.sp) := by
  rw [execRet, settle_eq_next, doReturn_eq_ok]

/-- What each conditional return does, whatever its condition (46_return_restart.md R161 to R168). -/
theorem settle_returnIf_eq_next {cc : Cond} :
    settle (returnIf s cc) = .next t ↔
      (s.flags.holds cc = true ∧ execRet s = .next t) ∨
        (s.flags.holds cc = false ∧ t = s.advance 1) := by
  rw [settle_eq_next, returnIf_eq_ok, execRet, settle_eq_next]

theorem execRst_eq_next {n : BitVec 3} :
    execRst n s = .next t ↔
      (s.admits .write (s.sp - 1#16) ∧ s.admits .write (s.sp - 2#16)) ∧
        t = (s.afterPush (s.npc 1)).goto (restartAddress n) := by
  rw [execRst, settle_eq_next, restart_eq_ok]

theorem restartAddress_toNat (n : BitVec 3) : (restartAddress n).toNat = 8 * n.toNat := by
  have h := n.isLt
  simp only [restartAddress, BitVec.toNat_mul, BitVec.toNat_setWidth, BitVec.toNat_ofNat]
  omega

end Sys2Proof.Machine
end

