-- ==== Sys2Proof/Laws/PerInstr.lean ====
section
/-! SUPPORT. The family EncodingLength: an instruction's encoding has the length the spec gives it, 1, 2
or 3 bytes (30_encoding.md R70). -/

namespace Sys2Proof.Laws.EncodingLength

/-- The bytes of the encoding are as many as the instruction's length, which is 1, 2 or 3. -/
def Statement (i : Instr) : Prop :=
  (∀ o, (encode o i).length = i.length) ∧ 1 ≤ i.length ∧ i.length ≤ 3

theorem jpe (addr : Word) : Statement (.jpe addr) := ⟨by intro o; cases o <;> rfl, by simp [Instr.length]⟩

theorem jz (addr : Word) : Statement (.jz addr) := ⟨by intro o; cases o <;> rfl, by simp [Instr.length]⟩

theorem jnz (addr : Word) : Statement (.jnz addr) := ⟨by intro o; cases o <;> rfl, by simp [Instr.length]⟩

theorem pchl : Statement .pchl := ⟨by intro o; cases o <;> rfl, by simp [Instr.length]⟩

theorem lda (addr : Word) : Statement (.lda addr) := ⟨by intro o; cases o <;> rfl, by simp [Instr.length]⟩

theorem ldax (pair : RegPair) : Statement (.ldax pair) := ⟨by intro o; cases o <;> rfl, by simp [Instr.length]⟩

theorem lhld (addr : Word) : Statement (.lhld addr) := ⟨by intro o; cases o <;> rfl, by simp [Instr.length]⟩

theorem lxi (pair : RegPair) (data : Word) : Statement (.lxi pair data) := ⟨by intro o; cases o <;> rfl, by simp [Instr.length]⟩

theorem shld (addr : Word) : Statement (.shld addr) := ⟨by intro o; cases o <;> rfl, by simp [Instr.length]⟩

theorem sphl : Statement .sphl := ⟨by intro o; cases o <;> rfl, by simp [Instr.length]⟩

theorem movRR (rd rs : Reg) : Statement (.movRR rd rs) := ⟨by intro o; cases o <;> rfl, by simp [Instr.length]⟩

theorem movMR (rs : Reg) : Statement (.movMR rs) := ⟨by intro o; cases o <;> rfl, by simp [Instr.length]⟩

theorem movRM (rd : Reg) : Statement (.movRM rd) := ⟨by intro o; cases o <;> rfl, by simp [Instr.length]⟩

theorem mviR (r : Reg) (data : Byte) : Statement (.mviR r data) := ⟨by intro o; cases o <;> rfl, by simp [Instr.length]⟩

theorem mviM (data : Byte) : Statement (.mviM data) := ⟨by intro o; cases o <;> rfl, by simp [Instr.length]⟩

theorem nop : Statement .nop := ⟨by intro o; cases o <;> rfl, by simp [Instr.length]⟩

theorem oraR (r : Reg) : Statement (.oraR r) := ⟨by intro o; cases o <;> rfl, by simp [Instr.length]⟩

theorem oraM : Statement .oraM := ⟨by intro o; cases o <;> rfl, by simp [Instr.length]⟩

theorem ori (data : Byte) : Statement (.ori data) := ⟨by intro o; cases o <;> rfl, by simp [Instr.length]⟩

theorem ral : Statement .ral := ⟨by intro o; cases o <;> rfl, by simp [Instr.length]⟩

theorem rar : Statement .rar := ⟨by intro o; cases o <;> rfl, by simp [Instr.length]⟩

theorem rlc : Statement .rlc := ⟨by intro o; cases o <;> rfl, by simp [Instr.length]⟩

theorem rrc : Statement .rrc := ⟨by intro o; cases o <;> rfl, by simp [Instr.length]⟩

theorem out (port : Byte) : Statement (.out port) := ⟨by intro o; cases o <;> rfl, by simp [Instr.length]⟩

theorem rim : Statement .rim := ⟨by intro o; cases o <;> rfl, by simp [Instr.length]⟩

theorem sim : Statement .sim := ⟨by intro o; cases o <;> rfl, by simp [Instr.length]⟩

theorem pop (pair : RegPair) : Statement (.pop pair) := ⟨by intro o; cases o <;> rfl, by simp [Instr.length]⟩

theorem push (pair : RegPair) : Statement (.push pair) := ⟨by intro o; cases o <;> rfl, by simp [Instr.length]⟩

theorem ret : Statement .ret := ⟨by intro o; cases o <;> rfl, by simp [Instr.length]⟩

theorem rc : Statement .rc := ⟨by intro o; cases o <;> rfl, by simp [Instr.length]⟩

theorem rnc : Statement .rnc := ⟨by intro o; cases o <;> rfl, by simp [Instr.length]⟩

theorem rp : Statement .rp := ⟨by intro o; cases o <;> rfl, by simp [Instr.length]⟩

theorem rm : Statement .rm := ⟨by intro o; cases o <;> rfl, by simp [Instr.length]⟩

theorem rpe : Statement .rpe := ⟨by intro o; cases o <;> rfl, by simp [Instr.length]⟩

theorem rpo : Statement .rpo := ⟨by intro o; cases o <;> rfl, by simp [Instr.length]⟩

theorem rz : Statement .rz := ⟨by intro o; cases o <;> rfl, by simp [Instr.length]⟩

theorem rnz : Statement .rnz := ⟨by intro o; cases o <;> rfl, by simp [Instr.length]⟩

theorem rst (n : BitVec 3) : Statement (.rst n) := ⟨by intro o; cases o <;> rfl, by simp [Instr.length]⟩

theorem sbbR (r : Reg) : Statement (.sbbR r) := ⟨by intro o; cases o <;> rfl, by simp [Instr.length]⟩

theorem sbbM : Statement .sbbM := ⟨by intro o; cases o <;> rfl, by simp [Instr.length]⟩

theorem sbi (data : Byte) : Statement (.sbi data) := ⟨by intro o; cases o <;> rfl, by simp [Instr.length]⟩

end Sys2Proof.Laws.EncodingLength
end

