-- ==== Sys2Proof/Tests/Slice0.lean ====
section
/-! SUPPORT. Tests: the ill-formed terms, the decoding of words written out from the spec's tables, one or
two steps per instruction with results from 95_test_vectors.md, and a witness for the hypotheses of each
statement. "V…" names a vector of that file. -/

namespace Sys2Proof.Tests

open Sys2Proof.Machine

/-! ### WellFormed refuses what each check is for (10_state.md R23) -/

theorem test_illformed_ldax :
    (Instr.ldax .hl).wellFormed = false ∧ (Instr.ldax .sp).wellFormed = false ∧
      (Instr.ldax .psw).wellFormed = false := by decide

theorem test_illformed_lxi : (Instr.lxi .psw 0x1234).wellFormed = false := by decide

theorem test_illformed_pop : (Instr.pop .sp).wellFormed = false := by decide

theorem test_illformed_push : (Instr.push .sp).wellFormed = false := by decide

/-! ### Decoding: words from 95_test_vectors.md S-1, operands chosen, low byte first (R76) -/

theorem test_decode_jumps :
    decodeTableWord 24 0x1234CA = some (.jz 0x1234) ∧ decodeTableWord 24 0x2000C2 = some (.jnz 0x2000) ∧
      decodeTableWord 24 0x5678EA = some (.jpe 0x5678) ∧ decodeTableWord 8 0xE9 = some .pchl := by decide

theorem test_decode_load_store :
    decodeTableWord 24 0x20503A = some (.lda 0x2050) ∧ decodeTableWord 8 0x0A = some (.ldax .bc) ∧
      decodeTableWord 8 0x1A = some (.ldax .de) ∧ decodeTableWord 24 0x20502A = some (.lhld 0x2050) ∧
      decodeTableWord 24 0x206022 = some (.shld 0x2060) ∧ decodeTableWord 8 0xF9 = some .sphl ∧
      [0x01, 0x11, 0x21, 0x31].map (fun op => decodeTableWord 24 (0x123400 + op)) =
        [some (.lxi .bc 0x1234), some (.lxi .de 0x1234), some (.lxi .hl 0x1234), some (.lxi .sp 0x1234)] := by
  decide

theorem test_decode_moves :
    [0x77, 0x70, 0x71, 0x72, 0x73, 0x74, 0x75].map (decodeTableWord 8) =
      [Reg.a, .b, .c, .d, .e, .h, .l].map (fun r => some (.movMR r)) ∧
    [0x7E, 0x46, 0x4E, 0x56, 0x5E, 0x66, 0x6E].map (decodeTableWord 8) =
      [Reg.a, .b, .c, .d, .e, .h, .l].map (fun r => some (.movRM r)) ∧
    [0x3E, 0x06, 0x0E, 0x16, 0x1E, 0x26, 0x2E].map (fun op => decodeTableWord 16 (0x5A00 + op)) =
      [Reg.a, .b, .c, .d, .e, .h, .l].map (fun r => some (.mviR r 0x5A)) ∧
    decodeTableWord 16 0xAA36 = some (.mviM 0xAA) ∧ decodeTableWord 8 0x00 = some .nop := by decide

/-- The recovered grid `01 ddd sss` (92_eei_decisions.md D13). -/
theorem test_decode_mov_grid :
    [[0x40, 0x41, 0x42, 0x43, 0x44, 0x45, 0x47], [0x48, 0x49, 0x4A, 0x4B, 0x4C, 0x4D, 0x4F],
     [0x50, 0x51, 0x52, 0x53, 0x54, 0x55, 0x57], [0x58, 0x59, 0x5A, 0x5B, 0x5C, 0x5D, 0x5F],
     [0x60, 0x61, 0x62, 0x63, 0x64, 0x65, 0x67], [0x68, 0x69, 0x6A, 0x6B, 0x6C, 0x6D, 0x6F],
     [0x78, 0x79, 0x7A, 0x7B, 0x7C, 0x7D, 0x7F]].map (fun row => row.map (decodeTableWord 8)) =
    [Reg.b, .c, .d, .e, .h, .l, .a].map (fun rd =>
      [Reg.b, .c, .d, .e, .h, .l, .a].map (fun rs => some (.movRR rd rs))) := by decide

theorem test_decode_logic_rotate :
    [0xB7, 0xB0, 0xB1, 0xB2, 0xB3, 0xB4, 0xB5].map (decodeTableWord 8) =
      [Reg.a, .b, .c, .d, .e, .h, .l].map (fun r => some (.oraR r)) ∧
    decodeTableWord 8 0xB6 = some .oraM ∧ decodeTableWord 16 0x80F6 = some (.ori 0x80) ∧
    [0x17, 0x1F, 0x07, 0x0F].map (decodeTableWord 8) = [some .ral, some .rar, some .rlc, some .rrc] := by
  decide

theorem test_decode_io : decodeTableWord 16 0x10D3 = some (.out 0x10) ∧
    decodeTableWord 8 0x20 = some .rim ∧ decodeTableWord 8 0x30 = some .sim := by decide

theorem test_decode_stack :
    [0xC1, 0xD1, 0xE1, 0xF1].map (decodeTableWord 8) =
      [some (.pop .bc), some (.pop .de), some (.pop .hl), some (.pop .psw)] ∧
    [0xC5, 0xD5, 0xE5, 0xF5].map (decodeTableWord 8) =
      [some (.push .bc), some (.push .de), some (.push .hl), some (.push .psw)] := by decide

theorem test_decode_returns :
    [0xC9, 0xD8, 0xD0, 0xF0, 0xF8, 0xE8, 0xE0, 0xC8, 0xC0].map (decodeTableWord 8) =
      [some .ret, some .rc, some .rnc, some .rp, some .rm, some .rpe, some .rpo, some .rz, some .rnz] ∧
    [0xC7, 0xCF, 0xD7, 0xDF, 0xE7, 0xEF, 0xF7, 0xFF].map (decodeTableWord 8) =
      [0, 1, 2, 3, 4, 5, 6, 7].map (fun n => some (.rst n)) := by decide

theorem test_decode_subtract :
    [0x9F, 0x98, 0x99, 0x9A, 0x9B, 0x9C, 0x9D].map (decodeTableWord 8) =
      [Reg.a, .b, .c, .d, .e, .h, .l].map (fun r => some (.sbbR r)) ∧
    decodeTableWord 8 0x9E = some .sbbM ∧ decodeTableWord 16 0x01DE = some (.sbi 0x01) := by decide

/-- Exactly the 120 bytes of 30_encoding.md R82 are refused, whatever follows. -/
theorem test_decode_unlisted :
    (List.range 256).filter (fun op => (decodeTableWord 24 (0x567800 + op)).isNone) = unlistedOpcodes := by
  decide +kernel

/-- Bytes that end too soon are refused by name (30_encoding.md R70). -/
theorem test_decode_truncated :
    decode .lowFirst [0xCA#8, 0x34#8] = .error (.truncated 0xCA#8) ∧
      decode .lowFirst [0x06#8] = .error (.truncated 0x06#8) ∧ decode .lowFirst [] = .error .empty ∧
      decode .lowFirst [0x76#8, 0x00#8] = .error (.unlistedOpcode 0x76#8) :=
  ⟨rfl, rfl, rfl, rfl⟩

/-- The other `OPERAND_ORDER` (20_memory.md R55). -/
theorem test_decode_high_first :
    decode .highFirst [0xCA#8, 0x12#8, 0x34#8] = .ok (.jz 0x1234#16, []) ∧
      encode .highFirst (.jz 0x1234#16) = [0xCA#8, 0x12#8, 0x34#8] := ⟨rfl, rfl⟩

/-! ### One step each -/

/-- A start state: registers, flags, `sp`, bytes in memory, then the code at 0100h. -/
def start (g : Regs) (f : Flags) (sp : Word) (data : List (Word × Byte)) (code : List Byte) : State :=
  { State.reset with
    regs := g
    flags := f
    sp := sp
    pc := 0x0100#16
    mem := placeBytes (data.foldl (fun m c => m.write c.1 c.2) []) 0x0100#16 code }

/-- The same state with the program moved to start elsewhere. -/
def movedTo (pc : Word) (code : List Byte) (s : State) : State :=
  { s with pc := pc, mem := placeBytes [] pc code }

/-- What the next state shows, or `none` if the step stops. -/
def seen {α : Type} (view : State → α) (s : State) : Option α :=
  match step s with
  | .next t => some (view t)
  | .fault r => nomatch r
  | .refused _ => none

/-- All registers zero. -/
def g0 : Regs := State.reset.regs

/-- All flags clear. -/
def f0 : Flags := State.reset.flags

/-- HL = 2050h, A as given. -/
def atHl (a : Byte) : Regs := { g0 with a := a, h := 0x20#8, l := 0x50#8 }

/-- The flags S, Z, AC, P, CY as one number, in that order. -/
def flagBits (f : Flags) : Nat :=
  16 * f.s.toNat + 8 * f.z.toNat + 4 * f.ac.toNat + 2 * f.p.toNat + f.cy.toNat

/-- VA1, VA2. -/
theorem test_jz : seen State.pc (start g0 { f0 with z := true } 0 [] [0xCA#8, 0x34#8, 0x12#8]) = some 0x1234#16 ∧
    seen State.pc (start g0 f0 0 [] [0xCA#8, 0x34#8, 0x12#8]) = some 0x0103#16 := by decide

/-- VA10: a jump not taken whose bytes straddle FFFFh and 0000h. -/
theorem test_jz_straddles :
    seen State.pc (movedTo 0xFFFE#16 [0xCA#8, 0x34#8, 0x12#8] State.reset) = some 0x0001#16 := by decide

/-- VA3, VA4. -/
theorem test_jnz : seen State.pc (start g0 f0 0 [] [0xC2#8, 0x00#8, 0x20#8]) = some 0x2000#16 ∧
    seen State.pc (start g0 { f0 with z := true } 0 [] [0xC2#8, 0x00#8, 0x20#8]) = some 0x0103#16 := by decide

/-- VA5, VA6. -/
theorem test_jpe : seen State.pc (start g0 { f0 with p := true } 0 [] [0xEA#8, 0x78#8, 0x56#8]) = some 0x5678#16 ∧
    seen State.pc (start g0 f0 0 [] [0xEA#8, 0x78#8, 0x56#8]) = some 0x0103#16 := by decide

/-- VA7: E2h is refused. -/
theorem test_e2_refused : step (start g0 { f0 with p := true } 0 [] [0xE2#8, 0x78#8, 0x56#8]) =
    .refused (.unlistedOpcode 0xE2#8 0x0100#16) := rfl

/-- VA8. -/
theorem test_pchl :
    seen State.pc (start { g0 with h := 0x12#8, l := 0x34#8 } f0 0 [] [0xE9#8]) = some 0x1234#16 := by decide

/-- VB1, VB2. -/
theorem test_lda :
    seen (·.reg .a) (start g0 f0 0 [(0x2050#16, 0xAB#8)] [0x3A#8, 0x50#8, 0x20#8]) = some 0xAB#8 ∧
    seen (·.reg .a) (start g0 f0 0 [] [0x3A#8, 0x00#8, 0x01#8]) = some 0x3A#8 := by decide

/-- VB3, VB4. -/
theorem test_ldax :
    seen (·.reg .a) (start { g0 with b := 0x20#8, c := 0x50#8 } f0 0 [(0x2050#16, 0x5A#8)] [0x0A#8]) = some 0x5A#8 ∧
    seen (·.reg .a) (start { g0 with d := 0x20#8, e := 0x51#8 } f0 0 [(0x2051#16, 0xA5#8)] [0x1A#8]) =
      some 0xA5#8 := by decide

/-- VB6: the address after FFFFh is 0000h. -/
theorem test_lhld : seen (fun t => (t.reg .h, t.reg .l))
    (start g0 f0 0 [(0xFFFF#16, 0x34#8), (0x0000#16, 0x12#8)] [0x2A#8, 0xFF#8, 0xFF#8]) =
      some (0x12#8, 0x34#8) := by decide

/-- VB7, VB10. -/
theorem test_lxi :
    seen (fun t => (t.reg .b, t.reg .c)) (start g0 f0 0 [] [0x01#8, 0x34#8, 0x12#8]) = some (0x12#8, 0x34#8) ∧
    seen State.sp (start g0 f0 0 [] [0x31#8, 0x00#8, 0x80#8]) = some 0x8000#16 := by decide

/-- VB12. -/
theorem test_shld : seen (fun t => (t.mem.read 0xFFFF#16, t.mem.read 0x0000#16))
    (start { g0 with h := 0x12#8, l := 0x34#8 } f0 0 [] [0x22#8, 0xFF#8, 0xFF#8]) =
      some (0x34#8, 0x12#8) := by decide

/-- VB13. -/
theorem test_sphl :
    seen State.sp (start { g0 with h := 0x20#8, l := 0xFF#8 } f0 0 [] [0xF9#8]) = some 0x20FF#16 := by decide

/-- VC1, VC3. -/
theorem test_mov_reg :
    seen (·.reg .a) (start { g0 with b := 0x5A#8 } f0 0 [] [0x78#8]) = some 0x5A#8 ∧
    seen (·.reg .l) (start { g0 with h := 0x12#8 } f0 0 [] [0x6C#8]) = some 0x12#8 := by decide

/-- VC6: MOV M,H stores the address's own high byte. -/
theorem test_mov_store : seen (·.mem.read 0x2050#16) (start (atHl 0) f0 0 [] [0x74#8]) = some 0x20#8 := by decide

/-- VC8: MOV H,M changes the pointer it used. -/
theorem test_mov_load : seen (fun t => (t.reg .h, t.reg .l))
    (start (atHl 0) f0 0 [(0x2050#16, 0x21#8)] [0x66#8]) = some (0x21#8, 0x50#8) := by decide

/-- VC11: the flags stay although A became negative. -/
theorem test_mvi_reg : seen (fun t => (t.reg .a, flagBits t.flags)) (start g0 f0 0 [] [0x3E#8, 0x80#8]) =
    some (0x80#8, 0) := by decide

/-- VC12. -/
theorem test_mvi_mem : seen (fun t => (t.mem.read 0x2050#16, t.pc)) (start (atHl 0) f0 0 [] [0x36#8, 0xAA#8]) =
    some (0xAA#8, 0x0102#16) := by decide

/-- VC13. -/
theorem test_nop : seen State.pc (start g0 f0 0 [] [0x00#8]) = some 0x0101#16 := by decide

/-- VD1, VD3. -/
theorem test_ora_reg :
    seen (fun t => (t.reg .a, flagBits t.flags))
      (start { g0 with a := 0x50#8, b := 0x0A#8 } { f0 with cy := true, ac := true } 0 [] [0xB0#8]) =
        some (0x5A#8, 0b00010) ∧
    seen (fun t => (t.reg .a, flagBits t.flags)) (start { g0 with a := 0x80#8 } { f0 with cy := true } 0 [] [0xB7#8]) =
      some (0x80#8, 0b10000) := by decide

/-- VD5. -/
theorem test_ora_mem : seen (fun t => (t.reg .a, flagBits t.flags))
    (start (atHl 0x01#8) f0 0 [(0x2050#16, 0x06#8)] [0xB6#8]) = some (0x07#8, 0) := by decide

/-- VD6, VD7. -/
theorem test_ori :
    seen (fun t => (t.reg .a, flagBits t.flags)) (start { g0 with a := 0x01#8 } f0 0 [] [0xF6#8, 0x80#8]) =
      some (0x81#8, 0b10010) ∧
    seen (fun t => (t.reg .a, flagBits t.flags)) (start { g0 with a := 0x7F#8 } { f0 with cy := true } 0 [] [0xF6#8, 0x00#8]) =
      some (0x7F#8, 0) := by decide

/-- VD8, VD9. -/
theorem test_rlc :
    seen (fun t => (t.reg .a, t.flags.cy)) (start { g0 with a := 0x81#8 } f0 0 [] [0x07#8]) = some (0x03#8, true) ∧
    seen (fun t => (t.reg .a, t.flags.cy)) (start { g0 with a := 0x41#8 } { f0 with cy := true } 0 [] [0x07#8]) =
      some (0x82#8, false) := by decide

/-- VD10, VD11. -/
theorem test_rrc :
    seen (fun t => (t.reg .a, t.flags.cy)) (start { g0 with a := 0x81#8 } f0 0 [] [0x0F#8]) = some (0xC0#8, true) ∧
    seen (fun t => (t.reg .a, t.flags.cy)) (start { g0 with a := 0x82#8 } { f0 with cy := true } 0 [] [0x0F#8]) =
      some (0x41#8, false) := by decide

/-- VD12, VD13: A becomes 00h and Z stays 0. -/
theorem test_ral :
    seen (fun t => (t.reg .a, flagBits t.flags)) (start { g0 with a := 0x80#8 } f0 0 [] [0x17#8]) =
      some (0x00#8, 0b00001) ∧
    seen (fun t => (t.reg .a, t.flags.cy)) (start { g0 with a := 0x01#8 } { f0 with cy := true } 0 [] [0x17#8]) =
      some (0x03#8, false) := by decide

/-- VD15, VD16. -/
theorem test_rar :
    seen (fun t => (t.reg .a, t.flags.cy)) (start { g0 with a := 0x02#8 } { f0 with cy := true } 0 [] [0x1F#8]) =
      some (0x81#8, false) ∧
    seen (fun t => (t.reg .a, t.flags.cy)) (start { g0 with a := 0xA5#8 } { f0 with cy := true } 0 [] [0x1F#8]) =
      some (0xD2#8, true) := by decide

/-- VE1. -/
theorem test_out : seen State.trace (start { g0 with a := 0x41#8 } f0 0 [] [0xD3#8, 0x10#8]) =
    some [.io 0x10#8 0x41#8] := by decide

/-- VE3: RIM puts the draw in A, whatever it is, and goes on. -/
theorem test_rim : seen (fun t => (t.pc, flagBits t.flags)) (start g0 { f0 with z := true } 0 [] [0x20#8]) =
    some (0x0101#16, 0b01000) := by decide

/-- VE4, VE5. -/
theorem test_sim :
    seen (fun t => (t.sod, t.trace)) (start { g0 with a := 0xC0#8 } f0 0 [] [0x30#8]) = some (true, [.sod true]) ∧
    seen State.imask (start { g0 with a := 0x0D#8 } f0 0 [] [0x30#8]) = some 0b101#3 := by decide

/-- VE6, VE7: without the enabling bits nothing changes. -/
theorem test_sim_disabled :
    seen State.imask (start { g0 with a := 0x05#8 } f0 0 [] [0x30#8]) = some 0b111#3 ∧
    seen State.sod (start { g0 with a := 0x80#8 } f0 0 [] [0x30#8]) = some false := by decide

/-- VF1, VF8. -/
theorem test_push :
    seen (fun t => (t.sp, t.mem.read 0x20FE#16, t.mem.read 0x20FD#16))
      (start { g0 with b := 0x12#8, c := 0x34#8 } f0 0x20FF#16 [] [0xC5#8]) = some (0x20FD#16, 0x12#8, 0x34#8) ∧
    seen (fun t => (t.sp, t.mem.read 0x0000#16, t.mem.read 0xFFFF#16))
      (start { g0 with b := 0x12#8, c := 0x34#8 } f0 0x0001#16 [] [0xC5#8]) = some (0xFFFF#16, 0x12#8, 0x34#8) := by
  decide

/-- VF4, VF5: the flag byte with the drawn bits all 0 and all 1; and another `PSW_LAYOUT`. -/
theorem test_push_psw_byte :
    let f : Flags := { s := true, z := false, ac := true, p := true, cy := true }
    flagsToByte Config.recommendedPswLayout f 0x00#8 = 0x95#8 ∧
      flagsToByte Config.recommendedPswLayout f 0xFF#8 = 0xBF#8 ∧
      flagsToByte { s := 0, z := 1, ac := 2, p := 3, cy := 4 } f 0x00#8 = 0b00011101#8 := by decide

/-- VF9, VF12. -/
theorem test_pop :
    seen (fun t => (t.reg .b, t.reg .c, t.sp))
      (start g0 f0 0x20FD#16 [(0x20FD#16, 0x34#8), (0x20FE#16, 0x12#8)] [0xC1#8]) =
        some (0x12#8, 0x34#8, 0x20FF#16) ∧
    seen (fun t => (t.reg .a, flagBits t.flags))
      (start g0 f0 0x20FD#16 [(0x20FD#16, 0x34#8), (0x20FE#16, 0x12#8)] [0xF1#8]) = some (0x12#8, 0b00110) := by
  decide

/-- VF14: a flag byte of the spare bits only clears every flag. -/
theorem test_pop_psw_spare : seen (fun t => flagBits t.flags)
    (start g0 { f0 with s := true, cy := true } 0x20FD#16 [(0x20FD#16, 0x2A#8)] [0xF1#8]) = some 0 := by decide

/-- 2103h on the stack at 20FDh, for the returns. -/
def returning (f : Flags) (op : Byte) : State :=
  start g0 f 0x20FD#16 [(0x20FD#16, 0x03#8), (0x20FE#16, 0x21#8)] [op]

/-- Where a return goes and what it leaves in `sp`. -/
def returned (f : Flags) (op : Byte) : Option (Word × Word) := seen (fun t => (t.pc, t.sp)) (returning f op)

/-- VG1. -/
theorem test_ret : returned f0 0xC9#8 = some (0x2103#16, 0x20FF#16) := by decide

/-- VG3, VG4. -/
theorem test_rnz : returned f0 0xC0#8 = some (0x2103#16, 0x20FF#16) ∧
    returned { f0 with z := true } 0xC0#8 = some (0x0101#16, 0x20FD#16) := by decide

/-- VG5, VG6. -/
theorem test_rz : returned { f0 with z := true } 0xC8#8 = some (0x2103#16, 0x20FF#16) ∧
    returned f0 0xC8#8 = some (0x0101#16, 0x20FD#16) := by decide

/-- VG7, VG8. -/
theorem test_rnc : returned f0 0xD0#8 = some (0x2103#16, 0x20FF#16) ∧
    returned { f0 with cy := true } 0xD0#8 = some (0x0101#16, 0x20FD#16) := by decide

/-- VG9, VG10. -/
theorem test_rc : returned { f0 with cy := true } 0xD8#8 = some (0x2103#16, 0x20FF#16) ∧
    returned f0 0xD8#8 = some (0x0101#16, 0x20FD#16) := by decide

/-- VG11, VG12. -/
theorem test_rpo : returned f0 0xE0#8 = some (0x2103#16, 0x20FF#16) ∧
    returned { f0 with p := true } 0xE0#8 = some (0x0101#16, 0x20FD#16) := by decide

/-- VG13, VG14. -/
theorem test_rpe : returned { f0 with p := true } 0xE8#8 = some (0x2103#16, 0x20FF#16) ∧
    returned f0 0xE8#8 = some (0x0101#16, 0x20FD#16) := by decide

/-- VG15, VG16. -/
theorem test_rp : returned f0 0xF0#8 = some (0x2103#16, 0x20FF#16) ∧
    returned { f0 with s := true } 0xF0#8 = some (0x0101#16, 0x20FD#16) := by decide

/-- VG17, VG18. -/
theorem test_rm : returned { f0 with s := true } 0xF8#8 = some (0x2103#16, 0x20FF#16) ∧
    returned f0 0xF8#8 = some (0x0101#16, 0x20FD#16) := by decide

/-- VG24, with `pc` at 2105h. -/
theorem test_rst : seen (fun t => (t.pc, t.sp, t.mem.read 0x20FE#16, t.mem.read 0x20FD#16))
    (movedTo 0x2105#16 [0xEF#8] (start g0 f0 0x20FF#16 [] [])) =
      some (0x0028#16, 0x20FD#16, 0x21#8, 0x06#8) := by decide

/-- VG27: RST 7 at FFFFh saves the return address 0000h. -/
theorem test_rst_wraps : seen (fun t => (t.pc, t.mem.read 0x20FE#16, t.mem.read 0x20FD#16))
    (movedTo 0xFFFF#16 [0xFF#8] (start g0 f0 0x20FF#16 [] [])) = some (0x0038#16, 0x00#8, 0x00#8) := by decide

/-- VH2, VH6; AC by the recommended `AC_SUB`. -/
theorem test_sbb_reg :
    seen (fun t => (t.reg .a, flagBits t.flags)) (start { g0 with a := 0x03#8, b := 0x05#8 } f0 0 [] [0x98#8]) =
      some (0xFE#8, 0b10001) ∧
    seen (fun t => (t.reg .a, flagBits t.flags))
      (start { g0 with a := 0x00#8, b := 0xFF#8 } { f0 with cy := true } 0 [] [0x98#8]) =
        some (0x00#8, 0b01011) := by decide

/-- VH19. -/
theorem test_sbb_mem : seen (fun t => (t.reg .a, flagBits t.flags))
    (start (atHl 0x99#8) f0 0 [(0x2050#16, 0x19#8)] [0x9E#8]) = some (0x80#8, 0b10100) := by decide

/-- VH21, VH25. -/
theorem test_sbi :
    seen (fun t => (t.reg .a, flagBits t.flags)) (start { g0 with a := 0x01#8 } f0 0 [] [0xDE#8, 0x01#8]) =
      some (0x00#8, 0b01110) ∧
    seen (fun t => (t.reg .a, flagBits t.flags))
      (start { g0 with a := 0x10#8 } { f0 with cy := true } 0 [] [0xDE#8, 0x00#8]) =
        some (0x0F#8, 0b00010) := by decide

/-- 30_encoding.md R70, 95_test_vectors.md VA1: a placed instruction is the first one reset runs. -/
theorem test_withFetchWord : step (State.reset.withFetchWord 24 0x1234C2) =
    .next { State.reset.withFetchWord 24 0x1234C2 with pc := 0x1234#16 } := rfl

/-! ### Witnesses: a state and operands that meet the hypotheses of each statement -/

/-- ROM at 0000h to 00FFh, RAM at 0100h to 01FFh, a device at F000h to F0FFh, nothing elsewhere. -/
def smallMap : List Region :=
  [{ base := 0x0000, size := 256, readable := true, writable := false, plain := true },
   { base := 0x0100, size := 256, readable := true, writable := true, plain := true },
   { base := 0xF000, size := 256, readable := true, writable := true, plain := false }]

/-- A state with that map. -/
def small (pc sp : Word) (code : List Byte) : State :=
  { State.reset with
    pc := pc
    sp := sp
    mem := placeBytes [] pc code
    launch := { Config.defaultLaunch with memMap := smallMap, acSub := .other 7 } }

/-- The default map admits everything. -/
theorem admitsAll_of_launch {s : State} (h : s.launch = Config.defaultLaunch) : s.AdmitsAll := by
  intro k x
  unfold State.admits
  rw [h]
  exact mapRefusal_default k x

theorem witness_DecodeInvertsEncode :
    (Instr.lxi .sp 0xFFFF).wellFormed = true ∧ (Instr.ldax .de).wellFormed = true ∧
      (Instr.push .psw).wellFormed = true ∧ (Instr.rst 7).wellFormed = true ∧
      (Instr.sbi 0xFF).wellFormed = true := by decide

theorem witness_EncodeInvertsDecode :
    decode .lowFirst [0xCA#8, 0xFF#8, 0xFE#8, 0x76#8] = .ok (.jz 0xFEFF#16, [0x76#8]) ∧
      decode .highFirst [0xCA#8, 0xFF#8, 0xFE#8] = .ok (.jz 0xFFFE#16, []) ∧
      decode .lowFirst [0xF6#8, 0x00#8] = .ok (.ori 0x00#8, []) ∧
      decode .lowFirst [0xFF#8] = .ok (.rst 7#3, []) := ⟨rfl, rfl, rfl, rfl⟩

/-- JZ at FFFEh: its last byte is at 0000h. And NOP at 01FFh with `n` = 1, where 0200h is not admitted. -/
theorem witness_StepRunsDecodedInstruction :
    (let s := movedTo 0xFFFE#16 [0xCA#8, 0x34#8, 0x12#8] State.reset;
      decode s.launch.operandOrder
        [s.mem.read s.pc, s.mem.read (s.pc + 1#16), s.mem.read (s.pc + 2#16)] = .ok (.jz 0x1234#16, []) ∧
      ∀ k, k < (Instr.jz 0x1234#16).length → s.admits .fetch (s.npc k) ∧ s.isDevice (s.npc k) = false) ∧
    (let s := small 0x01FF#16 0 [0x00#8];
      decode s.launch.operandOrder (fetched 1 s.pc s).1 = .ok (.nop, []) ∧
        ∀ k, k < 1 → s.admits .fetch (s.npc k)) :=
  ⟨⟨rfl, fun _ _ => ⟨admitsAll_of_launch rfl _ _, isDevice_default rfl _⟩⟩,
    ⟨rfl, fun k hk => by obtain rfl : k = 0 := Nat.lt_one_iff.mp hk; rfl⟩⟩

theorem witness_StepRefusesUnlistedByte :
    let s := start g0 f0 0 [] [0xE2#8]
    s.admits .fetch s.pc ∧ (s.byteAt .fetch s.pc).toNat ∈ unlistedOpcodes := by decide

/-- Each of the four clauses: the first byte at EFFFh and at 0200h (nothing there; the device at F000h admits
it), the second and the third byte just past 01FFh. -/
theorem witness_FetchRefusalsComeInAddressOrder :
    mapRefusal smallMap .fetch 0xEFFF#16 = some (.unadmittedAccess 0xEFFF#16 .fetch) ∧
    mapRefusal smallMap .fetch 0xF000#16 = none ∧
    mapRefusal smallMap .fetch 0x0200#16 = some (.unadmittedAccess 0x0200#16 .fetch) ∧
    (let s := small 0x01FF#16 0 [0x3E#8];
      s.admits .fetch s.pc ∧ decodeOpcode (s.byteAt .fetch s.pc) = some (.f2 (.mviR .a)) ∧
        mapRefusal s.launch.memMap .fetch (s.pc + 1#16) = some (.unadmittedAccess 0x0200#16 .fetch)) ∧
    (let s := small 0x01FF#16 0 [0xCA#8];
      s.admits .fetch s.pc ∧ decodeOpcode (s.byteAt .fetch s.pc) = some (.f3 .jz) ∧
        mapRefusal s.launch.memMap .fetch (s.pc + 1#16) = some (.unadmittedAccess 0x0200#16 .fetch)) ∧
    (let s := small 0x01FE#16 0 [0xCA#8];
      s.admits .fetch s.pc ∧ decodeOpcode (s.byteAt .fetch s.pc) = some (.f3 .jz) ∧
        s.admits .fetch (s.pc + 1#16) ∧
        mapRefusal s.launch.memMap .fetch (s.pc + 2#16) = some (.unadmittedAccess 0x0200#16 .fetch)) :=
  ⟨rfl, rfl, rfl, ⟨rfl, rfl, rfl⟩, ⟨rfl, rfl, rfl⟩, ⟨rfl, rfl, rfl, rfl⟩⟩

theorem witness_EveryListedByteStepsInFullMemory :
    State.reset.AdmitsAll ∧ (State.reset.byteAt .fetch State.reset.pc).toNat ∉ unlistedOpcodes ∧
      (start g0 f0 0 [] [0x76#8]).AdmitsAll ∧
      ((start g0 f0 0 [] [0x76#8]).byteAt .fetch 0x0100#16).toNat ∈ unlistedOpcodes :=
  ⟨admitsAll_of_launch rfl, by decide, admitsAll_of_launch rfl, by decide⟩

/-- Each kind of stop: the byte, the map at the fetch, the map at a store into ROM. -/
theorem witness_StepStopsOnlyForByteOrMap :
    step (start g0 f0 0 [] [0x76#8]) = .refused (.unlistedOpcode 0x76#8 0x0100#16) ∧
      step (small 0xF100#16 0 []) = .refused (.unadmittedAccess 0xF100#16 .fetch) ∧
      step (small 0x0100#16 0 [0x36#8, 0xAA#8]) = .refused (.unadmittedAccess 0x0000#16 .write) :=
  ⟨rfl, rfl, rfl⟩

theorem witness_IllFormedTermsAreRefused :
    (Instr.ldax .hl).wellFormed = false ∧ (Instr.lxi .psw 0x0000).wellFormed = false ∧
      (Instr.pop .sp).wellFormed = false ∧ (Instr.push .sp).wellFormed = false := by decide

/-- A store that lists a byte, and one that removes its entry. -/
theorem witness_StepKeepsMemoryCanonical :
    let s := start (atHl 0) f0 0 [(0x2050#16, 0x5A#8)] [0x36#8, 0x00#8]
    s.Inv ∧ seen State.mem s = some [(0x0100, 0x36#8)] := by decide

theorem witness_PlacedInstructionRunsNext :
    State.reset.AdmitsAll ∧ (∀ k, k < 3 → State.reset.isDevice (State.reset.npc k) = false) ∧
      State.reset.Inv ∧ (Instr.jpe 0xFFFF).wellFormed = true ∧
      (Instr.mviM 0x00).wellFormed = true ∧ (Instr.rst 7).wellFormed = true :=
  ⟨admitsAll_of_launch rfl, fun _ _ => isDevice_default rfl _, rfl, rfl, rfl, rfl⟩

theorem witness_RegistersChangeOnlyAsTabled :
    exec (.movRR .b .a) State.reset = .next { State.reset with pc := 0x0001#16 } := rfl

/-- A rotate, and an instruction that is none. -/
theorem witness_FlagsChangeOnlyAsTabled :
    let s := start { g0 with a := 0x81#8 } f0 0 [] []
    exec .rlc s = .next (((s.setReg .a 0x03#8).setFlags { f0 with cy := true }).goto 0x0101#16) ∧
      writesAllFlags .rlc = false ∧ isRotate .rlc = true ∧
      exec .nop s = .next (s.goto 0x0101#16) ∧ writesAllFlags .nop = false ∧ isRotate .nop = false := ⟨rfl, rfl, rfl, rfl, rfl, rfl⟩

/-- A write of `sp` at the end of its range, a taken and an untaken return. -/
theorem witness_StackPointerMovesOnlyAsTabled :
    let s := start g0 f0 0xFFFF#16 [] []
    exec .ret s = .next ((s.setSp 0x0001#16).goto 0x0000#16) ∧
      exec .rnz s = .next ((s.setSp 0x0001#16).goto 0x0000#16) ∧
      exec .rz s = .next (s.goto 0x0101#16) := ⟨rfl, rfl, rfl⟩

/-- A jump that is not taken, at the end of the address space. -/
theorem witness_PcIsSequentialUnlessTransfer :
    let s := movedTo 0xFFFE#16 [] State.reset
    exec (.jz 0x1234) s = .next (s.goto 0x0001#16) ∧ transfers s (.jz 0x1234) = false ∧
      transfers s (.jnz 0x1234) = true := ⟨rfl, rfl, rfl⟩

/-- SHLD at FFFFh stores to FFFFh and 0000h. -/
theorem witness_MemoryChangesOnlyWhereStored :
    let s := start { g0 with h := 0x12#8, l := 0x34#8 } f0 0 [] []
    storedAddresses s (.shld 0xFFFF) = [0xFFFF#16, 0x0000#16] ∧
      exec (.shld 0xFFFF) s =
        .next ({ s with mem := [(0x0000, 0x12#8), (0xFFFF, 0x34#8)] }.goto 0x0103#16) := ⟨rfl, rfl⟩

theorem witness_HiddenStateIsWrittenBySimAlone :
    let s := start { g0 with a := 0x0D#8 } f0 0 [] []
    exec .sim s = .next ({ s with imask := 0b101#3 }.goto 0x0101#16) ∧ Instr.nop ≠ .sim ∧
      exec .nop s = .next (s.goto 0x0101#16) := ⟨rfl, by decide, rfl⟩

theorem witness_TraceGrowsByOutAndSimAlone :
    let s := start { g0 with a := 0xC0#8 } f0 0 [] []
    exec .sim s = .next ({ s with sod := true, trace := [.sod true] }.goto 0x0101#16) ∧
      exec (.out 0xFF) s = .next ({ s with trace := [.io 0xFF#8 0xC0#8] }.goto 0x0102#16) := ⟨rfl, rfl⟩

/-- Two states that differ in every hidden field and in the trace. -/
theorem witness_HiddenStateIsSeenByRimAlone :
    let s := start g0 f0 0 [] [0x30#8]
    let u : State :=
      { s with imask := 0b010#3, sod := true, r75 := true, ie := true, sid := true, trace := [.sod true] }
    s ≠ u ∧ s.visible = u.visible ∧ s.byteAt .fetch s.pc ≠ 0x20#8 := by decide

theorem witness_AuxCarryIsSeenByPushPswAlone :
    let s := start g0 f0 0 [] [0x98#8]
    let u := s.setFlags { f0 with ac := true }
    s ≠ u ∧ s.withoutAC = u.withoutAC ∧ s.byteAt .fetch s.pc ≠ 0xF5#8 := by decide

/-- Admitted reads at both ends of the address space, of a small map's RAM and of its device. -/
theorem witness_LdaLoadsAccumulator :
    State.reset.admits .read 0x0000#16 ∧ State.reset.admits .read 0xFFFF#16 ∧
      (small 0 0 []).admits .read 0x01FF#16 ∧ (small 0 0 []).admits .read 0xF000#16 := by decide

theorem witness_LdaxLoadsThroughPair :
    let s := start { g0 with b := 0xFF#8, c := 0xFF#8 } f0 0 [] []
    s.admits .read (concat (s.reg .b) (s.reg .c)) ∧ s.admits .read (concat (s.reg .d) (s.reg .e)) := by decide

theorem witness_LhldLoadsLThenH :
    State.reset.admits .read 0xFFFF#16 ∧ State.reset.admits .read (0xFFFF#16 + 1#16) := by decide

theorem witness_ShldStoresLThenH :
    State.reset.Inv ∧ State.reset.admits .write 0xFFFF#16 ∧
      State.reset.admits .write (0xFFFF#16 + 1#16) := by decide

theorem witness_MovLoadsRegisterFromHl : (start (atHl 0) f0 0 [] []).admits .read 0x2050#16 := by decide

/-- An operand in memory, and a launch whose `AC_SUB` is the recommended one. -/
theorem witness_SubtractInstructionsSetResultAndFlags :
    let s := start (atHl 0x99#8) f0 0 [(0x2050#16, 0x19#8)] []
    s.admits .read s.hl ∧ s.launch.acSub = .recommended := by decide

theorem witness_OrInstructionsSetResultAndFlags :
    let s := start (atHl 0x01#8) f0 0 [(0x2050#16, 0x06#8)] []
    s.admits .read s.hl := by decide

theorem witness_MovStoresRegisterAtHl :
    let s := start (atHl 0) f0 0 [] []
    s.Inv ∧ s.admits .write s.hl := by decide

theorem witness_MviStoresConstantAtHl :
    let s := start { g0 with h := 0xFF#8, l := 0xFF#8 } f0 0 [] []
    s.Inv ∧ s.admits .write s.hl := by decide

/-- MOV M,A onto the byte after itself, a listed byte of each length (ORA A; MVI A, the program P5 of
95_test_vectors.md; JZ), and 76h. -/
def storing (op : Byte) : State :=
  start { g0 with a := op, h := 0x01#8, l := 0x01#8 } f0 0 [] [0x77#8, 0x76#8, 0x5A#8, 0x12#8]

theorem witness_StoreIsSeenByNextFetch :
    (let s := storing 0xB7#8;
      s.Inv ∧ s.admits .write s.hl ∧ s.isDevice s.hl = false ∧ s.hl = s.pc + 1#16 ∧
        s.admits .fetch (s.pc + 1#16) ∧ decodeOpcode (s.reg .a) = some (.f1 (.oraR .a))) ∧
    (let s := storing 0x3E#8;
      s.Inv ∧ s.hl = s.pc + 1#16 ∧ decodeOpcode (s.reg .a) = some (.f2 (.mviR .a)) ∧
        s.admits .fetch (s.pc + 2#16) ∧ s.isDevice (s.pc + 2#16) = false) ∧
    (let s := storing 0xCA#8;
      s.Inv ∧ s.hl = s.pc + 1#16 ∧ decodeOpcode (s.reg .a) = some (.f3 .jz) ∧
        s.admits .fetch (s.pc + 2#16) ∧ s.isDevice (s.pc + 2#16) = false ∧
        s.admits .fetch (s.pc + 3#16) ∧ s.isDevice (s.pc + 3#16) = false) ∧
    (let s := storing 0x76#8;
      s.Inv ∧ s.hl = s.pc + 1#16 ∧ decodeOpcode (s.reg .a) = none) :=
  ⟨⟨rfl, rfl, rfl, rfl, rfl, rfl⟩, ⟨rfl, rfl, rfl, rfl, rfl⟩, ⟨rfl, rfl, rfl, rfl, rfl, rfl, rfl⟩,
    ⟨rfl, rfl, rfl⟩⟩

/-- The stack at both ends of the address space, `sp` = 0001h and FFFFh; every pair. -/
theorem witness_PushStoresPair :
    let s := start g0 f0 0x0001#16 [] []
    s.Inv ∧ s.admits .write (s.sp - 1#16) ∧ s.admits .write (s.sp - 2#16) ∧
      (RegPair.hl, Reg.h, Reg.l) ∈ [(RegPair.bc, Reg.b, Reg.c), (.de, .d, .e), (.hl, .h, .l)] := by decide

/-- Flags in the recommended layout, and in one from the other end of the byte. -/
theorem witness_PushPswStoresAccumulatorAndFlags :
    let s := start g0 { f0 with s := true } 0x0000#16 [] []
    s.Inv ∧ s.admits .write (s.sp - 1#16) ∧ s.admits .write (s.sp - 2#16) ∧
      s.launch.pswLayout = Config.recommendedPswLayout ∧ Config.recommendedPswLayout.wf = true ∧
      (5 : Fin 8) ∉ [Config.recommendedPswLayout.s, Config.recommendedPswLayout.z,
        Config.recommendedPswLayout.ac, Config.recommendedPswLayout.p, Config.recommendedPswLayout.cy] ∧
      (PswLayout.mk 0 1 2 3 4).wf = true := by decide

theorem witness_PopLoadsPair :
    let s := start g0 f0 0xFFFF#16 [(0xFFFF#16, 0x34#8), (0x0000#16, 0x12#8)] []
    s.admits .read s.sp ∧ s.admits .read (s.sp + 1#16) ∧
      (RegPair.bc, Reg.b, Reg.c) ∈ [(RegPair.bc, Reg.b, Reg.c), (.de, .d, .e), (.hl, .h, .l)] := by decide

theorem witness_PushThenPopRestores :
    let s := start g0 f0 0x0001#16 [] []
    RegPair.psw.admittedByStack = true ∧ s.Inv ∧ s.launch.pswLayout.wf = true ∧
      s.IsRam (s.sp - 1#16) ∧ s.IsRam (s.sp - 2#16) := by decide

theorem witness_ShldThenLhldRestoresHl :
    State.reset.Inv ∧ State.reset.IsRam 0xFFFF#16 ∧ State.reset.IsRam (0xFFFF#16 + 1#16) := by decide

/-- Each clause at the edges of the small map: LHLD and POP at 0200h and 01FFh, SHLD at 00FFh and 01FFh,
PUSH with `sp` at 0100h and 0101h. -/
theorem witness_DataRefusalsComeInAccessOrder :
    RegPair.psw.admittedByStack = true ∧
    mapRefusal smallMap .read 0x0200#16 = some (.unadmittedAccess 0x0200#16 .read) ∧
    (mapRefusal smallMap .read 0x01FF#16 = none ∧
      mapRefusal smallMap .read (0x01FF#16 + 1#16) = some (.unadmittedAccess 0x0200#16 .read)) ∧
    mapRefusal smallMap .write 0x00FF#16 = some (.unadmittedAccess 0x00FF#16 .write) ∧
    (mapRefusal smallMap .write 0x01FF#16 = none ∧
      mapRefusal smallMap .write (0x01FF#16 + 1#16) = some (.unadmittedAccess 0x0200#16 .write)) ∧
    (mapRefusal smallMap .write (0x0100#16 - 1#16) = some (.unadmittedAccess 0x00FF#16 .write)) ∧
    (mapRefusal smallMap .write (0x0101#16 - 1#16) = none ∧
      mapRefusal smallMap .write (0x0101#16 - 2#16) = some (.unadmittedAccess 0x00FF#16 .write)) := by
  decide

/-- The one-byte clauses, with BC, DE and HL at 0200h for the reads and HL at 00FFh (ROM) for the writes; a
taken conditional return with `sp` at 0200h and at 01FFh. -/
theorem witness_DataRefusalsComeInAccessOrder_oneByteAndReturns :
    (let s := { small 0 0x0200#16 [] with
        regs := { g0 with b := 0x02#8, d := 0x02#8, h := 0x02#8 } };
      mapRefusal s.launch.memMap .read s.bc = some (.unadmittedAccess 0x0200#16 .read) ∧
      mapRefusal s.launch.memMap .read s.de = some (.unadmittedAccess 0x0200#16 .read) ∧
      mapRefusal s.launch.memMap .read s.hl = some (.unadmittedAccess 0x0200#16 .read) ∧
      mapRefusal s.launch.memMap .read s.sp = some (.unadmittedAccess 0x0200#16 .read) ∧
      returnCond .rnz = some .nz ∧ s.flags.holds .nz = true) ∧
    (let s := { small 0 0x01FF#16 [] with regs := { g0 with l := 0xFF#8 } };
      mapRefusal s.launch.memMap .write s.hl = some (.unadmittedAccess 0x00FF#16 .write) ∧
      s.admits .read s.sp ∧
      mapRefusal s.launch.memMap .read (s.sp + 1#16) = some (.unadmittedAccess 0x0200#16 .read) ∧
      returnCond .rp = some .p ∧ s.flags.holds .p = true) := by decide

theorem witness_RetLoadsPcFromStack :
    let s := returning f0 0xC9#8
    s.admits .read s.sp ∧ s.admits .read (s.sp + 1#16) := by decide

/-- A condition that holds and one that does not. -/
theorem witness_ConditionalReturnsFollowTheirFlag :
    let s := start g0 f0 0xFFFF#16 [] []
    (Instr.rnz, true) ∈ [(Instr.rnz, !s.flags.z), (.rz, s.flags.z), (.rnc, !s.flags.cy), (.rc, s.flags.cy),
      (.rpo, !s.flags.p), (.rpe, s.flags.p), (.rp, !s.flags.s), (.rm, s.flags.s)] ∧
    (Instr.rm, false) ∈ [(Instr.rnz, !s.flags.z), (.rz, s.flags.z), (.rnc, !s.flags.cy), (.rc, s.flags.cy),
      (.rpo, !s.flags.p), (.rpe, s.flags.p), (.rp, !s.flags.s), (.rm, s.flags.s)] ∧
    s.admits .read s.sp ∧ s.admits .read (s.sp + 1#16) ∧
    s.isDevice s.sp = false ∧ s.isDevice (s.sp + 1#16) = false := by decide

theorem witness_RstSavesNextAddressAndRestarts :
    let s := start g0 f0 0x0001#16 [] []
    s.Inv ∧ s.admits .write (s.sp - 1#16) ∧ s.admits .write (s.sp - 2#16) := by decide

theorem witness_RstThenRetComesBack :
    let s := start g0 f0 0x0001#16 [] []
    s.Inv ∧ s.IsRam (s.sp - 1#16) ∧ s.IsRam (s.sp - 2#16) := by decide

/-- A run that is over at once, one that is over after one step, and one whose step is refused. -/
theorem witness_RunsEndAtEndPc :
    State.reset.pc = 0x0000#16 ∧
      runTo 0x0001#16 1 State.reset = .over { State.reset with pc := 0x0001#16 } ∧
      State.reset.pc ≠ 0x0001#16 ∧ step State.reset = .next { State.reset with pc := 0x0001#16 } ∧
      (let s := start g0 f0 0 [] [0x76#8];
        s.pc ≠ 0x0000#16 ∧ step s = .refused (.unlistedOpcode 0x76#8 0x0100#16)) :=
  ⟨rfl, rfl, by decide, rfl, by decide, rfl⟩

/-- Under another `OUT_DEV` (20_memory.md R53). -/
theorem witness_OutRecordsPortAndAccumulator :
    State.reset.launch.outDev = .recorded ∧
      ({ State.reset with launch := { Config.defaultLaunch with outDev := .other 3 } } : State).launch.outDev =
        .other 3 := ⟨rfl, rfl⟩

/-- A store to the device at F000h: the device receives it once and memory stays as it was. -/
theorem witness_AccessesArePerformedOnceInOrder :
    let s := { small 0x0100#16 0 [] with regs := { g0 with h := 0xF0#8 } }
    dataAccesses s (.mviM 0xAA) = [.write 0xF000#16 0xAA#8] ∧
      exec (.mviM 0xAA) s = .next { s with bus := [.access .write 0xF000#16 0xAA#8], pc := 0x0102#16 } :=
  ⟨rfl, rfl⟩

/-- An instruction whose second access is not admitted, and one whose accesses all are. -/
theorem witness_InstructionStopsAtFirstUnadmittedAccess :
    (Instr.lhld 0x01FF).wellFormed = true ∧
      firstRefusal smallMap (dataAccesses (small 0 0 []) (.lhld 0x01FF)) =
        some (.unadmittedAccess 0x0200#16 .read) ∧
      firstRefusal smallMap (dataAccesses (small 0 0 []) (.lhld 0x01FE)) = none := ⟨rfl, rfl, rfl⟩

/-- Plain storage at 01FEh and 01FFh, a device at F000h. -/
theorem witness_PlainStorageReadsAsStored :
    let s := small 0 0 []
    s.isDevice 0x01FE#16 = false ∧ s.isDevice (0x01FE#16 + 1#16) = false ∧ s.Inv ∧
      s.isDevice 0xF000#16 = true ∧ s.isDevice 0xF0FF#16 = true := by decide

/-! ### Devices (20_memory.md R59; log 26) -/

/-- LDA from a device: one access, whose byte, whatever it is, goes to A and to the record. -/
theorem test_device_read :
    let s := small 0x0100#16 0 [0x3A#8, 0x00#8, 0xF0#8]
    let v := Config.deviceByte s.launch [] .read 0xF000#16
    step s = .next (({ s with bus := [.access .read 0xF000#16 v] }.setReg .a v).goto 0x0103#16) := rfl

/-- PUSH B onto two locations of a device: the high byte first. -/
theorem test_device_push :
    let s := { small 0x0100#16 0xF010#16 [0xC5#8] with regs := { g0 with b := 0x12#8, c := 0x34#8 } }
    step s = .next ({ s with
      bus := [.access .write 0xF00F#16 0x12#8, .access .write 0xF00E#16 0x34#8], sp := 0xF00E#16 }.goto 0x0101#16) := rfl

/-- OUT under another `OUT_DEV`: the trace stays empty and the device has the byte. -/
theorem test_out_other_device :
    let s := { start { g0 with a := 0x41#8 } f0 0 [] [0xD3#8, 0x10#8] with
      launch := { Config.defaultLaunch with outDev := .other 3 } }
    seen (fun t => (t.trace, t.bus)) s = some ([], [.port 0x10#8 0x41#8]) := by decide

end Sys2Proof.Tests
end

section
/-! PROOFS. What can stop a step (00_scope.md R13): the fetch by the byte at `pc` or by the map, a
well-formed instruction by the map alone, and no byte decodes to an ill-formed term (log 18). -/

namespace Sys2Proof

/-! ### What a first byte selects is well formed -/

/-- A row of the opcode table is well formed when it is so with every operand. -/
def Format.WellFormed : Format → Prop
  | .f1 i => i.wellFormed = true
  | .f2 mk => ∀ v, (mk v).wellFormed = true
  | .f3 mk => ∀ w, (mk w).wellFormed = true

theorem decodeQuadrant0_wellFormed {y z : BitVec 3} {f : Format} (h : decodeQuadrant0 y z = some f) :
    f.WellFormed := by
  unfold decodeQuadrant0 at h
  repeat' split at h
  all_goals cases h <;> simp [Format.WellFormed, Instr.wellFormed, RegPair.admittedByLxi,
    RegPair.admittedByLdax]

theorem decodeQuadrant1_wellFormed {y z : BitVec 3} {f : Format} (h : decodeQuadrant1 y z = some f) :
    f.WellFormed := by
  unfold decodeQuadrant1 at h
  split at h <;> cases h <;> rfl

theorem decodeQuadrant2_wellFormed {y z : BitVec 3} {f : Format} (h : decodeQuadrant2 y z = some f) :
    f.WellFormed := by
  unfold decodeQuadrant2 at h
  split at h <;> cases h <;> rfl

theorem decodeQuadrant3_wellFormed {y z : BitVec 3} {f : Format} (h : decodeQuadrant3 y z = some f) :
    f.WellFormed := by
  unfold decodeQuadrant3 at h
  split at h <;> cases h <;> simp [Format.WellFormed, Instr.wellFormed, RegPair.admittedByStack]

theorem decodeOpcode_wellFormed {op : Byte} {f : Format} (h : decodeOpcode op = some f) :
    f.WellFormed := by
  unfold decodeOpcode at h
  split at h
  · exact decodeQuadrant0_wellFormed h
  · exact decodeQuadrant1_wellFormed h
  · exact decodeQuadrant2_wellFormed h
  · exact decodeQuadrant3_wellFormed h

end Sys2Proof

namespace Sys2Proof.Machine

theorem decodeOpcode_eq_none {op : Byte} (h : decodeOpcode op = none) : op.toNat ∈ unlistedOpcodes := by
  simpa [h] using decodeOpcode_spec op

theorem fetchInstr_wellFormed {s t : State} {i : Instr} (h : fetchInstr s = .ok (i, t)) :
    i.wellFormed = true := by
  obtain ⟨-, ⟨hrow, -⟩ | ⟨_, hrow, -, rfl, -⟩ | ⟨_, hrow, -, -, rfl, -⟩⟩ := fetchInstr_eq_ok.mp h
  · exact decodeOpcode_wellFormed hrow
  · exact decodeOpcode_wellFormed hrow _
  · exact decodeOpcode_wellFormed hrow _

theorem fetchInstr_launch {s t : State} {i : Instr} (h : fetchInstr s = .ok (i, t)) :
    t.launch = s.launch := by rw [fetchInstr_frame h]

/-! ### Operations that only the map stops -/

/-- `r` is `UnadmittedAccess` for an access the map `m` does not let through (20_memory.md R52). -/
def UnadmittedBy (m : List Region) (r : Refusal) : Prop :=
  ∃ (k : AccessKind) (x : Word), r = .unadmittedAccess x k ∧ mapRefusal m k x = some r

theorem unadmittedBy_of_mapRefusal {m : List Region} {k : AccessKind} {x : Word} {r : Refusal}
    (h : mapRefusal m k x = some r) : UnadmittedBy m r := ⟨k, x, mapRefusal_eq_some h, h⟩

/-- Whatever stops the operation is an access the map `m` does not let through. -/
def StopsOnlyByMap {α : Type} (m : List Region) (c : Except Refusal α) : Prop :=
  ∀ r, c = .error r → UnadmittedBy m r

section Rules

variable {α β : Type} {m : List Region} {s : State}

theorem stopsOnlyByMap_ok (a : α) : StopsOnlyByMap m (.ok a) := nofun

theorem bind_eq_error {c : Except Refusal α} {f : α → Except Refusal β} {r : Refusal} :
    (c >>= f) = .error r ↔ c = .error r ∨ ∃ a, c = .ok a ∧ f a = .error r := by
  cases c <;> simp

/-- A sequence is stopped only by the map when each part is, the second one after any answer that the
first one can give. -/
theorem StopsOnlyByMap.bind {c : Except Refusal α} {f : α → Except Refusal β} (hc : StopsOnlyByMap m c)
    (hf : ∀ a, c = .ok a → StopsOnlyByMap m (f a)) : StopsOnlyByMap m (c >>= f) := by
  intro r h
  obtain h | ⟨a, ha, h⟩ := bind_eq_error.mp h
  · exact hc r h
  · exact hf a ha r h

/-- An operation followed by a change of the state that cannot stop. -/
theorem StopsOnlyByMap.bind_ok {c : Except Refusal α} {g : α → β} (hc : StopsOnlyByMap m c) :
    StopsOnlyByMap m (c >>= fun a => .ok (g a)) := hc.bind fun a _ => stopsOnlyByMap_ok (g a)

theorem settle_refused_unadmittedBy {c : Except Refusal State} {r : Refusal} (hc : StopsOnlyByMap m c)
    (h : settle c = .refused r) : UnadmittedBy m r := hc r (settle_eq_refused.mp h)

/-- An operand form that gives something refuses nothing (10_state.md R23). -/
theorem admitted_stopsOnlyByMap {x : Option α} (name : String) (h : x.isSome = true) :
    StopsOnlyByMap m (admitted name x) := by
  obtain ⟨a, rfl⟩ := Option.isSome_iff_exists.mp h
  exact stopsOnlyByMap_ok a

theorem readByte_eq_error {k : AccessKind} {x : Word} {r : Refusal} :
    readByte k s x = .error r ↔ mapRefusal s.launch.memMap k x = some r := by
  unfold readByte
  split <;> next h => simp [h]

theorem writeByte_eq_error {x : Word} {v : Byte} {r : Refusal} :
    writeByte s x v = .error r ↔ mapRefusal s.launch.memMap .write x = some r := by
  unfold writeByte
  split <;> next h => simp [h]

theorem readByte_stopsOnlyByMap (hm : s.launch.memMap = m) (k : AccessKind) (x : Word) :
    StopsOnlyByMap m (readByte k s x) := fun _ h =>
  unadmittedBy_of_mapRefusal (hm ▸ readByte_eq_error.mp h)

theorem writeByte_stopsOnlyByMap (hm : s.launch.memMap = m) (x : Word) (v : Byte) :
    StopsOnlyByMap m (writeByte s x v) := fun _ h =>
  unadmittedBy_of_mapRefusal (hm ▸ writeByte_eq_error.mp h)

theorem readWord_stopsOnlyByMap (hm : s.launch.memMap = m) (x : Word) :
    StopsOnlyByMap m (readWord s x) := by
  refine (readByte_stopsOnlyByMap hm _ _).bind fun a ha => ?_
  obtain ⟨-, rfl⟩ := readByte_eq_ok.mp ha
  exact (readByte_stopsOnlyByMap (by simpa using hm) _ _).bind_ok

theorem writeWord_stopsOnlyByMap (hm : s.launch.memMap = m) (x w : Word) :
    StopsOnlyByMap m (writeWord s x w) := by
  refine (writeByte_stopsOnlyByMap hm _ _).bind fun a ha => ?_
  obtain ⟨-, rfl⟩ := writeByte_eq_ok.mp ha
  exact writeByte_stopsOnlyByMap (by simpa using hm) _ _

theorem pushWord_stopsOnlyByMap (hm : s.launch.memMap = m) (w : Word) :
    StopsOnlyByMap m (pushWord s w) := by
  refine (writeByte_stopsOnlyByMap hm _ _).bind fun a ha => ?_
  obtain ⟨-, rfl⟩ := writeByte_eq_ok.mp ha
  exact (writeByte_stopsOnlyByMap (by simpa using hm) _ _).bind_ok

theorem popWord_stopsOnlyByMap (hm : s.launch.memMap = m) : StopsOnlyByMap m (popWord s) :=
  (readWord_stopsOnlyByMap hm _).bind_ok

theorem restart_stopsOnlyByMap (hm : s.launch.memMap = m) (n : BitVec 3) (npc : Word) :
    StopsOnlyByMap m (restart s n npc) := (pushWord_stopsOnlyByMap hm _).bind_ok

theorem doReturn_stopsOnlyByMap (hm : s.launch.memMap = m) : StopsOnlyByMap m (doReturn s) :=
  (popWord_stopsOnlyByMap hm).bind_ok

theorem returnIf_stopsOnlyByMap (hm : s.launch.memMap = m) (cc : Cond) :
    StopsOnlyByMap m (returnIf s cc) := by
  unfold returnIf
  split
  · exact doReturn_stopsOnlyByMap hm
  · exact stopsOnlyByMap_ok _

end Rules

/-! ### The operand forms give something exactly for the pairs of R23 -/

theorem ldaxAddress_isSome (s : State) (p : RegPair) :
    (ldaxAddress s p).isSome = p.admittedByLdax := by cases p <;> rfl

theorem lxiWrite_isSome (s : State) (p : RegPair) (w : Word) :
    (lxiWrite s p w).isSome = p.admittedByLxi := by cases p <;> rfl

theorem pushOperand_isSome (s : State) (p : RegPair) :
    (pushOperand s p).isSome = p.admittedByStack := by cases p <;> rfl

theorem popWrite_isSome (s : State) (p : RegPair) (w : Word) :
    (popWrite s p w).isSome = p.admittedByStack := by cases p <;> rfl

/-- What PUSH stores is taken under the same launch. -/
theorem pushOperand_launch {s t : State} {p : RegPair} {w : Word} (h : pushOperand s p = some (w, t)) :
    t.launch = s.launch := by
  cases p <;> cases h <;> rfl

/-! ### What stops an instruction -/

section Meanings

variable {s : State} {r : Refusal}

theorem execLdax_refused {p : RegPair} (hw : p.admittedByLdax = true) (h : execLdax p s = .refused r) :
    UnadmittedBy s.launch.memMap r :=
  settle_refused_unadmittedBy
    ((admitted_stopsOnlyByMap _ ((ldaxAddress_isSome s p).trans hw)).bind fun _ _ =>
      (readByte_stopsOnlyByMap rfl _ _).bind_ok) h

theorem execLxi_refused {p : RegPair} {w : Word} (hw : p.admittedByLxi = true)
    (h : execLxi p w s = .refused r) : UnadmittedBy s.launch.memMap r :=
  settle_refused_unadmittedBy
    (admitted_stopsOnlyByMap _ ((lxiWrite_isSome s p w).trans hw)).bind_ok h

theorem execPop_refused {p : RegPair} (hw : p.admittedByStack = true) (h : execPop p s = .refused r) :
    UnadmittedBy s.launch.memMap r :=
  settle_refused_unadmittedBy
    ((popWord_stopsOnlyByMap rfl).bind fun _ _ =>
      (admitted_stopsOnlyByMap _ ((popWrite_isSome _ p _).trans hw)).bind_ok) h

theorem execPush_refused {p : RegPair} (hw : p.admittedByStack = true) (h : execPush p s = .refused r) :
    UnadmittedBy s.launch.memMap r := by
  refine settle_refused_unadmittedBy
    ((admitted_stopsOnlyByMap _ ((pushOperand_isSome s p).trans hw)).bind fun a ha => ?_) h
  have hl := pushOperand_launch (admitted_eq_ok.mp ha)
  exact (pushWord_stopsOnlyByMap (congrArg Launch.memMap hl) _).bind_ok

/-- A well-formed instruction is stopped only by an access the launch's map does not let through: an
instruction's meaning either answers a next state on every path or makes its accesses through the map. -/
theorem exec_refused_unadmittedBy {i : Instr} (hw : i.wellFormed = true) (h : exec i s = .refused r) :
    UnadmittedBy s.launch.memMap r := by
  cases i with
  | jpe | jz | jnz | pchl | sphl | movRR | mviR | nop | oraR | ori | ral | rar | rlc | rrc | out | rim
  | sim | sbbR | sbi => cases h
  | lda | movRM | oraM | sbbM =>
    exact settle_refused_unadmittedBy (readByte_stopsOnlyByMap rfl _ _).bind_ok h
  | movMR | mviM => exact settle_refused_unadmittedBy (writeByte_stopsOnlyByMap rfl _ _).bind_ok h
  | lhld => exact settle_refused_unadmittedBy (readWord_stopsOnlyByMap rfl _).bind_ok h
  | shld => exact settle_refused_unadmittedBy (writeWord_stopsOnlyByMap rfl _ _).bind_ok h
  | ldax => exact execLdax_refused hw h
  | lxi => exact execLxi_refused hw h
  | pop => exact execPop_refused hw h
  | push => exact execPush_refused hw h
  | ret => exact settle_refused_unadmittedBy (doReturn_stopsOnlyByMap rfl) h
  | rc | rnc | rp | rm | rpe | rpo | rz | rnz =>
    exact settle_refused_unadmittedBy (returnIf_stopsOnlyByMap rfl _) h
  | rst => exact settle_refused_unadmittedBy (restart_stopsOnlyByMap rfl _ _) h

end Meanings

/-! ### What stops a step -/

theorem lookupRow_eq_error {op : Byte} {x : Word} {r : Refusal} :
    lookupRow op x = .error r ↔ decodeOpcode op = none ∧ r = .unlistedOpcode op x := by
  unfold lookupRow
  split <;> next h => simp [h, eq_comm]

/-- A fetch is stopped by the byte at `pc`, or by the map at one of the instruction's bytes
(10_state.md R26, 20_memory.md R67). -/
theorem fetchInstr_refused {s : State} {r : Refusal} (h : fetchInstr s = .error r) :
    (decodeOpcode (s.byteAt .fetch s.pc) = none ∧ r = .unlistedOpcode (s.byteAt .fetch s.pc) s.pc) ∨
      UnadmittedBy s.launch.memMap r := by
  obtain h0 | ⟨_, h0, h⟩ := bind_eq_error.mp h
  · exact .inr (readByte_stopsOnlyByMap rfl _ _ r h0)
  obtain ⟨-, rfl⟩ := readByte_eq_ok.mp h0
  obtain hrow | ⟨row, -, h⟩ := bind_eq_error.mp h
  · exact .inl (lookupRow_eq_error.mp hrow)
  refine .inr ?_
  cases row with
  | f1 i => cases h
  | f2 mk => exact (readByte_stopsOnlyByMap (by simp) _ _).bind_ok r h
  | f3 mk =>
    refine ((readByte_stopsOnlyByMap (by simp) _ _).bind fun a ha => ?_) r h
    obtain ⟨-, rfl⟩ := readByte_eq_ok.mp ha
    exact (readByte_stopsOnlyByMap (by simp) _ _).bind_ok

theorem step_eq_refused {s : State} {r : Refusal} :
    step s = .refused r ↔
      fetchInstr s = .error r ∨ ∃ i s1, fetchInstr s = .ok (i, s1) ∧ exec i s1 = .refused r := by
  unfold step
  split
  · next i s1 h => simp [h]
  · next q h => simp [h]

/-- Settles O8: a step is the fetch, stopped by the byte at `pc` or by the map, and then a well-formed
instruction, stopped by the map alone, under the launch the fetch left as it was. -/
theorem stepStopsOnlyForByteOrMap : Obligations.StepStopsOnlyForByteOrMap := by
  intro s r h
  obtain hfetch | ⟨i, s1, hfetch, hexec⟩ := step_eq_refused.mp h
  · obtain ⟨hnone, rfl⟩ | hmap := fetchInstr_refused hfetch
    · exact .inl ⟨rfl, decodeOpcode_eq_none hnone⟩
    · exact .inr hmap
  · have hmap := exec_refused_unadmittedBy (fetchInstr_wellFormed hfetch) hexec
    rw [fetchInstr_launch hfetch] at hmap
    exact .inr hmap

end Sys2Proof.Machine
end

section
/-! PROOFS. The decoder against the encoder, what a step fetches and runs, and which bytes and terms go
on (10_state.md R26, R27, R42; 30_encoding.md R70 to R82; logs 4, 18, 19). -/

namespace Sys2Proof

/-- A row of the opcode table stands in one of the four quadrants (R77). -/
theorem decodeOpcode_quadrant {op : Byte} {f : Format} (h : decodeOpcode op = some f) :
    ∃ y z, decodeQuadrant0 y z = some f ∨ decodeQuadrant1 y z = some f ∨ decodeQuadrant2 y z = some f ∨
      decodeQuadrant3 y z = some f := by
  refine ⟨op.extractLsb' 3 3, op.extractLsb' 0 3, ?_⟩
  unfold decodeOpcode at h
  split at h
  · exact .inl h
  · exact .inr (.inl h)
  · exact .inr (.inr (.inl h))
  · exact .inr (.inr (.inr h))

/-- A row's instructions have the row's length, whatever their operand, and one first byte (R70, R71). -/
def Format.Uniform : Format → Prop
  | .f1 i => i.length = 1
  | .f2 mk => ∀ v, (mk v).length = 2 ∧ (mk v).opcode = (mk 0).opcode
  | .f3 mk => ∀ w, (mk w).length = 3 ∧ (mk w).opcode = (mk 0).opcode

theorem decodeOpcode_uniform {op : Byte} {f : Format} (h : decodeOpcode op = some f) : f.Uniform := by
  obtain ⟨y, z, h | h | h | h⟩ := decodeOpcode_quadrant h
  · unfold decodeQuadrant0 at h
    repeat' split at h
    all_goals cases h <;> simp [Format.Uniform, Instr.length, Instr.opcode]
  · unfold decodeQuadrant1 at h
    split at h <;> cases h <;> rfl
  · unfold decodeQuadrant2 at h
    split at h <;> cases h <;> rfl
  · unfold decodeQuadrant3 at h
    split at h <;> cases h <;> simp [Format.Uniform, Instr.length, Instr.opcode]

end Sys2Proof

namespace Sys2Proof.Machine

theorem opcode_of_f1 {op : Byte} {i : Instr} (h : decodeOpcode op = some (.f1 i)) : i.opcode = op := by
  have hspec := decodeOpcode_spec op
  simp only [h, encode, List.cons.injEq] at hspec
  obtain ⟨-, hop, -⟩ := hspec
  exact hop

theorem opcode_of_f2 {op : Byte} {mk : Byte → Instr} (h : decodeOpcode op = some (.f2 mk)) (v : Byte) :
    (mk v).opcode = op := by
  have hspec := decodeOpcode_spec op
  simp only [h] at hspec
  exact (decodeOpcode_uniform h v).2.trans hspec.2

theorem opcode_of_f3 {op : Byte} {mk : Word → Instr} (h : decodeOpcode op = some (.f3 mk)) (w : Word) :
    (mk w).opcode = op := by
  have hspec := decodeOpcode_spec op
  simp only [h] at hspec
  exact (decodeOpcode_uniform h w).2.trans hspec.2

/-- The first byte of the instruction a fetch gives is the byte at `pc` (10_state.md R26). -/
theorem fetchInstr_opcode {s t : State} {i : Instr} (h : fetchInstr s = .ok (i, t)) :
    i.opcode = s.byteAt .fetch s.pc := by
  obtain ⟨-, ⟨hrow, -⟩ | ⟨_, hrow, -, rfl, -⟩ | ⟨_, hrow, -, -, rfl, -⟩⟩ := fetchInstr_eq_ok.mp h
  · exact opcode_of_f1 hrow
  · exact opcode_of_f2 hrow _
  · exact opcode_of_f3 hrow _

/-! ### The decoder and the encoder -/

/-- What decodes has as many bytes as its row says, the operand after the first byte (R70, R76, R80). -/
theorem decode_eq_ok {o : OperandOrder} {bs rest : List Byte} {i : Instr} :
    decode o bs = .ok (i, rest) ↔
      (∃ op, bs = op :: rest ∧ decodeOpcode op = some (.f1 i)) ∨
      (∃ op b2 mk, bs = op :: b2 :: rest ∧ decodeOpcode op = some (.f2 mk) ∧ i = mk b2) ∨
      (∃ op b2 b3 mk, bs = op :: b2 :: b3 :: rest ∧ decodeOpcode op = some (.f3 mk) ∧
        i = mk (operandWord o b2 b3)) := by
  constructor
  · intro h
    unfold decode at h
    repeat' split at h
    all_goals cases h
    · exact .inl ⟨_, rfl, ‹_›⟩
    · exact .inr (.inl ⟨_, _, _, rfl, ‹_›, rfl⟩)
    · exact .inr (.inr ⟨_, _, _, _, rfl, ‹_›, rfl⟩)
  · rintro (⟨op, rfl, h⟩ | ⟨op, b2, mk, rfl, h, rfl⟩ | ⟨op, b2, b3, mk, rfl, h, rfl⟩) <;> simp [decode, h]

theorem decodeOpcode_rst (n : BitVec 3) :
    decodeOpcode (Instr.rst n).opcode = some (.f1 (.rst n)) := by
  have codes : ∀ k : Fin 8, decodeOpcode (Instr.rst (.ofFin k)).opcode = some (.f1 (.rst (.ofFin k))) := by
    intro k
    fin_cases k <;> rfl
  exact codes n.toFin

theorem decodeOpcode_mviR (r : Reg) (v : Byte) :
    decodeOpcode (Instr.mviR r v).opcode = some (.f2 (.mviR r)) := by
  cases r <;> simp only [Instr.opcode] <;> rfl

/-- An encoded instruction of the spec decodes to itself (R70, R80). -/
theorem decode_encode (o : OperandOrder) {i : Instr} (hw : i.wellFormed = true) (rest : List Byte) :
    decode o (encode o i ++ rest) = .ok (i, rest) := by
  cases i with
  | jpe w | jz w | jnz w | lda w | lhld w | shld w =>
    refine decode_f3 o ?_ w rest
    simp only [Instr.opcode]
    rfl
  | mviM v | ori v | sbi v | out v =>
    refine decode_f2 o ?_ v rest
    simp only [Instr.opcode]
    rfl
  | mviR r v => exact decode_f2 o (decodeOpcode_mviR r v) v rest
  | lxi p w =>
    cases p with
    | psw => cases hw
    | bc | de | hl | sp =>
      refine decode_f3 o ?_ w rest
      simp only [Instr.opcode]
      rfl
  | ldax p =>
    cases p with
    | hl | sp | psw => cases hw
    | bc | de => exact decode_f1 o rfl rest
  | pop p | push p =>
    cases p with
    | sp => cases hw
    | bc | de | hl | psw => exact decode_f1 o rfl rest
  | movRR rd rs => cases rd <;> cases rs <;> exact decode_f1 o rfl rest
  | movMR r | movRM r | oraR r | sbbR r => cases r <;> exact decode_f1 o rfl rest
  | rst n => exact decode_f1 o (decodeOpcode_rst n) rest
  | pchl | sphl | nop | oraM | ral | rar | rlc | rrc | rim | sim | ret | rc | rnc | rp | rm | rpe | rpo
  | rz | rnz | sbbM => exact decode_f1 o rfl rest

/-- The family of Laws/PerInstr.lean, for every instruction (R70). -/
theorem encodingLength (i : Instr) : Laws.EncodingLength.Statement i := by
  cases i <;> exact ⟨by intro o; cases o <;> rfl, by simp [Instr.length]⟩

/-! ### What a step runs -/

/-- The bytes that `n` fetches return are as many. -/
theorem fetched_length (n : Nat) (x : Word) (s : State) : (fetched n x s).1.length = n := by
  induction n generalizing x s with
  | zero => rfl
  | succ n ih => simp [fetched, ih]

theorem npc_zero (s : State) : s.npc 0 = s.pc := by simp [State.npc]

/-- Where the fetched bytes decode with none left over, that is what the fetch gives, with the state that
as many fetches leave (10_state.md R26, R27; 20_memory.md R59, R67). -/
theorem fetchInstr_of_fetched {s : State} {i : Instr} {n : Nat}
    (hd : decode s.launch.operandOrder (fetched n s.pc s).1 = .ok (i, []))
    (hadm : ∀ k, k < n → s.admits .fetch (s.npc k)) :
    i.length = n ∧ fetchInstr s = .ok (i, (fetched n s.pc s).2) := by
  have hlen := fetched_length n s.pc s
  have h0 : 0 < n → s.admits .fetch s.pc := fun h => npc_zero s ▸ hadm 0 h
  rw [fetchInstr_eq_ok]
  obtain ⟨op, hbs, hrow⟩ | ⟨op, b2, mk, hbs, hrow, rfl⟩ | ⟨op, b2, b3, mk, hbs, hrow, rfl⟩ :=
    decode_eq_ok.mp hd
  · obtain rfl : n = 1 := by rw [← hlen, hbs]; rfl
    obtain ⟨rfl, -⟩ := List.cons.inj hbs
    exact ⟨decodeOpcode_uniform hrow, h0 (by omega), .inl ⟨hrow, rfl⟩⟩
  · obtain rfl : n = 2 := by rw [← hlen, hbs]; rfl
    simp only [fetched, List.cons.injEq, and_true] at hbs
    obtain ⟨rfl, rfl⟩ := hbs
    exact ⟨(decodeOpcode_uniform hrow _).1, h0 (by omega),
      .inr (.inl ⟨mk, hrow, hadm 1 (by omega), rfl, rfl⟩)⟩
  · obtain rfl : n = 3 := by rw [← hlen, hbs]; rfl
    simp only [fetched, List.cons.injEq, and_true] at hbs
    obtain ⟨rfl, rfl, rfl⟩ := hbs
    have h2 : s.pc + 1#16 + 1#16 = s.pc + 2#16 := by rw [BitVec.add_assoc]; rfl
    exact ⟨(decodeOpcode_uniform hrow _).1, h0 (by omega),
      .inr (.inr ⟨mk, hrow, hadm 1 (by omega), hadm 2 (by omega), by rw [h2], by simp [fetched, h2]⟩)⟩

/-- Fetches from plain storage return what memory holds and leave no mark (20_memory.md R52). -/
theorem fetched_plain (n : Nat) (x : Word) (s : State)
    (h : ∀ k, k < n → s.isDevice (x + BitVec.ofNat 16 k) = false) :
    fetched n x s = ((List.range n).map fun k => s.mem.read (x + BitVec.ofNat 16 k), s) := by
  induction n generalizing x with
  | zero => rfl
  | succ n ih =>
    have hx : s.isDevice x = false := by simpa using h 0 (by omega)
    have hnext : ∀ k, x + 1#16 + BitVec.ofNat 16 k = x + BitVec.ofNat 16 (k + 1) := fun k => by
      rw [BitVec.add_assoc, BitVec.ofNat_add, BitVec.add_comm 1#16]
    have htail := ih (x + 1#16) fun k hk => hnext k ▸ h (k + 1) (by omega)
    simp only [hnext] at htail
    simp [fetched, State.byteAt_plain, State.afterRead_plain, hx, htail, List.range_succ_eq_map]

/-- The bytes an instruction takes up decode to it, with none left over (R80). -/
theorem decode_take_length {o : OperandOrder} {bs rest : List Byte} {i : Instr}
    (h : decode o bs = .ok (i, rest)) : decode o (bs.take i.length) = .ok (i, []) := by
  obtain ⟨op, rfl, hrow⟩ | ⟨op, b2, mk, rfl, hrow, rfl⟩ | ⟨op, b2, b3, mk, rfl, hrow, rfl⟩ :=
    decode_eq_ok.mp h
  · rw [show i.length = 1 from decodeOpcode_uniform hrow]
    exact decode_eq_ok.mpr (.inl ⟨op, rfl, hrow⟩)
  · rw [(decodeOpcode_uniform hrow b2).1]
    exact decode_eq_ok.mpr (.inr (.inl ⟨op, b2, mk, rfl, hrow, rfl⟩))
  · rw [(decodeOpcode_uniform hrow _).1]
    exact decode_eq_ok.mpr (.inr (.inr ⟨op, b2, b3, mk, rfl, hrow, rfl⟩))

theorem step_of_fetchInstr {s t : State} {i : Instr} (h : fetchInstr s = .ok (i, t)) :
    step s = exec i t := by
  simp only [step, h]

/-- Where the instruction at `pc` stands in plain storage that the map lets fetches through to, the fetch
gives it and leaves the state as it was. -/
theorem fetchInstr_plain {s : State} {i : Instr} {rest : List Byte}
    (hd : decode s.launch.operandOrder
      [s.mem.read s.pc, s.mem.read (s.pc + 1#16), s.mem.read (s.pc + 2#16)] = .ok (i, rest))
    (hadm : ∀ k, k < i.length → s.admits .fetch (s.npc k) ∧ s.isDevice (s.npc k) = false) :
    fetchInstr s = .ok (i, s) := by
  have hplain := fetched_plain i.length s.pc s fun k hk => (hadm k hk).2
  have hlen : i.length ≤ 3 := (encodingLength i).2.2
  have hbytes : (fetched i.length s.pc s).1 =
      [s.mem.read s.pc, s.mem.read (s.pc + 1#16), s.mem.read (s.pc + 2#16)].take i.length := by
    rw [hplain]
    interval_cases i.length <;> simp [List.range_succ_eq_map]
  have hd' : decode s.launch.operandOrder (fetched i.length s.pc s).1 = .ok (i, []) := by
    rw [hbytes]
    exact decode_take_length hd
  have := (fetchInstr_of_fetched hd' fun k hk => (hadm k hk).1).2
  rwa [hplain] at this

/-- Settles O4: in plain storage the fetches leave the state as it was; elsewhere they leave what as many
fetches leave. -/
theorem stepRunsDecodedInstruction : Obligations.StepRunsDecodedInstruction := by
  intro s i
  constructor
  · intro rest hd hadm
    have hfetch := fetchInstr_plain hd hadm
    exact ⟨fetchInstr_wellFormed hfetch, step_of_fetchInstr hfetch⟩
  · intro n hd hadm
    obtain ⟨hlen, hfetch⟩ := fetchInstr_of_fetched hd hadm
    exact ⟨fetchInstr_wellFormed hfetch, hlen, step_of_fetchInstr hfetch⟩

/-! ### A placed instruction -/

/-- The bytes as one number, the first byte in the lowest bits: `encodingNumber` of an encoding. -/
def bytesNumber (bs : List Byte) : Nat := bs.foldr (fun v n => v.toNat + 256 * n) 0

theorem encodingNumber_eq (o : OperandOrder) (i : Instr) :
    encodingNumber o i = bytesNumber (encode o i) := rfl

theorem bytesNumber_cons (b : Byte) (bs : List Byte) :
    bytesNumber (b :: bs) = b.toNat + 256 * bytesNumber bs := rfl

theorem bytesNumber_lt (bs : List Byte) : bytesNumber bs < 2 ^ (8 * bs.length) := by
  induction bs with
  | nil => simp [bytesNumber]
  | cons b bs ih =>
    have hb := b.isLt
    rw [bytesNumber_cons, List.length_cons, Nat.mul_add, Nat.pow_add]
    omega

/-- Each byte comes back from the number, and zeros after the last one. -/
theorem tableByte_bytesNumber (bs : List Byte) (k : Nat) :
    tableByte (bytesNumber bs) k = bs.getD k 0 := by
  induction bs generalizing k with
  | nil => simp [tableByte, bytesNumber]
  | cons b bs ih =>
    have hb := b.isLt
    cases k with
    | zero =>
      apply BitVec.eq_of_toNat_eq
      simp only [tableByte, bytesNumber_cons, List.getD_cons_zero, BitVec.toNat_ofNat]
      omega
    | succ k =>
      have hshift : (b.toNat + 256 * bytesNumber bs) / 2 ^ 8 = bytesNumber bs := by omega
      rw [List.getD_cons_succ, ← ih, tableByte, bytesNumber_cons, Nat.mul_add, Nat.add_comm (8 * k),
        Nat.pow_add, ← Nat.div_div_eq_div_mul, hshift, tableByte]

theorem tableBytes_bytesNumber (bs : List Byte) (h : bs.length ≤ 3) :
    ∃ zeros, tableBytes (8 * bs.length) (bytesNumber bs) = bs ++ zeros := by
  simp only [tableBytes, Nat.mod_eq_of_lt (bytesNumber_lt bs), tableByte_bytesNumber]
  match bs with
  | [] => exact ⟨_, rfl⟩
  | [_] => exact ⟨_, rfl⟩
  | [_, _] => exact ⟨_, rfl⟩
  | [_, _, _] => exact ⟨_, rfl⟩

/-- Three bytes placed at an address are read back there (log 19). -/
theorem read_placeBytes {m : Memory} (hw : m.wf = true) (x : Word) (a b c : Byte) :
    (placeBytes m x [a, b, c]).read x = a ∧ (placeBytes m x [a, b, c]).read (x + 1#16) = b ∧
      (placeBytes m x [a, b, c]).read (x + 2#16) = c := by
  have hwa := Memory.write_wf x a hw
  have hwb := Memory.write_wf (x + 1#16) b hwa
  have h2 : x + 1#16 + 1#16 = x + 2#16 := by rw [BitVec.add_assoc]; rfl
  have n01 : x ≠ x + 1#16 := by bv_omega
  have n02 : x ≠ x + 2#16 := by bv_omega
  have n12 : x + 1#16 ≠ x + 2#16 := by bv_omega
  simp only [placeBytes, h2]
  refine ⟨?_, ?_, Memory.read_write_self _ c hwb⟩
  · rw [Memory.read_write_ne c n02, Memory.read_write_ne b n01, Memory.read_write_self x a hw]
  · rw [Memory.read_write_ne c n12, Memory.read_write_self _ b hwa]

/-- What `withFetchWord` places stands at `pc` (log 19). -/
theorem read_withFetchWord {s : State} (hi : s.Inv) (nbits w : Nat) :
    let t := s.withFetchWord nbits w
    [t.mem.read t.pc, t.mem.read (t.pc + 1#16), t.mem.read (t.pc + 2#16)] = tableBytes nbits w := by
  obtain ⟨h0, h1, h2⟩ := read_placeBytes hi s.pc _ _ _
  exact congrArg₂ _ h0 (congrArg₂ _ h1 (congrArg (· :: []) h2))

/-- Settles O12: the placed bytes are the instruction's encoding with zeros after it, so what stands at
`pc` decodes to the instruction. -/
theorem placedInstructionRunsNext : Obligations.PlacedInstructionRunsNext := by
  intro s i hadm hplain hinv hwf
  obtain ⟨hlen, -, hle⟩ := encodingLength i
  obtain ⟨zeros, hbytes⟩ := tableBytes_bytesNumber (encode s.launch.operandOrder i) (hlen _ ▸ hle)
  rw [hlen] at hbytes
  refine step_of_fetchInstr (fetchInstr_plain (rest := zeros) ?_ fun k hk => ?_)
  · rw [read_withFetchWord hinv, encodingNumber_eq, hbytes]
    exact decode_encode _ hwf zeros
  · exact ⟨hadm .fetch _, hplain k (by omega)⟩

/-! ### Which bytes and terms go on -/

theorem decodeOpcode_unlisted {op : Byte} (h : op.toNat ∈ unlistedOpcodes) : decodeOpcode op = none := by
  have hall : ∀ k ∈ unlistedOpcodes, (decodeOpcode (BitVec.ofNat 8 k)).isNone = true := by
    decide +kernel
  simpa using hall _ h

/-- Settles O7: where the map stops nothing, what R13 leaves to stop a step is the byte at `pc`. -/
theorem everyListedByteStepsInFullMemory : Obligations.EveryListedByteStepsInFullMemory := by
  refine ⟨by decide, fun s hadm => ⟨fun hlisted => ?_, ?_⟩⟩
  · cases hstep : step s with
    | next t => exact ⟨t, rfl⟩
    | fault r => cases r
    | refused r =>
      obtain ⟨-, hunlisted⟩ | ⟨k, x, -, hmap⟩ := stepStopsOnlyForByteOrMap s r hstep
      · exact absurd hunlisted hlisted
      · exact absurd ((hadm k x).symm.trans hmap) nofun
  · rintro ⟨t, hstep⟩ hunlisted
    obtain ⟨i, s1, hfetch, -⟩ := step_eq_next.mp hstep
    have hnone := decodeOpcode_unlisted hunlisted
    obtain ⟨-, ⟨hrow, -⟩ | ⟨mk, hrow, -⟩ | ⟨mk, hrow, -⟩⟩ := fetchInstr_eq_ok.mp hfetch <;>
      exact absurd (hnone.symm.trans hrow) nofun

/-- Only an instruction of the spec goes on: elsewhere the operand form gives nothing (10_state.md R23). -/
theorem wellFormed_of_exec_next {i : Instr} {s t : State} (h : exec i s = .next t) :
    i.wellFormed = true := by
  cases i with
  | ldax p =>
    obtain ⟨x, hx, -⟩ := execLdax_eq_next.mp h
    exact (ldaxAddress_isSome s p).symm.trans (Option.isSome_of_eq_some hx)
  | lxi p w =>
    obtain ⟨s1, h1, -⟩ := execLxi_eq_next.mp h
    exact (lxiWrite_isSome s p w).symm.trans (Option.isSome_of_eq_some h1)
  | pop p =>
    obtain ⟨-, s2, h2, -⟩ := execPop_eq_next.mp h
    exact (popWrite_isSome _ p _).symm.trans (Option.isSome_of_eq_some h2)
  | push p =>
    obtain ⟨w, s1, h1, -⟩ := execPush_eq_next.mp h
    exact (pushOperand_isSome s p).symm.trans (Option.isSome_of_eq_some h1)
  | _ => rfl

/-- Settles O9: a term that is no instruction of the spec does not go on, and nothing faults. -/
theorem illFormedTermsAreRefused : Obligations.IllFormedTermsAreRefused := by
  intro i s hill
  cases hexec : exec i s with
  | next t => exact absurd ((wellFormed_of_exec_next hexec).symm.trans hill) nofun
  | fault r => cases r
  | refused r => exact ⟨r, rfl⟩

/-- Settles O11: every field of a launch state is the one the launch names, and the default map is
`mapRefusal_default`. -/
theorem resetLeavesTabledValues : Obligations.ResetLeavesTabledValues := by
  refine ⟨fun l g f sp m sid => ?_, ⟨_, _, _, _, rfl⟩, rfl, rfl, fun k x => mapRefusal_default k x,
    isDevice_default rfl⟩
  exact ⟨rfl, rfl, rfl, rfl, rfl, rfl, rfl, rfl, rfl, rfl, rfl, rfl, rfl⟩

end Sys2Proof.Machine
end

section
/-! PROOFS. The state every instruction leaves, as one equation, and from it the frames of 10_state.md:
registers (R22), `sp` (R24), `pc` (R25, R26), flags (R34), hidden state (R38), trace (R41). -/

namespace Sys2Proof.Machine

/-! ### The state an instruction leaves -/

/-- The state after a load of the byte at `addr` into a register (41_load_store_16.md R110). -/
@[simp] def State.afterLoad (s : State) (r : Reg) (addr : Word) : State :=
  (s.afterRead .read addr).setReg r (s.byteAt .read addr)

/-- The state after the two reads of a transfer from the stack (45_stack.md R150). -/
@[simp] def State.afterPop (s : State) : State := (s.afterReadWord s.sp).setSp (s.sp + 2#16)

/-- The state after a conditional return (46_return_restart.md R161 to R168). -/
def State.afterReturnIf (s : State) (cc : Cond) : State :=
  if s.flags.holds cc then s.afterPop.goto (s.wordAt s.sp) else s.advance 1

/-- The state after a conditional jump (40_jumps.md R100 to R102). -/
@[simp] def State.afterJumpIf (s : State) (cc : Cond) (addr : Word) : State :=
  s.goto (if s.flags.holds cc then addr else s.npc 3)

/-- The state an instruction leaves where it goes on; an ill-formed term does not (10_state.md R23). -/
def State.after (s : State) : Instr → State
  | .jpe addr => s.afterJumpIf .pe addr
  | .jz addr => s.afterJumpIf .z addr
  | .jnz addr => s.afterJumpIf .nz addr
  | .pchl => s.goto s.hl
  | .lda addr => (s.afterLoad .a addr).advance 3
  | .ldax .bc => (s.afterLoad .a s.bc).advance 1
  | .ldax .de => (s.afterLoad .a s.de).advance 1
  | .lhld addr => (setHalves (s.afterReadWord addr) .h .l (s.wordAt addr)).advance 3
  | .lxi .bc w => (setHalves s .b .c w).advance 3
  | .lxi .de w => (setHalves s .d .e w).advance 3
  | .lxi .hl w => (setHalves s .h .l w).advance 3
  | .lxi .sp w => (s.setSp w).advance 3
  | .shld addr => ((s.afterWrite addr (lo8 s.hl)).afterWrite (addr + 1#16) (hi8 s.hl)).advance 3
  | .sphl => (s.setSp s.hl).advance 1
  | .movRR rd rs => (s.setReg rd (s.reg rs)).advance 1
  | .movMR rs => (s.afterWrite s.hl (s.reg rs)).advance 1
  | .movRM rd => (s.afterLoad rd s.hl).advance 1
  | .mviR r v => (s.setReg r v).advance 2
  | .mviM v => (s.afterWrite s.hl v).advance 2
  | .nop => s.advance 1
  | .oraR r => (orA s (s.reg r)).advance 1
  | .oraM => (orA (s.afterRead .read s.hl) (s.byteAt .read s.hl)).advance 1
  | .ori v => (orA s v).advance 2
  | .ral => (setAccCarry s (shiftUp (s.reg .a) s.flags.cy) ((s.reg .a).getLsbD 7)).advance 1
  | .rar => (setAccCarry s (shiftDown s.flags.cy (s.reg .a)) ((s.reg .a).getLsbD 0)).advance 1
  | .rlc => (setAccCarry s (shiftUp (s.reg .a) ((s.reg .a).getLsbD 7)) ((s.reg .a).getLsbD 7)).advance 1
  | .rrc => (setAccCarry s (shiftDown ((s.reg .a).getLsbD 0) (s.reg .a)) ((s.reg .a).getLsbD 0)).advance 1
  | .out port => (s.ioWrite port (s.reg .a)).advance 2
  | .rim => ((s.setReg .a (Config.rimWord s.draws s.imask s.r75 s.ie s.sid)).countDraw).advance 1
  | .sim => (simSerial (simLatch (simMasks s (s.reg .a)) (s.reg .a)) (s.reg .a)).advance 1
  | .pop .bc => (setHalves s.afterPop .b .c (s.wordAt s.sp)).advance 1
  | .pop .de => (setHalves s.afterPop .d .e (s.wordAt s.sp)).advance 1
  | .pop .hl => (setHalves s.afterPop .h .l (s.wordAt s.sp)).advance 1
  | .pop .psw =>
    ((s.afterPop.setReg .a (hi8 (s.wordAt s.sp))).setFlags
      (byteToFlags s.launch.pswLayout (lo8 (s.wordAt s.sp)))).advance 1
  | .push .bc => (s.afterPush s.bc).advance 1
  | .push .de => (s.afterPush s.de).advance 1
  | .push .hl => (s.afterPush s.hl).advance 1
  | .push .psw => (s.countDraw.afterPush (concat (s.reg .a) s.pswByte)).advance 1
  | .ret => s.afterPop.goto (s.wordAt s.sp)
  | .rc => s.afterReturnIf .c
  | .rnc => s.afterReturnIf .nc
  | .rp => s.afterReturnIf .p
  | .rm => s.afterReturnIf .m
  | .rpe => s.afterReturnIf .pe
  | .rpo => s.afterReturnIf .po
  | .rz => s.afterReturnIf .z
  | .rnz => s.afterReturnIf .nz
  | .rst n => (s.afterPush (s.npc 1)).goto (restartAddress n)
  | .sbbR r => (sbb8 s (s.reg r)).advance 1
  | .sbbM => (sbb8 (s.afterRead .read s.hl) (s.byteAt .read s.hl)).advance 1
  | .sbi v => (sbb8 s v).advance 2
  | .ldax .hl | .ldax .sp | .ldax .psw | .lxi .psw _ | .pop .sp | .push .sp => s

variable {s t : State}

theorem jumpIf_eq_afterJumpIf (s : State) (cc : Cond) (addr : Word) :
    jumpIf s cc addr = s.afterJumpIf cc addr := by
  unfold jumpIf State.afterJumpIf
  split <;> rfl

theorem eq_afterReturnIf {cc : Cond} (h : settle (returnIf s cc) = .next t) : t = s.afterReturnIf cc := by
  unfold State.afterReturnIf
  obtain ⟨hcc, hret⟩ | ⟨hcc, rfl⟩ := settle_returnIf_eq_next.mp h
  · rw [if_pos hcc]
    exact (execRet_eq_next.mp hret).2
  · rw [hcc]
    rfl

/-- What an instruction does, where it goes on. -/
theorem eq_after_of_exec_next {i : Instr} (h : exec i s = .next t) : t = s.after i := by
  cases i with
  | jpe | jz | jnz =>
    cases h
    exact jumpIf_eq_afterJumpIf _ _ _
  | pchl | sphl | movRR | mviR | nop | oraR | ori | ral | rar | rlc | rrc | out | rim | sim | sbbR
  | sbi =>
    cases h
    rfl
  | lda => exact (execLda_eq_next.mp h).2
  | ldax p =>
    obtain ⟨x, hx, -, rfl⟩ := execLdax_eq_next.mp h
    cases p <;> cases hx <;> rfl
  | lhld => exact (execLhld_eq_next.mp h).2
  | lxi p w =>
    obtain ⟨s1, h1, rfl⟩ := execLxi_eq_next.mp h
    cases p <;> cases h1 <;> rfl
  | shld => exact (execShld_eq_next.mp h).2
  | movMR => exact (execMovMR_eq_next.mp h).2
  | movRM => exact (execMovRM_eq_next.mp h).2
  | mviM => exact (execMviM_eq_next.mp h).2
  | oraM => exact (execOraM_eq_next.mp h).2
  | sbbM => exact (execSbbM_eq_next.mp h).2
  | pop p =>
    obtain ⟨-, s2, h2, rfl⟩ := execPop_eq_next.mp h
    cases p with
    | bc | de | hl => cases h2; rfl
    | psw =>
      cases h2
      simp only [State.setSp_launch, State.afterReadWord_launch]
      rfl
    | sp => cases h2
  | push p =>
    obtain ⟨w, s1, h1, -, rfl⟩ := execPush_eq_next.mp h
    cases p <;> cases h1 <;> rfl
  | ret => exact (execRet_eq_next.mp h).2
  | rc | rnc | rp | rm | rpe | rpo | rz | rnz => exact eq_afterReturnIf h
  | rst => exact (execRst_eq_next.mp h).2

/-! ### The fields that the composed updates leave alone -/

@[simp] theorem State.afterPush_sp (w : Word) : (s.afterPush w).sp = s.sp - 2#16 := rfl

@[simp] theorem State.afterPush_regs (w : Word) : (s.afterPush w).regs = s.regs := by
  simp [State.afterPush]

@[simp] theorem State.afterPush_flags (w : Word) : (s.afterPush w).flags = s.flags := by
  simp [State.afterPush]

@[simp] theorem State.afterPush_pc (w : Word) : (s.afterPush w).pc = s.pc := by
  simp [State.afterPush]

@[simp] theorem State.afterPush_imask (w : Word) : (s.afterPush w).imask = s.imask := by
  simp [State.afterPush]

@[simp] theorem State.afterPush_sod (w : Word) : (s.afterPush w).sod = s.sod := by
  simp [State.afterPush]

@[simp] theorem State.afterPush_r75 (w : Word) : (s.afterPush w).r75 = s.r75 := by
  simp [State.afterPush]

@[simp] theorem State.afterPush_ie (w : Word) : (s.afterPush w).ie = s.ie := by
  simp [State.afterPush]

@[simp] theorem State.afterPush_sid (w : Word) : (s.afterPush w).sid = s.sid := by
  simp [State.afterPush]

@[simp] theorem State.afterPush_trace (w : Word) : (s.afterPush w).trace = s.trace := by
  simp [State.afterPush]

@[simp] theorem State.afterPush_launch (w : Word) : (s.afterPush w).launch = s.launch := by
  simp [State.afterPush]

@[simp] theorem State.afterReturnIf_sp (cc : Cond) :
    (s.afterReturnIf cc).sp = if s.flags.holds cc then s.sp + 2#16 else s.sp := by
  unfold State.afterReturnIf; split <;> simp

theorem State.afterJumpIf_pc {cc : Cond} {addr : Word} (h : s.flags.holds cc = false) :
    (s.afterJumpIf cc addr).pc = s.npc 3 := by
  simp [h]

theorem State.afterReturnIf_pc {cc : Cond} (h : s.flags.holds cc = false) :
    (s.afterReturnIf cc).pc = s.npc 1 := by
  simp [State.afterReturnIf, h]

@[simp] theorem State.afterReturnIf_regs (cc : Cond) : (s.afterReturnIf cc).regs = s.regs := by
  unfold State.afterReturnIf; split <;> simp

@[simp] theorem State.afterReturnIf_flags (cc : Cond) : (s.afterReturnIf cc).flags = s.flags := by
  unfold State.afterReturnIf; split <;> simp

@[simp] theorem State.afterReturnIf_imask (cc : Cond) : (s.afterReturnIf cc).imask = s.imask := by
  unfold State.afterReturnIf; split <;> simp

@[simp] theorem State.afterReturnIf_sod (cc : Cond) : (s.afterReturnIf cc).sod = s.sod := by
  unfold State.afterReturnIf; split <;> simp

@[simp] theorem State.afterReturnIf_r75 (cc : Cond) : (s.afterReturnIf cc).r75 = s.r75 := by
  unfold State.afterReturnIf; split <;> simp

@[simp] theorem State.afterReturnIf_ie (cc : Cond) : (s.afterReturnIf cc).ie = s.ie := by
  unfold State.afterReturnIf; split <;> simp

@[simp] theorem State.afterReturnIf_sid (cc : Cond) : (s.afterReturnIf cc).sid = s.sid := by
  unfold State.afterReturnIf; split <;> simp

@[simp] theorem State.afterReturnIf_trace (cc : Cond) : (s.afterReturnIf cc).trace = s.trace := by
  unfold State.afterReturnIf; split <;> simp

@[simp] theorem State.afterReturnIf_launch (cc : Cond) : (s.afterReturnIf cc).launch = s.launch := by
  unfold State.afterReturnIf; split <;> simp

/-- SIM writes the masks, the latch, the serial output bit and the trace, all from A (R142). -/
theorem sim_eq (s : State) (a : Byte) :
    simSerial (simLatch (simMasks s a) a) a =
      { s with
        imask := if a.getLsbD 3 then a.extractLsb' 0 3 else s.imask
        r75 := if a.getLsbD 4 then false else s.r75
        sod := if a.getLsbD 6 then a.getLsbD 7 else s.sod
        trace := s.trace ++ if a.getLsbD 6 then [.sod (a.getLsbD 7)] else [] } := by
  unfold simSerial simLatch simMasks
  cases a.getLsbD 3 <;> cases a.getLsbD 4 <;> cases a.getLsbD 6 <;> simp [State.emit]

/-- OUT appends its event under the default `OUT_DEV` alone (20_memory.md R53; log 11). -/
theorem ioWrite_trace (s : State) (port v : Byte) :
    (s.ioWrite port v).trace = s.trace ++ if s.launch.outDev = .recorded then [.io port v] else [] := by
  unfold State.ioWrite
  split <;> next h => simp [h]

/-! ### What every instruction leaves alone -/

/-- Settles O13: instruction by instruction, grouped by what R22 says is written. -/
theorem registersChangeOnlyAsTabled : Obligations.RegistersChangeOnlyAsTabled := by
  intro i s t h r
  obtain rfl := eq_after_of_exec_next h
  show r ∉ writtenRegs i → (s.after i).regs.get r = s.regs.get r
  cases i with
  | jpe | jz | jnz | pchl | shld | sphl | movMR | mviM | nop | out | ret | rc | rnc | rp | rm | rpe | rpo
  | rz | rnz | rst => simp [State.after]
  | sim => simp [State.after, sim_eq]
  | push p => cases p <;> simp [State.after]
  | ldax p => cases p <;> simp +contextual [State.after, writtenRegs, Regs.get_set_ne]
  | lda | movRR | movRM | mviR | rim => simp +contextual [State.after, writtenRegs, Regs.get_set_ne]
  | oraR | oraM | ori => simp +contextual [State.after, writtenRegs, orA, Regs.get_set_ne]
  | sbbR | sbbM | sbi => simp +contextual [State.after, writtenRegs, sbb8, Regs.get_set_ne]
  | ral | rar | rlc | rrc => simp +contextual [State.after, writtenRegs, setAccCarry, Regs.get_set_ne]
  | lhld => simp +contextual [State.after, writtenRegs, setHalves, Regs.get_set_ne]
  | lxi p | pop p => cases p <;> simp +contextual [State.after, writtenRegs, setHalves, Regs.get_set_ne]

/-- Settles O14: the rotates go through `setAccCarry`, which writes CY; the instructions that write all
flags are excluded; no other update of an instruction touches the flags. -/
theorem flagsChangeOnlyAsTabled : Obligations.FlagsChangeOnlyAsTabled := by
  intro i s t h hall
  obtain rfl := eq_after_of_exec_next h
  cases i with
  | oraR | oraM | ori | sbbR | sbbM | sbi => cases hall
  | ral | rar | rlc | rrc => simp [State.after, setAccCarry, isRotate]
  | jpe | jz | jnz | pchl | lda | shld | sphl | movRR | movMR | movRM | mviR | mviM | nop | out | rim
  | ret | rc | rnc | rp | rm | rpe | rpo | rz | rnz | rst => simp [State.after]
  | sim => simp [State.after, sim_eq]
  | lhld => simp [State.after, setHalves]
  | ldax p | push p => cases p <;> simp [State.after]
  | lxi p => cases p <;> simp [State.after, setHalves]
  | pop p =>
    cases p with
    | psw => cases hall
    | bc | de | hl | sp => simp [State.after, setHalves]

/-- Settles O15: `setSp` stands in the instructions of R24 alone. -/
theorem stackPointerMovesOnlyAsTabled : Obligations.StackPointerMovesOnlyAsTabled := by
  intro i s t h
  have hwf := wellFormed_of_exec_next h
  obtain rfl := eq_after_of_exec_next h
  cases i with
  | sphl | ret | rst | rc | rnc | rp | rm | rpe | rpo | rz | rnz =>
    simp [State.after, spAfter, returnCond]
  | lxi p => cases p <;> simp [State.after, spAfter, setHalves]
  | pop p =>
    cases p with
    | sp => cases hwf
    | bc | de | hl | psw => simp [State.after, spAfter, setHalves]
  | push p =>
    cases p with
    | sp => cases hwf
    | bc | de | hl | psw => simp [State.after, spAfter]
  | jpe | jz | jnz | pchl | lda | shld | movRR | movMR | movRM | mviR | mviM | nop | out | rim =>
    simp [State.after, spAfter, returnCond]
  | ldax p => cases p <;> simp [State.after, spAfter, returnCond]
  | lhld => simp [State.after, spAfter, returnCond, setHalves]
  | oraR | oraM | ori => simp [State.after, spAfter, returnCond, orA]
  | sbbR | sbbM | sbi => simp [State.after, spAfter, returnCond, sbb8]
  | ral | rar | rlc | rrc => simp [State.after, spAfter, returnCond, setAccCarry]
  | sim => simp [State.after, spAfter, returnCond, sim_eq]

/-- Settles O16: an instruction that does not transfer ends in `advance` by its length. -/
theorem pcIsSequentialUnlessTransfer : Obligations.PcIsSequentialUnlessTransfer := by
  intro i s t h hstay
  have hwf := wellFormed_of_exec_next h
  obtain rfl := eq_after_of_exec_next h
  show (s.after i).pc = s.npc i.length
  cases i with
  | pchl | ret | rst => cases hstay
  | jpe | jz | jnz => exact State.afterJumpIf_pc hstay
  | rc | rnc | rp | rm | rpe | rpo | rz | rnz => exact State.afterReturnIf_pc hstay
  | lda | shld | sphl | movRR | movMR | movRM | mviR | mviM | nop | out | rim =>
    simp [State.after, State.npc, Instr.length]
  | sim => simp [State.after, State.npc, Instr.length, sim_eq]
  | oraR | oraM | ori => simp [State.after, State.npc, Instr.length, orA]
  | sbbR | sbbM | sbi => simp [State.after, State.npc, Instr.length, sbb8]
  | ral | rar | rlc | rrc => simp [State.after, State.npc, Instr.length, setAccCarry]
  | lhld => simp [State.after, State.npc, Instr.length, setHalves]
  | ldax p =>
    cases p with
    | hl | sp | psw => cases hwf
    | bc | de => simp [State.after, State.npc, Instr.length]
  | lxi p =>
    cases p with
    | psw => cases hwf
    | bc | de | hl | sp => simp [State.after, State.npc, Instr.length, setHalves]
  | pop p =>
    cases p with
    | sp => cases hwf
    | bc | de | hl | psw => simp [State.after, State.npc, Instr.length, setHalves]
  | push p =>
    cases p with
    | sp => cases hwf
    | bc | de | hl | psw => simp [State.after, State.npc, Instr.length]

/-- No update of an instruction but SIM touches the hidden state (10_state.md R38). -/
theorem after_sameHidden {i : Instr} (h : i ≠ .sim) : SameHidden s (s.after i) := by
  unfold SameHidden
  cases i with
  | sim => exact absurd rfl h
  | jpe | jz | jnz | pchl | lda | shld | sphl | movRR | movMR | movRM | mviR | mviM | nop | out | rim
  | ret | rc | rnc | rp | rm | rpe | rpo | rz | rnz | rst => simp [State.after]
  | oraR | oraM | ori => simp [State.after, orA]
  | sbbR | sbbM | sbi => simp [State.after, sbb8]
  | ral | rar | rlc | rrc => simp [State.after, setAccCarry]
  | lhld => simp [State.after, setHalves]
  | ldax p | push p => cases p <;> simp [State.after]
  | lxi p | pop p => cases p <;> simp [State.after, setHalves]

/-- Settles O18: SIM writes the masks, the latch and the serial output bit, and neither `ie` nor `sid`. -/
theorem hiddenStateIsWrittenBySimAlone : Obligations.HiddenStateIsWrittenBySimAlone := by
  intro i s t h
  obtain rfl := eq_after_of_exec_next h
  by_cases hsim : i = .sim
  · subst hsim
    exact ⟨fun hne => absurd rfl hne, by simp [State.after, sim_eq], by simp [State.after, sim_eq]⟩
  · have hidden : SameHidden s (s.after i) := after_sameHidden hsim
    refine ⟨fun _ => hidden, ?_⟩
    obtain ⟨-, -, -, hie, hsid⟩ := hidden
    exact ⟨hie, hsid⟩

/-- Settles O19: `emit` stands in OUT and SIM alone, and no update touches the launch parameters. -/
theorem traceGrowsByOutAndSimAlone : Obligations.TraceGrowsByOutAndSimAlone := by
  intro i s t h
  obtain rfl := eq_after_of_exec_next h
  cases i with
  | out => simp [State.after, emitted, ioWrite_trace]
  | sim => simp [State.after, emitted, sim_eq]
  | jpe | jz | jnz | pchl | lda | shld | sphl | movRR | movMR | movRM | mviR | mviM | nop | rim
  | ret | rc | rnc | rp | rm | rpe | rpo | rz | rnz | rst => simp [State.after, emitted]
  | oraR | oraM | ori => simp [State.after, emitted, orA]
  | sbbR | sbbM | sbi => simp [State.after, emitted, sbb8]
  | ral | rar | rlc | rrc => simp [State.after, emitted, setAccCarry]
  | lhld => simp [State.after, emitted, setHalves]
  | ldax p | push p => cases p <;> simp [State.after, emitted]
  | lxi p | pop p => cases p <;> simp [State.after, emitted, setHalves]

end Sys2Proof.Machine
end

section
/-! PROOFS. Noninterference (10_state.md R33, R35, R38): what a view of the state blanks is read by no
instruction but RIM or PUSH PSW. An instruction is a sequence of reads of the core and of updates that keep
two states alike, so it keeps them alike, and it stops alike because the map is in the core. -/

namespace Sys2Proof.Machine

/-! ### What a view of the state can be -/

/-- Two states agree on all that an instruction other than RIM and PUSH PSW reads: everything but AC, the
hidden state of 10_state.md R38 and the trace. -/
structure SameCore (s u : State) : Prop where
  regs : s.regs = u.regs
  sp : s.sp = u.sp
  pc : s.pc = u.pc
  mem : s.mem = u.mem
  draws : s.draws = u.draws
  bus : s.bus = u.bus
  launch : s.launch = u.launch
  holds : ∀ cc, s.flags.holds cc = u.flags.holds cc

/-- Whether two states look alike under the view survives the update. -/
def Respects (view : State → State) (update : State → State) : Prop :=
  ∀ s u : State, view s = view u → view (update s) = view (update u)

/-- An update is respected where blanking the hidden part first makes no visible difference. -/
theorem respects_of_absorbs {view update : State → State}
    (h : ∀ s, view (update (view s)) = view (update s)) : Respects view update := by
  intro s u hsu
  rw [← h s, hsu, h u]

/-- A view under which states that look alike agree on the core and go on looking alike after every
update that the meanings are made of. -/
structure ViewCongruence (view : State → State) : Prop where
  sameCore : ∀ s, SameCore (view s) s
  setReg : ∀ r v, Respects view (·.setReg r v)
  setFlags : ∀ f, Respects view (·.setFlags f)
  setCarry : ∀ c, Respects view fun s => s.setFlags { s.flags with cy := c }
  setSp : ∀ w, Respects view (·.setSp w)
  goto : ∀ w, Respects view (·.goto w)
  emit : ∀ ev, Respects view (·.emit ev)
  countDraw : Respects view (·.countDraw)
  store : ∀ x v, Respects view fun s => { s with mem := s.mem.write x v }
  record : ∀ ev, Respects view fun s => { s with bus := s.bus ++ [ev] }
  setImask : ∀ m, Respects view fun s => { s with imask := m }
  setSod : ∀ b, Respects view fun s => { s with sod := b }
  setR75 : ∀ b, Respects view fun s => { s with r75 := b }

/-- No condition tests AC (00_scope.md R14). -/
theorem holds_withoutAC (s : State) (cc : Cond) : s.withoutAC.flags.holds cc = s.flags.holds cc := by
  cases cc <;> rfl

theorem visible_sameCore (s : State) : SameCore s.visible s :=
  ⟨rfl, rfl, rfl, rfl, rfl, rfl, rfl, fun _ => rfl⟩

theorem withoutAC_sameCore (s : State) : SameCore s.withoutAC s :=
  ⟨rfl, rfl, rfl, rfl, rfl, rfl, rfl, holds_withoutAC s⟩

theorem visible_congruence : ViewCongruence State.visible where
  sameCore := visible_sameCore
  setReg _ _ := respects_of_absorbs fun _ => rfl
  setFlags _ := respects_of_absorbs fun _ => rfl
  setCarry _ := respects_of_absorbs fun _ => rfl
  setSp _ := respects_of_absorbs fun _ => rfl
  goto _ := respects_of_absorbs fun _ => rfl
  emit _ := respects_of_absorbs fun _ => rfl
  countDraw := respects_of_absorbs fun _ => rfl
  store _ _ := respects_of_absorbs fun _ => rfl
  record _ := respects_of_absorbs fun _ => rfl
  setImask _ := respects_of_absorbs fun _ => rfl
  setSod _ := respects_of_absorbs fun _ => rfl
  setR75 _ := respects_of_absorbs fun _ => rfl

theorem withoutAC_congruence : ViewCongruence State.withoutAC where
  sameCore := withoutAC_sameCore
  setReg _ _ := respects_of_absorbs fun _ => rfl
  setFlags _ := respects_of_absorbs fun _ => rfl
  setCarry _ := respects_of_absorbs fun _ => rfl
  setSp _ := respects_of_absorbs fun _ => rfl
  goto _ := respects_of_absorbs fun _ => rfl
  emit _ := respects_of_absorbs fun _ => rfl
  countDraw := respects_of_absorbs fun _ => rfl
  store _ _ := respects_of_absorbs fun _ => rfl
  record _ := respects_of_absorbs fun _ => rfl
  setImask _ := respects_of_absorbs fun _ => rfl
  setSod _ := respects_of_absorbs fun _ => rfl
  setR75 _ := respects_of_absorbs fun _ => rfl

/-! ### What looking alike gives -/

section Alike

variable {view : State → State} {s u : State}

theorem ViewCongruence.core (hv : ViewCongruence view) (h : view s = view u) : SameCore s u := by
  have hs := hv.sameCore s
  have hu := hv.sameCore u
  rw [h] at hs
  exact ⟨hs.regs.symm.trans hu.regs, hs.sp.symm.trans hu.sp, hs.pc.symm.trans hu.pc,
    hs.mem.symm.trans hu.mem, hs.draws.symm.trans hu.draws, hs.bus.symm.trans hu.bus,
    hs.launch.symm.trans hu.launch, fun cc => (hs.holds cc).symm.trans (hu.holds cc)⟩

theorem SameCore.reg (h : SameCore s u) (r : Reg) : s.reg r = u.reg r := congrArg (Regs.get · r) h.regs

theorem SameCore.bc (h : SameCore s u) : s.bc = u.bc := congrArg₂ concat (h.reg .b) (h.reg .c)

theorem SameCore.de (h : SameCore s u) : s.de = u.de := congrArg₂ concat (h.reg .d) (h.reg .e)

theorem SameCore.hl (h : SameCore s u) : s.hl = u.hl := congrArg₂ concat (h.reg .h) (h.reg .l)

theorem SameCore.cy (h : SameCore s u) : s.flags.cy = u.flags.cy := h.holds .c

theorem SameCore.npc (h : SameCore s u) (n : Nat) : s.npc n = u.npc n :=
  congrArg (· + BitVec.ofNat 16 n) h.pc

theorem SameCore.isDevice (h : SameCore s u) (x : Word) : s.isDevice x = u.isDevice x :=
  State.isDevice_congr h.launch x

theorem SameCore.byteAt (h : SameCore s u) (k : AccessKind) (x : Word) : s.byteAt k x = u.byteAt k x :=
  State.byteAt_congr h.launch h.bus h.mem k x

theorem SameCore.ldaxAddress (h : SameCore s u) (p : RegPair) :
    Machine.ldaxAddress s p = Machine.ldaxAddress u p := by
  cases p with
  | bc => exact congrArg some h.bc
  | de => exact congrArg some h.de
  | hl | sp | psw => rfl

theorem ViewCongruence.afterRead (hv : ViewCongruence view) (k : AccessKind) (x : Word) :
    Respects view (·.afterRead k x) := by
  intro s u h
  beta_reduce
  unfold State.afterRead
  rw [(hv.core h).isDevice, (hv.core h).byteAt]
  split
  · exact hv.record _ _ _ h
  · exact h

theorem ViewCongruence.afterWrite (hv : ViewCongruence view) (x : Word) (v : Byte) :
    Respects view (·.afterWrite x v) := by
  intro s u h
  beta_reduce
  unfold State.afterWrite
  rw [(hv.core h).isDevice]
  split
  · exact hv.record _ _ _ h
  · exact hv.store _ _ _ _ h

theorem ViewCongruence.ioWrite (hv : ViewCongruence view) (p v : Byte) :
    Respects view (·.ioWrite p v) := by
  intro s u h
  beta_reduce
  unfold State.ioWrite
  rw [congrArg Launch.outDev (hv.core h).launch]
  split
  · exact hv.emit _ _ _ h
  · exact hv.record _ _ _ h

theorem ViewCongruence.advance (hv : ViewCongruence view) (n : Nat) : Respects view (·.advance n) := by
  intro s u h
  beta_reduce
  unfold State.advance
  rw [(hv.core h).npc]
  exact hv.goto _ _ _ h

/-- An update followed by the end of the instruction. -/
theorem Respects.advance {f : State → State} (hf : Respects view f) (hv : ViewCongruence view) (n : Nat) :
    Respects view fun s => (f s).advance n := fun _ _ h => hv.advance n _ _ (hf _ _ h)

/-- An update with something that the core decides. -/
theorem ViewCongruence.using (hv : ViewCongruence view) {α : Type} {read : State → α}
    {f : α → State → State} (hread : ∀ {s u}, SameCore s u → read s = read u)
    (hf : ∀ a, Respects view (f a)) : Respects view fun s => f (read s) s := by
  intro s u h
  beta_reduce
  rw [hread (hv.core h)]
  exact hf _ _ _ h

theorem ViewCongruence.setHalves (hv : ViewCongruence view) (hi lo : Reg) (w : Word) :
    Respects view (Machine.setHalves · hi lo w) := fun _ _ h => hv.setReg _ _ _ _ (hv.setReg _ _ _ _ h)

theorem ViewCongruence.jumpIf (hv : ViewCongruence view) (cc : Cond) (addr : Word) :
    Respects view (Machine.jumpIf · cc addr) := by
  intro s u h
  beta_reduce
  unfold Machine.jumpIf
  rw [(hv.core h).holds]
  split
  · exact hv.goto _ _ _ h
  · exact hv.advance _ _ _ h

/-- An OR writes all five flags, none of them from a flag (10_state.md R34). -/
theorem ViewCongruence.orA (hv : ViewCongruence view) (v : Byte) : Respects view (Machine.orA · v) := by
  intro s u h
  beta_reduce
  unfold Machine.orA
  rw [(hv.core h).reg]
  exact hv.setFlags _ _ _ (hv.setReg _ _ _ _ h)

/-- A subtraction writes all five flags, from CY and no other flag (10_state.md R34). -/
theorem ViewCongruence.sbb8 (hv : ViewCongruence view) (v : Byte) :
    Respects view (Machine.sbb8 · v) := by
  intro s u h
  have hc := hv.core h
  beta_reduce
  unfold Machine.sbb8
  rw [hc.reg, hc.cy, hc.launch]
  exact hv.setFlags _ _ _ (hv.setReg _ _ _ _ h)

theorem ViewCongruence.setAccCarry (hv : ViewCongruence view) (a : Byte) (c : Bool) :
    Respects view (Machine.setAccCarry · a c) := fun _ _ h =>
  hv.setCarry c _ _ (hv.setReg .a a _ _ h)

/-- A rotate: A and CY from A and CY (43_logic_rotate.md R133 to R136). -/
theorem ViewCongruence.rotate (hv : ViewCongruence view) (shift : Byte → Bool → Byte)
    (carry : Byte → Bool) :
    Respects view fun s =>
      (Machine.setAccCarry s (shift (s.reg .a) s.flags.cy) (carry (s.reg .a))).advance 1 := by
  intro s u h
  beta_reduce
  rw [(hv.core h).reg, (hv.core h).cy]
  exact (hv.setAccCarry _ _).advance hv 1 _ _ h

theorem ViewCongruence.simMasks (hv : ViewCongruence view) (a : Byte) :
    Respects view (Machine.simMasks · a) := by
  intro s u h
  beta_reduce
  unfold Machine.simMasks
  split
  · exact hv.setImask _ _ _ h
  · exact h

theorem ViewCongruence.simLatch (hv : ViewCongruence view) (a : Byte) :
    Respects view (Machine.simLatch · a) := by
  intro s u h
  beta_reduce
  unfold Machine.simLatch
  split
  · exact hv.setR75 _ _ _ h
  · exact h

theorem ViewCongruence.simSerial (hv : ViewCongruence view) (a : Byte) :
    Respects view (Machine.simSerial · a) := by
  intro s u h
  beta_reduce
  unfold Machine.simSerial
  split
  · exact hv.emit _ _ _ (hv.setSod _ _ _ h)
  · exact h

end Alike

/-! ### Operations that end alike -/

/-- Two operations stop for the same reason, or both answer and the answers are related. -/
inductive Both {α β : Type} (rel : α → β → Prop) : Except Refusal α → Except Refusal β → Prop where
  | ok {a : α} {b : β} : rel a b → Both rel (.ok a) (.ok b)
  | error (r : Refusal) : Both rel (.error r) (.error r)

theorem Both.bind {α β γ δ : Type} {rel : α → β → Prop} {rel' : γ → δ → Prop} {c : Except Refusal α}
    {d : Except Refusal β} {f : α → Except Refusal γ} {g : β → Except Refusal δ} (h : Both rel c d)
    (hf : ∀ a b, rel a b → Both rel' (f a) (g b)) : Both rel' (c >>= f) (d >>= g) := by
  cases h with
  | ok hab => exact hf _ _ hab
  | error r => exact .error r

theorem Both.cases {α β : Type} {rel : α → β → Prop} {c : Except Refusal α} {d : Except Refusal β}
    (h : Both rel c d) :
    (∃ r, c = .error r ∧ d = .error r) ∨ ∃ a b, c = .ok a ∧ d = .ok b ∧ rel a b := by
  cases h with
  | ok hab => exact .inr ⟨_, _, rfl, rfl, hab⟩
  | error r => exact .inl ⟨r, rfl, rfl⟩

/-- The states look alike. -/
def AlikeUnder (view : State → State) (s u : State) : Prop := view s = view u

/-- The same value, and states that look alike. -/
def SameAndAlike {α : Type} (view : State → State) (p q : α × State) : Prop :=
  p.1 = q.1 ∧ view p.2 = view q.2

theorem Both.settle_agree {view : State → State} {c d : Except Refusal State}
    (h : Both (AlikeUnder view) c d) : Agree view (settle c) (settle d) := by
  cases h with
  | ok hab => exact hab
  | error r => exact rfl

section Operations

variable {view : State → State} {s u : State}

theorem ViewCongruence.readByte (hv : ViewCongruence view) (h : view s = view u) (k : AccessKind)
    (x : Word) : Both (SameAndAlike view) (Machine.readByte k s x) (Machine.readByte k u x) := by
  have hc := hv.core h
  unfold Machine.readByte
  rw [hc.launch]
  split
  · exact .error _
  · exact .ok ⟨hc.byteAt k x, hv.afterRead k x _ _ h⟩

theorem ViewCongruence.writeByte (hv : ViewCongruence view) (h : view s = view u) (x : Word) (v : Byte) :
    Both (AlikeUnder view) (Machine.writeByte s x v) (Machine.writeByte u x v) := by
  unfold Machine.writeByte
  rw [(hv.core h).launch]
  split
  · exact .error _
  · exact .ok (hv.afterWrite x v _ _ h)

theorem ViewCongruence.readWord (hv : ViewCongruence view) (h : view s = view u) (x : Word) :
    Both (SameAndAlike view) (Machine.readWord s x) (Machine.readWord u x) := by
  refine (hv.readByte h _ _).bind fun ⟨lo, s1⟩ ⟨lo', u1⟩ ⟨hlo, h1⟩ => ?_
  refine (hv.readByte h1 _ _).bind fun ⟨hi, s2⟩ ⟨hi', u2⟩ ⟨hhi, h2⟩ => ?_
  exact .ok ⟨congrArg₂ concat hhi hlo, h2⟩

theorem ViewCongruence.writeWord (hv : ViewCongruence view) (h : view s = view u) (x w : Word) :
    Both (AlikeUnder view) (Machine.writeWord s x w) (Machine.writeWord u x w) :=
  (hv.writeByte h _ _).bind fun _ _ h1 => hv.writeByte h1 _ _

theorem ViewCongruence.pushWord (hv : ViewCongruence view) (h : view s = view u) (w : Word) :
    Both (AlikeUnder view) (Machine.pushWord s w) (Machine.pushWord u w) := by
  unfold Machine.pushWord
  rw [(hv.core h).sp]
  refine (hv.writeByte h _ _).bind fun s1 u1 h1 => (hv.writeByte h1 _ _).bind fun s2 u2 h2 => ?_
  exact .ok (hv.setSp _ _ _ h2)

theorem ViewCongruence.popWord (hv : ViewCongruence view) (h : view s = view u) :
    Both (SameAndAlike view) (Machine.popWord s) (Machine.popWord u) := by
  unfold Machine.popWord
  rw [(hv.core h).sp]
  exact (hv.readWord h _).bind fun _ _ ⟨hw, h1⟩ => .ok ⟨hw, hv.setSp _ _ _ h1⟩

theorem ViewCongruence.doReturn (hv : ViewCongruence view) (h : view s = view u) :
    Both (AlikeUnder view) (Machine.doReturn s) (Machine.doReturn u) := by
  refine (hv.popWord h).bind fun ⟨w, s1⟩ ⟨w', u1⟩ ⟨hw, h1⟩ => .ok ?_
  obtain rfl : w = w' := hw
  exact hv.goto _ _ _ h1

theorem ViewCongruence.returnIf (hv : ViewCongruence view) (h : view s = view u) (cc : Cond) :
    Both (AlikeUnder view) (Machine.returnIf s cc) (Machine.returnIf u cc) := by
  unfold Machine.returnIf
  rw [(hv.core h).holds]
  split
  · exact hv.doReturn h
  · exact .ok (hv.advance 1 _ _ h)

theorem ViewCongruence.restart (hv : ViewCongruence view) (h : view s = view u) (n : BitVec 3)
    (npc : Word) : Both (AlikeUnder view) (Machine.restart s n npc) (Machine.restart u n npc) :=
  (hv.pushWord h npc).bind fun _ _ h1 => .ok (hv.goto _ _ _ h1)

theorem ViewCongruence.readM (hv : ViewCongruence view) (h : view s = view u) :
    Both (SameAndAlike view) (Machine.readM s) (Machine.readM u) := by
  unfold Machine.readM
  rw [(hv.core h).hl]
  exact hv.readByte h _ _

theorem ViewCongruence.writeM (hv : ViewCongruence view) (h : view s = view u) (v : Byte) :
    Both (AlikeUnder view) (Machine.writeM s v) (Machine.writeM u v) := by
  unfold Machine.writeM
  rw [(hv.core h).hl]
  exact hv.writeByte h _ _

/-- The operand of LXI (41_load_store_16.md R113). -/
theorem ViewCongruence.lxiWrite (hv : ViewCongruence view) (h : view s = view u) (name : String)
    (p : RegPair) (w : Word) :
    Both (AlikeUnder view) (admitted name (Machine.lxiWrite s p w))
      (admitted name (Machine.lxiWrite u p w)) := by
  cases p with
  | bc | de | hl => exact .ok (hv.setHalves _ _ w _ _ h)
  | sp => exact .ok (hv.setSp w _ _ h)
  | psw => exact .error _

/-- The destination of POP (45_stack.md R150). -/
theorem ViewCongruence.popWrite (hv : ViewCongruence view) (h : view s = view u) (name : String)
    (p : RegPair) (w : Word) :
    Both (AlikeUnder view) (admitted name (Machine.popWrite s p w))
      (admitted name (Machine.popWrite u p w)) := by
  cases p with
  | bc | de | hl => exact .ok (hv.setHalves _ _ w _ _ h)
  | psw =>
    unfold Machine.popWrite
    rw [(hv.core h).launch]
    exact .ok (hv.setFlags _ _ _ (hv.setReg _ _ _ _ h))
  | sp => exact .error _

/-- The operand of PUSH, where the two flag bytes are the same or none is pushed (45_stack.md R151). -/
theorem ViewCongruence.pushOperand (hv : ViewCongruence view) (h : view s = view u) (name : String)
    (p : RegPair) (hpsw : p = .psw → s.pswByte = u.pswByte) :
    Both (SameAndAlike view) (admitted name (Machine.pushOperand s p))
      (admitted name (Machine.pushOperand u p)) := by
  have hc := hv.core h
  cases p with
  | bc => exact .ok ⟨hc.bc, h⟩
  | de => exact .ok ⟨hc.de, h⟩
  | hl => exact .ok ⟨hc.hl, h⟩
  | psw => exact .ok ⟨congrArg₂ concat (hc.reg .a) (hpsw rfl), hv.countDraw _ _ h⟩
  | sp => exact .error _

end Operations

/-! ### Instructions and steps that end alike -/

section Steps

variable {view : State → State} {s u : State}

/-- The view shows what the instruction reads beyond the core: RIM the hidden state (10_state.md R38),
PUSH PSW the flag byte (R36). No other instruction reads beyond it. -/
def Shows (view : State → State) (i : Instr) : Prop :=
  ∀ s u : State, view s = view u →
    (i = .rim → SameHidden s u) ∧ (i = .push .psw → s.pswByte = u.pswByte)

/-- A change of the state that cannot stop, after an operation that both states end alike. -/
theorem Both.then_agree {c d : Except Refusal State} {f : State → State}
    (h : Both (AlikeUnder view) c d) (hf : Respects view f) :
    Agree view (settle (c >>= fun s => .ok (f s))) (settle (d >>= fun s => .ok (f s))) :=
  (h.bind (rel' := AlikeUnder view) fun _ _ h1 => .ok (hf _ _ h1)).settle_agree

/-- The same where the operation reads a value, which the change uses. -/
theorem Both.use_agree {α : Type} {c d : Except Refusal (α × State)} {f : α → State → State}
    (h : Both (SameAndAlike view) c d) (hf : ∀ v, Respects view (f v)) :
    Agree view (settle (c >>= fun p => .ok (f p.1 p.2))) (settle (d >>= fun p => .ok (f p.1 p.2))) := by
  refine (h.bind (rel' := AlikeUnder view) fun ⟨v, s1⟩ ⟨v', u1⟩ ⟨hvv, h1⟩ => .ok ?_).settle_agree
  obtain rfl : v = v' := hvv
  exact hf v s1 u1 h1

theorem ViewCongruence.execLdax (hv : ViewCongruence view) (h : view s = view u) (p : RegPair) :
    Agree view (Machine.execLdax p s) (Machine.execLdax p u) := by
  unfold Machine.execLdax
  rw [(hv.core h).ldaxAddress]
  cases Machine.ldaxAddress u p with
  | none => exact rfl
  | some x => exact (hv.readByte h _ x).use_agree fun v => (hv.setReg .a v).advance hv 1

theorem ViewCongruence.execPop (hv : ViewCongruence view) (h : view s = view u) (p : RegPair) :
    Agree view (Machine.execPop p s) (Machine.execPop p u) := by
  refine ((hv.popWord h).bind (rel' := AlikeUnder view) fun ⟨w, s1⟩ ⟨w', u1⟩ ⟨hw, h1⟩ => ?_).settle_agree
  obtain rfl : w = w' := hw
  exact (hv.popWrite h1 _ p w).bind fun _ _ h2 => .ok (hv.advance 1 _ _ h2)

theorem ViewCongruence.execPush (hv : ViewCongruence view) (h : view s = view u) {p : RegPair}
    (hpsw : p = .psw → s.pswByte = u.pswByte) :
    Agree view (Machine.execPush p s) (Machine.execPush p u) := by
  refine ((hv.pushOperand h _ p hpsw).bind (rel' := AlikeUnder view)
    fun ⟨w, s1⟩ ⟨w', u1⟩ ⟨hw, h1⟩ => ?_).settle_agree
  obtain rfl : w = w' := hw
  exact (hv.pushWord h1 w).bind fun _ _ h2 => .ok (hv.advance 1 _ _ h2)

/-- RIM, where the two hidden states are the same (10_state.md R38; log 9). -/
theorem ViewCongruence.execRim (hv : ViewCongruence view) (h : view s = view u)
    (hidden : SameHidden s u) : Agree view (Machine.execRim s) (Machine.execRim u) := by
  obtain ⟨himask, -, hr75, hie, hsid⟩ := hidden
  unfold Machine.execRim
  rw [himask, hr75, hie, hsid, (hv.core h).draws]
  exact hv.advance 1 _ _ (hv.countDraw _ _ (hv.setReg .a _ _ _ h))

theorem ViewCongruence.execSim (hv : ViewCongruence view) (h : view s = view u) :
    Agree view (Machine.execSim s) (Machine.execSim u) := by
  unfold Machine.execSim
  rw [(hv.core h).reg]
  exact hv.advance 1 _ _ (hv.simSerial _ _ _ (hv.simLatch _ _ _ (hv.simMasks _ _ _ h)))

/-- Two states that look alike go on alike, or stop alike, in every instruction all of whose reads the
view shows. -/
theorem exec_agree (hv : ViewCongruence view) {i : Instr} (hi : Shows view i)
    (h : view s = view u) : Agree view (exec i s) (exec i u) := by
  have hc := hv.core h
  obtain ⟨hrim, hpush⟩ := hi s u h
  cases i with
  | jpe | jz | jnz => exact hv.jumpIf _ _ _ _ h
  | pchl => exact hv.using (·.hl) hv.goto _ _ h
  | lda addr => exact (hv.readByte h _ addr).use_agree fun v => (hv.setReg .a v).advance hv 3
  | ldax p => exact hv.execLdax h p
  | lhld addr => exact (hv.readWord h addr).use_agree fun w => (hv.setHalves .h .l w).advance hv 3
  | lxi p w => exact (hv.lxiWrite h _ p w).then_agree (hv.advance 3)
  | shld addr =>
    show Agree view (execShld addr s) (execShld addr u)
    unfold execShld
    rw [hc.hl]
    exact (hv.writeWord h addr _).then_agree (hv.advance 3)
  | sphl => exact hv.using (·.hl) (fun w => (hv.setSp w).advance hv 1) _ _ h
  | movRR rd rs => exact hv.using (·.reg rs) (fun v => (hv.setReg rd v).advance hv 1) _ _ h
  | movMR rs =>
    show Agree view (execMovMR rs s) (execMovMR rs u)
    unfold execMovMR
    rw [hc.reg]
    exact (hv.writeM h _).then_agree (hv.advance 1)
  | movRM rd => exact (hv.readM h).use_agree fun v => (hv.setReg rd v).advance hv 1
  | mviR r v => exact (hv.setReg r v).advance hv 2 _ _ h
  | mviM v => exact (hv.writeM h v).then_agree (hv.advance 2)
  | nop => exact hv.advance 1 _ _ h
  | oraR r => exact hv.using (·.reg r) (fun v => (hv.orA v).advance hv 1) _ _ h
  | oraM => exact (hv.readM h).use_agree fun v => (hv.orA v).advance hv 1
  | ori v => exact (hv.orA v).advance hv 2 _ _ h
  | ral => exact hv.rotate shiftUp (·.getLsbD 7) _ _ h
  | rar => exact hv.rotate (fun a c => shiftDown c a) (·.getLsbD 0) _ _ h
  | rlc => exact hv.rotate (fun a _ => shiftUp a (a.getLsbD 7)) (·.getLsbD 7) _ _ h
  | rrc => exact hv.rotate (fun a _ => shiftDown (a.getLsbD 0) a) (·.getLsbD 0) _ _ h
  | out port => exact hv.using (·.reg .a) (fun v => (hv.ioWrite port v).advance hv 2) _ _ h
  | rim => exact hv.execRim h (hrim rfl)
  | sim => exact hv.execSim h
  | pop p => exact hv.execPop h p
  | push p => exact hv.execPush h fun hp => hpush (congrArg _ hp)
  | ret => exact (hv.doReturn h).settle_agree
  | rc | rnc | rp | rm | rpe | rpo | rz | rnz => exact (hv.returnIf h _).settle_agree
  | rst n =>
    show Agree view (execRst n s) (execRst n u)
    unfold execRst
    rw [hc.npc]
    exact (hv.restart h n _).settle_agree
  | sbbR r => exact hv.using (·.reg r) (fun v => (hv.sbb8 v).advance hv 1) _ _ h
  | sbbM => exact (hv.readM h).use_agree fun v => (hv.sbb8 v).advance hv 1
  | sbi v => exact (hv.sbb8 v).advance hv 2 _ _ h

/-- Two fetches from states that look alike give the same instruction, or stop alike. -/
theorem ViewCongruence.fetchInstr (hv : ViewCongruence view) (h : view s = view u) :
    Both (SameAndAlike view) (Machine.fetchInstr s) (Machine.fetchInstr u) := by
  have hc := hv.core h
  unfold Machine.fetchInstr
  rw [hc.pc, hc.launch]
  refine (hv.readByte h _ _).bind fun ⟨op, s1⟩ ⟨op', u1⟩ ⟨hop, h1⟩ => ?_
  obtain rfl : op = op' := hop
  dsimp only
  cases lookupRow op u.pc with
  | error r => exact .error r
  | ok row =>
    cases row with
    | f1 i => exact .ok ⟨rfl, h1⟩
    | f2 mk => exact (hv.readByte h1 _ _).bind fun _ _ ⟨hb2, h2⟩ => .ok ⟨congrArg mk hb2, h2⟩
    | f3 mk =>
      refine (hv.readByte h1 _ _).bind fun _ _ ⟨hb2, h2⟩ => (hv.readByte h2 _ _).bind fun _ _ ⟨hb3, h3⟩ => ?_
      exact .ok ⟨congrArg mk (congrArg₂ _ hb2 hb3), h3⟩

/-- Two states that look alike step alike, where the view shows all that the instruction whose first byte
stands at `pc` reads. -/
theorem step_agree (hv : ViewCongruence view) (h : view s = view u)
    (hi : ∀ i : Instr, i.opcode = s.byteAt .fetch s.pc → Shows view i) :
    Agree view (step s) (step u) := by
  obtain ⟨r, hs, hu⟩ | ⟨⟨i, s1⟩, ⟨j, u1⟩, hs, hu, hij, h1⟩ := (hv.fetchInstr h).cases
  · simp only [step, hs, hu]
    exact rfl
  · obtain rfl : i = j := hij
    rw [step_of_fetchInstr hs, step_of_fetchInstr hu]
    exact exec_agree hv (hi i (fetchInstr_opcode hs)) h1

end Steps

/-- All but the hidden state and the trace is visible, so all that PUSH PSW reads is; RIM alone reads
more (10_state.md R36, R38). -/
theorem shows_visible {i : Instr} (h : i ≠ .rim) : Shows State.visible i := by
  intro s u hsu
  exact ⟨fun hrim => absurd hrim h, fun _ => (congrArg State.pswByte hsu :)⟩

/-- All but AC is in the view, so all that RIM reads is; PUSH PSW alone reads AC (10_state.md R35, R38). -/
theorem shows_withoutAC {i : Instr} (h : i ≠ .push .psw) : Shows State.withoutAC i := by
  intro s u hsu
  refine ⟨fun _ => ⟨?_, ?_, ?_, ?_, ?_⟩, fun hpush => absurd hpush h⟩
  · exact (congrArg State.imask hsu.symm :)
  · exact (congrArg State.sod hsu.symm :)
  · exact (congrArg State.r75 hsu.symm :)
  · exact (congrArg State.ie hsu.symm :)
  · exact (congrArg State.sid hsu.symm :)

/-- Settles O20: the view keeps all that an instruction reads, RIM excepted, whose code is 20h. -/
theorem hiddenStateIsSeenByRimAlone : Obligations.HiddenStateIsSeenByRimAlone := by
  intro s u h hop
  refine step_agree visible_congruence h fun i hi => shows_visible ?_
  rintro rfl
  exact hop hi.symm

/-- Settles O21: the view keeps all that an instruction reads, PUSH PSW excepted, whose code is F5h. -/
theorem auxCarryIsSeenByPushPswAlone : Obligations.AuxCarryIsSeenByPushPswAlone := by
  intro s u h hop
  refine step_agree withoutAC_congruence h fun i hi => shows_withoutAC ?_
  rintro rfl
  exact hop hi.symm

end Sys2Proof.Machine
end

section
/-! PROOFS. The data accesses of an instruction (20_memory.md R51, R52, R59, R67): memory and the record of
device accesses are what performing them in order leaves, and the first one that the map does not let through
is what stops the instruction. -/

namespace Sys2Proof.Machine

/-! ### What performing accesses does to memory -/

@[simp] theorem State.perform_nil (s : State) : s.perform [] = s := rfl

@[simp] theorem State.perform_cons (s : State) (a : Access) (as : List Access) :
    s.perform (a :: as) = (s.performOne a).perform as := rfl

/-- The invariant is about memory alone (log 4). -/
theorem State.Inv.of_mem_eq {s t : State} (hi : s.Inv) (h : t.mem = s.mem) : t.Inv :=
  (congrArg Memory.wf h).trans hi

theorem performOne_wf {s : State} (a : Access) (hi : s.Inv) : (s.performOne a).Inv := by
  cases a with
  | read x => exact hi.of_mem_eq (s.afterRead_mem .read x)
  | write x v => exact afterWrite_wf x v hi
  | port p v => exact hi.of_mem_eq (s.ioWrite_mem p v)

/-- Performing accesses keeps the canonical form of memory (log 4). -/
theorem perform_wf {s : State} (as : List Access) (hi : s.Inv) : (s.perform as).Inv := by
  induction as generalizing s with
  | nil => exact hi
  | cons a as ih => exact ih (performOne_wf a hi)

theorem performOne_read {s : State} {a : Access} {x : Word} (h : ∀ v, a ≠ .write x v) :
    (s.performOne a).mem.read x = s.mem.read x := by
  cases a with
  | read y => simp [State.performOne]
  | write y v =>
    have hne : x ≠ y := by
      rintro rfl
      exact h v rfl
    exact afterWrite_read_ne v hne
  | port p v => simp [State.performOne]

/-- A location that no access of the list writes reads as before. -/
theorem perform_read {s : State} {as : List Access} {x : Word} (h : ∀ v, Access.write x v ∉ as) :
    (s.perform as).mem.read x = s.mem.read x := by
  induction as generalizing s with
  | nil => rfl
  | cons a as ih =>
    have htail : ∀ v, Access.write x v ∉ as := fun v hv => h v (List.mem_cons_of_mem a hv)
    have hhead : ∀ v, a ≠ .write x v := by
      rintro v rfl
      exact h v List.mem_cons_self
    exact (ih htail).trans (performOne_read hhead)

/-! ### What an instruction leaves is what its accesses leave -/

/-- Two states hold the same memory and the same record of device accesses. -/
def SameStorage (t u : State) : Prop := t.mem = u.mem ∧ t.bus = u.bus

/-- What a store does to memory and to the record rests on them and on the launch. -/
theorem SameStorage.afterWrite {t u : State} (h : SameStorage t u) (hl : t.launch = u.launch) (x : Word)
    (v : Byte) : SameStorage (t.afterWrite x v) (u.afterWrite x v) := by
  obtain ⟨hm, hb⟩ := h
  unfold State.afterWrite
  rw [State.isDevice_congr hl]
  split
  · exact ⟨hm, congrArg (· ++ _) hb⟩
  · exact ⟨congrArg (·.write x v) hm, hb⟩

/-- A push leaves what the two writes to the stack leave, the high half first (20_memory.md R67). -/
theorem afterPush_sameStorage (s : State) (w : Word) :
    SameStorage (s.afterPush w) (s.perform (stackWrites s (hi8 w) (lo8 w))) := ⟨rfl, rfl⟩

/-- The same for the halves apart, as PUSH of a register pair has them (45_stack.md R151). -/
theorem afterPush_concat_sameStorage (s : State) (hi lo : Byte) :
    SameStorage (s.afterPush (concat hi lo)) (s.perform (stackWrites s hi lo)) := by
  simpa using afterPush_sameStorage s (concat hi lo)

/-- The draw that PUSH PSW counts touches no storage (log 8). -/
theorem countDraw_afterPush_sameStorage (s : State) (hi lo : Byte) :
    SameStorage (s.countDraw.afterPush (concat hi lo)) (s.perform (stackWrites s hi lo)) := by
  have hdraw : SameStorage s.countDraw s := ⟨rfl, rfl⟩
  obtain ⟨hm, hb⟩ := afterPush_concat_sameStorage s.countDraw hi lo
  obtain ⟨hm', hb'⟩ := (hdraw.afterWrite rfl (s.sp - 1#16) hi).afterWrite (by simp) (s.sp - 2#16) lo
  exact ⟨hm.trans hm', hb.trans hb'⟩

/-- The accesses of a conditional return: those of RET where its condition holds (46_return_restart.md R161
to R168). -/
theorem dataAccesses_of_returnCond {i : Instr} {cc : Cond} (h : returnCond i = some cc) (s : State) :
    dataAccesses s i = if s.flags.holds cc then stackReads s else [] := by
  cases i with
  | rc | rm | rpe | rz => cases h; rfl
  | rnc | rp | rpo | rnz =>
    cases h
    simp only [dataAccesses, Flags.holds, Bool.not_eq_true', ← Bool.not_eq_true, ite_not]
  | _ => cases h

theorem afterReturnIf_sameStorage (s : State) (cc : Cond) :
    SameStorage (s.afterReturnIf cc) (s.perform (if s.flags.holds cc then stackReads s else [])) := by
  unfold State.afterReturnIf
  split <;> exact ⟨rfl, rfl⟩

/-- Memory and the record after an instruction are what its listed accesses leave. -/
theorem after_sameStorage (s : State) (i : Instr) :
    SameStorage (s.after i) (s.perform (dataAccesses s i)) := by
  cases i with
  | jpe | jz | jnz | pchl | lda | lhld | sphl | movRR | movMR | movRM | mviR | mviM | nop | oraR | oraM
  | ori | ral | rar | rlc | rrc | out | rim | ret | sbbR | sbbM | sbi => exact ⟨rfl, rfl⟩
  | sim => simp [SameStorage, State.after, sim_eq, dataAccesses]
  | ldax p | lxi p | pop p => cases p <;> exact ⟨rfl, rfl⟩
  | shld => simp [SameStorage, State.after, State.hl, dataAccesses, State.performOne]
  | push p =>
    cases p with
    | bc | de | hl => exact afterPush_concat_sameStorage s _ _
    | psw => exact countDraw_afterPush_sameStorage s _ _
    | sp => exact ⟨rfl, rfl⟩
  | rst => exact afterPush_sameStorage s (s.npc 1)
  | rc | rnc | rp | rm | rpe | rpo | rz | rnz =>
    rw [dataAccesses_of_returnCond rfl]
    exact afterReturnIf_sameStorage s _

/-- Settles O58: the state every instruction leaves is `State.after`. -/
theorem accessesArePerformedOnceInOrder : Obligations.AccessesArePerformedOnceInOrder := by
  intro i s t h
  obtain rfl := eq_after_of_exec_next h
  exact after_sameStorage s i

theorem fetchInstr_mem {s t : State} {i : Instr} (h : fetchInstr s = .ok (i, t)) : t.mem = s.mem := by
  rw [fetchInstr_frame h]

/-- Settles O10: the fetches leave memory alone, and the instruction performs accesses. -/
theorem stepKeepsMemoryCanonical : Obligations.StepKeepsMemoryCanonical := by
  intro s t hi h
  obtain ⟨i, s1, hfetch, hexec⟩ := step_eq_next.mp h
  have hi1 : s1.Inv := hi.of_mem_eq (fetchInstr_mem hfetch)
  obtain ⟨hmem, -⟩ := accessesArePerformedOnceInOrder i s1 t hexec
  exact (perform_wf (dataAccesses s1 i) hi1).of_mem_eq hmem

theorem mem_stackWrites {s : State} {hi lo v : Byte} {x : Word}
    (h : Access.write x v ∈ stackWrites s hi lo) : x ∈ [s.sp - 1#16, s.sp - 2#16] := by
  simp only [stackWrites, List.mem_cons, Access.write.injEq, List.not_mem_nil] at h ⊢
  tauto

/-- What an instruction writes, it writes to the addresses R51 lists for it (20_memory.md R51). -/
theorem mem_storedAddresses {s : State} {i : Instr} {x : Word} {v : Byte}
    (h : Access.write x v ∈ dataAccesses s i) : x ∈ storedAddresses s i := by
  cases i with
  | shld | movMR | mviM =>
    simp only [dataAccesses, storedAddresses, List.mem_cons, Access.write.injEq, List.not_mem_nil] at h ⊢
    tauto
  | rst => exact mem_stackWrites h
  | push p =>
    cases p with
    | sp => cases h
    | bc | de | hl | psw => exact mem_stackWrites h
  | rc | rnc | rp | rm | rpe | rpo | rz | rnz =>
    rw [dataAccesses_of_returnCond rfl] at h
    split at h <;> simp [stackReads] at h
  | ldax p | pop p => cases p <;> simp [dataAccesses, stackReads] at h
  | _ => simp [dataAccesses, stackReads] at h

/-- Settles O17: what an instruction writes is among its accesses, and performing them leaves the rest. -/
theorem memoryChangesOnlyWhereStored : Obligations.MemoryChangesOnlyWhereStored := by
  intro i s t h x hx
  obtain ⟨hmem, -⟩ := accessesArePerformedOnceInOrder i s t h
  rw [hmem]
  exact perform_read fun v hv => hx (mem_storedAddresses hv)

/-! ### What stops an instruction: the first of its accesses that the map does not let through -/

/-- The operation is stopped exactly by the first of these accesses that the map does not let through. -/
def StopsAtFirst {α : Type} (m : List Region) (as : List Access) (c : Except Refusal α) : Prop :=
  ∀ r, c = .error r ↔ firstRefusal m as = some r

section Rules

variable {α β : Type} {m : List Region} {s : State}

theorem stopsAtFirst_ok (a : α) : StopsAtFirst m [] (.ok a) := fun _ => ⟨nofun, nofun⟩

/-- Where an earlier access is refused, the later ones do not matter. -/
theorem firstRefusal_append (m : List Region) (as bs : List Access) :
    firstRefusal m (as ++ bs) = (firstRefusal m as).or (firstRefusal m bs) := List.findSome?_append

/-- A sequence is stopped by the accesses of its first part and then by those of the second. -/
theorem StopsAtFirst.bind {as bs : List Access} {c : Except Refusal α} {f : α → Except Refusal β}
    (hc : StopsAtFirst m as c) (hf : ∀ a, c = .ok a → StopsAtFirst m bs (f a)) :
    StopsAtFirst m (as ++ bs) (c >>= f) := by
  intro r
  rw [firstRefusal_append]
  cases c with
  | ok a =>
    have hnone : firstRefusal m as = none :=
      Option.eq_none_iff_forall_ne_some.mpr fun q hq => nomatch (hc q).mpr hq
    rw [hnone, Option.none_or]
    exact hf a rfl r
  | error q =>
    rw [(hc q).mp rfl, Option.some_or]
    simp

/-- An operation followed by one that makes no access. -/
theorem StopsAtFirst.bind_nil {as : List Access} {c : Except Refusal α} {f : α → Except Refusal β}
    (hc : StopsAtFirst m as c) (hf : ∀ a, StopsAtFirst m [] (f a)) : StopsAtFirst m as (c >>= f) := by
  simpa using hc.bind fun a _ => hf a

theorem StopsAtFirst.bind_ok {as : List Access} {c : Except Refusal α} {g : α → β}
    (hc : StopsAtFirst m as c) : StopsAtFirst m as (c >>= fun a => .ok (g a)) :=
  hc.bind_nil fun a => stopsAtFirst_ok (g a)

/-- An operand form that gives something refuses nothing (10_state.md R23). -/
theorem admitted_stopsAtFirst {x : Option α} (name : String) (h : x.isSome = true) :
    StopsAtFirst m [] (admitted name x) := by
  obtain ⟨a, rfl⟩ := Option.isSome_iff_exists.mp h
  exact stopsAtFirst_ok a

theorem StopsAtFirst.admitted_bind {as : List Access} {a : α} {f : α → Except Refusal β} (name : String)
    (h : StopsAtFirst m as (f a)) : StopsAtFirst m as (admitted name (some a) >>= f) := h

theorem readByte_stopsAtFirst (hm : s.launch.memMap = m) (x : Word) :
    StopsAtFirst m [.read x] (readByte .read s x) := fun _ => by
  rw [readByte_eq_error, firstRefusal_one, hm]
  rfl

theorem writeByte_stopsAtFirst (hm : s.launch.memMap = m) (x : Word) (v : Byte) :
    StopsAtFirst m [.write x v] (writeByte s x v) := fun _ => by
  rw [writeByte_eq_error, firstRefusal_one, hm]
  rfl

theorem readWord_stopsAtFirst (hm : s.launch.memMap = m) (x : Word) :
    StopsAtFirst m [.read x, .read (x + 1#16)] (readWord s x) := by
  refine (readByte_stopsAtFirst hm x).bind fun a ha => ?_
  obtain ⟨-, rfl⟩ := readByte_eq_ok.mp ha
  exact (readByte_stopsAtFirst (by simpa using hm) _).bind_ok

theorem writeWord_stopsAtFirst (hm : s.launch.memMap = m) (x w : Word) :
    StopsAtFirst m [.write x (lo8 w), .write (x + 1#16) (hi8 w)] (writeWord s x w) := by
  refine (writeByte_stopsAtFirst hm x (lo8 w)).bind fun a ha => ?_
  obtain ⟨-, rfl⟩ := writeByte_eq_ok.mp ha
  exact writeByte_stopsAtFirst (by simpa using hm) _ _

theorem pushWord_stopsAtFirst (hm : s.launch.memMap = m) (w : Word) :
    StopsAtFirst m (stackWrites s (hi8 w) (lo8 w)) (pushWord s w) := by
  refine (writeByte_stopsAtFirst hm (s.sp - 1#16) (hi8 w)).bind fun a ha => ?_
  obtain ⟨-, rfl⟩ := writeByte_eq_ok.mp ha
  exact (writeByte_stopsAtFirst (by simpa using hm) _ _).bind_ok

theorem popWord_stopsAtFirst (hm : s.launch.memMap = m) : StopsAtFirst m (stackReads s) (popWord s) :=
  (readWord_stopsAtFirst hm s.sp).bind_ok

theorem doReturn_stopsAtFirst (hm : s.launch.memMap = m) : StopsAtFirst m (stackReads s) (doReturn s) :=
  (popWord_stopsAtFirst hm).bind_ok

theorem returnIf_stopsAtFirst (hm : s.launch.memMap = m) (cc : Cond) :
    StopsAtFirst m (if s.flags.holds cc then stackReads s else []) (returnIf s cc) := by
  unfold returnIf
  split
  · exact doReturn_stopsAtFirst hm
  · exact stopsAtFirst_ok _

theorem dataAccesses_pop {p : RegPair} (hw : p.admittedByStack = true) (s : State) :
    dataAccesses s (.pop p) = stackReads s := by
  cases p with
  | sp => cases hw
  | bc | de | hl | psw => rfl

/-- PUSH writes the halves of what its operand form gives (45_stack.md R151). -/
theorem dataAccesses_push {p : RegPair} {w : Word} {s1 : State} (h : pushOperand s p = some (w, s1)) :
    s1.sp = s.sp ∧ dataAccesses s (.push p) = stackWrites s (hi8 w) (lo8 w) := by
  cases p <;> cases h <;> simp [dataAccesses, State.bc, State.de, State.hl]

theorem execPop_stopsAtFirst {p : RegPair} (hw : p.admittedByStack = true) (r : Refusal) :
    execPop p s = .refused r ↔ firstRefusal s.launch.memMap (dataAccesses s (.pop p)) = some r := by
  rw [dataAccesses_pop hw]
  exact settle_eq_refused.trans ((popWord_stopsAtFirst rfl).bind_nil
    (fun _ => (admitted_stopsAtFirst "POP" ((popWrite_isSome _ p _).trans hw)).bind_ok) r)

theorem execPush_stopsAtFirst {p : RegPair} (hw : p.admittedByStack = true) (r : Refusal) :
    execPush p s = .refused r ↔ firstRefusal s.launch.memMap (dataAccesses s (.push p)) = some r := by
  obtain ⟨⟨w, s1⟩, hp⟩ := Option.isSome_iff_exists.mp ((pushOperand_isSome s p).trans hw)
  obtain ⟨hsp, hd⟩ := dataAccesses_push hp
  have hpush : StopsAtFirst s.launch.memMap (stackWrites s1 (hi8 w) (lo8 w)) (pushWord s1 w) :=
    pushWord_stopsAtFirst (congrArg Launch.memMap (pushOperand_launch hp)) w
  rw [stackWrites, hsp] at hpush
  unfold execPush
  rw [hp, hd]
  exact settle_eq_refused.trans ((hpush.bind_ok.admitted_bind "PUSH") r)

/-- A well-formed instruction is refused exactly with the first of its accesses that the map does not let
through (20_memory.md R52, R67, 60_exceptions.md R206). -/
theorem exec_eq_refused_iff {i : Instr} (hw : i.wellFormed = true) (r : Refusal) :
    exec i s = .refused r ↔ firstRefusal s.launch.memMap (dataAccesses s i) = some r := by
  cases i with
  | jpe | jz | jnz | pchl | sphl | movRR | mviR | nop | oraR | ori | ral | rar | rlc | rrc | out | rim
  | sim | sbbR | sbi => exact ⟨nofun, nofun⟩
  | lda | movRM | oraM | sbbM =>
    exact settle_eq_refused.trans ((readByte_stopsAtFirst rfl _).bind_ok r)
  | movMR | mviM => exact settle_eq_refused.trans ((writeByte_stopsAtFirst rfl _ _).bind_ok r)
  | ldax p =>
    cases p with
    | bc | de =>
      exact settle_eq_refused.trans (((readByte_stopsAtFirst rfl _).bind_ok.admitted_bind "LDAX") r)
    | hl | sp | psw => cases hw
  | lhld => exact settle_eq_refused.trans ((readWord_stopsAtFirst rfl _).bind_ok r)
  | lxi p =>
    cases p with
    | psw => cases hw
    | bc | de | hl | sp => exact ⟨nofun, nofun⟩
  | shld addr =>
    have hword := (writeWord_stopsAtFirst (s := s) rfl addr s.hl).bind_ok (g := (·.advance 3)) r
    simp only [State.hl, lo8_concat, hi8_concat] at hword
    exact settle_eq_refused.trans hword
  | pop => exact execPop_stopsAtFirst hw r
  | push => exact execPush_stopsAtFirst hw r
  | ret => exact settle_eq_refused.trans (doReturn_stopsAtFirst rfl r)
  | rc | rnc | rp | rm | rpe | rpo | rz | rnz =>
    rw [dataAccesses_of_returnCond rfl]
    exact settle_eq_refused.trans (returnIf_stopsAtFirst rfl _ r)
  | rst n => exact settle_eq_refused.trans ((pushWord_stopsAtFirst rfl (s.npc 1)).bind_ok r)

end Rules

/-- Settles O59: what refuses an instruction is the first refusal, and nothing faults. -/
theorem instructionStopsAtFirstUnadmittedAccess :
    Obligations.InstructionStopsAtFirstUnadmittedAccess := by
  intro i s hw
  refine ⟨fun r hr => (exec_eq_refused_iff hw r).mpr hr, fun hnone => ?_⟩
  cases hexec : exec i s with
  | next t => exact ⟨t, rfl⟩
  | fault r => cases r
  | refused r => exact absurd (hnone.symm.trans ((exec_eq_refused_iff hw r).mp hexec)) nofun

/-- An instruction whose first access the map does not let through. -/
theorem exec_refused_at_first {s : State} {i : Instr} {a : Access} {as : List Access} {r : Refusal}
    (hw : i.wellFormed = true) (hd : dataAccesses s i = a :: as) (ha : a.refusal s.launch.memMap = some r) :
    exec i s = .refused r :=
  (exec_eq_refused_iff hw r).mpr (by simp [hd, firstRefusal, ha])

/-- An instruction of two accesses of which the map lets the first one through and not the second. -/
theorem exec_refused_at_second {s : State} {i : Instr} {a b : Access} {r : Refusal}
    (hw : i.wellFormed = true) (hd : dataAccesses s i = [a, b]) (ha : a.refusal s.launch.memMap = none)
    (hb : b.refusal s.launch.memMap = some r) : exec i s = .refused r :=
  (exec_eq_refused_iff hw r).mpr (by rw [hd, firstRefusal_two, ha, hb, Option.none_or])

theorem dataAccesses_push_eq {p : RegPair} (hw : p.admittedByStack = true) (s : State) :
    ∃ hi lo, dataAccesses s (.push p) = stackWrites s hi lo := by
  obtain ⟨⟨w, s1⟩, hp⟩ := Option.isSome_iff_exists.mp ((pushOperand_isSome s p).trans hw)
  exact ⟨_, _, (dataAccesses_push hp).2⟩

/-- The accesses of a conditional return that is taken (46_return_restart.md R161 to R168). -/
theorem dataAccesses_taken {s : State} {i : Instr} {cc : Cond} (h : returnCond i = some cc)
    (hcc : s.flags.holds cc = true) : dataAccesses s i = stackReads s := by
  rw [dataAccesses_of_returnCond h, if_pos hcc]

/-- Every conditional return is an instruction of the spec (10_state.md R23). -/
theorem wellFormed_of_returnCond {i : Instr} {cc : Cond} (h : returnCond i = some cc) :
    i.wellFormed = true := by
  cases i with
  | rc | rnc | rp | rm | rpe | rpo | rz | rnz => rfl
  | _ => cases h

/-- Settles O50: each clause names the first of the instruction's accesses, or the second of two. -/
theorem dataRefusalsComeInAccessOrder : Obligations.DataRefusalsComeInAccessOrder := by
  intro s r addr p n hp
  obtain ⟨hi, lo, hpush⟩ := dataAccesses_push_eq hp s
  have hpop := dataAccesses_pop hp s
  refine ⟨fun h => ?_, fun h1 h2 => ?_, fun h => ?_, fun h1 h2 => ?_, fun h => ?_, fun h => ?_, fun h => ?_,
    fun h => ?_, fun h => ?_, fun h1 h2 => ?_, fun h => ?_, fun h1 h2 => ?_⟩
  · exact ⟨exec_refused_at_first rfl rfl h, exec_refused_at_first rfl rfl h⟩
  · exact exec_refused_at_second rfl rfl h1 h2
  · exact exec_refused_at_first rfl rfl h
  · exact exec_refused_at_second rfl rfl h1 h2
  · exact exec_refused_at_first rfl rfl h
  · exact exec_refused_at_first rfl rfl h
  · exact ⟨fun rd => exec_refused_at_first rfl rfl h, exec_refused_at_first rfl rfl h,
      exec_refused_at_first rfl rfl h⟩
  · exact ⟨fun rs => exec_refused_at_first rfl rfl h, fun v => exec_refused_at_first rfl rfl h⟩
  · exact ⟨exec_refused_at_first hp hpop h, exec_refused_at_first rfl rfl h, fun i cc hi hcc =>
      exec_refused_at_first (wellFormed_of_returnCond hi) (dataAccesses_taken hi hcc) h⟩
  · exact ⟨exec_refused_at_second hp hpop h1 h2, exec_refused_at_second rfl rfl h1 h2, fun i cc hi hcc =>
      exec_refused_at_second (wellFormed_of_returnCond hi) (dataAccesses_taken hi hcc) h1 h2⟩
  · exact ⟨exec_refused_at_first hp hpush h, exec_refused_at_first rfl rfl h⟩
  · exact ⟨exec_refused_at_second hp hpush h1 h2, exec_refused_at_second rfl rfl h1 h2⟩

/-! ### What an access means -/

/-- What memory holds at a location of plain storage after a store there, whatever reads it. -/
theorem byteAt_afterWrite_self {s : State} {x : Word} (k : AccessKind) (v : Byte) (hi : s.Inv)
    (hd : s.isDevice x = false) : (s.afterWrite x v).byteAt k x = v := by
  rw [State.byteAt_plain k ((s.isDevice_afterWrite x x v).trans hd)]
  exact afterWrite_read_self v hi hd

theorem State.afterRead_device {s : State} {x : Word} (k : AccessKind) (h : s.isDevice x = true) :
    s.afterRead k x = { s with bus := s.bus ++ [.access k x (s.byteAt k x)] } := if_pos h

theorem State.afterWrite_device {s : State} {x : Word} (v : Byte) (h : s.isDevice x = true) :
    s.afterWrite x v = { s with bus := s.bus ++ [.access .write x v] } := if_pos h

/-- Settles O60, one lemma per clause. -/
theorem plainStorageReadsAsStored : Obligations.PlainStorageReadsAsStored := by
  intro s k x v
  refine ⟨fun hd => ⟨State.byteAt_plain k hd, State.afterRead_plain k hd, fun hi => ?_⟩, fun hd => ?_,
    fun hd hd1 => ⟨State.wordAt_plain hd hd1, State.afterReadWord_plain hd hd1⟩⟩
  · exact ⟨byteAt_afterWrite_self k v hi hd, fun y hy => afterWrite_read_ne v hy⟩
  · exact ⟨State.afterRead_device k hd, State.afterWrite_device v hd⟩

end Sys2Proof.Machine
end

section
/-! PROOFS. A store onto the next byte of code is seen by the next fetch (20_memory.md R63, decision D20):
what a step does where its bytes stand in plain storage, and what stands there after a store. -/

namespace Sys2Proof.Machine

/-- The byte `v` stands at `x` in plain storage, and the map lets a fetch through to it. -/
structure State.FetchesPlain (s : State) (x : Word) (v : Byte) : Prop where
  admits : s.admits .fetch x
  plain : s.isDevice x = false
  holds : s.mem.read x = v

section PlainStorage

variable {s : State}

/-! ### A step from plain storage -/

theorem State.FetchesPlain.byteAt {x : Word} {v : Byte} (h : s.FetchesPlain x v) :
    s.byteAt .fetch x = v := by
  rw [State.byteAt_plain .fetch h.plain, h.holds]

theorem State.FetchesPlain.afterRead {x : Word} {v : Byte} (h : s.FetchesPlain x v) :
    s.afterRead .fetch x = s := State.afterRead_plain .fetch h.plain

theorem step_f1_of_fetchesPlain {op : Byte} {i : Instr} (h0 : s.FetchesPlain s.pc op)
    (hrow : decodeOpcode op = some (.f1 i)) : step s = exec i s := by
  refine step_of_fetchInstr (fetchInstr_eq_ok.mpr ⟨h0.admits, .inl ?_⟩)
  rw [h0.byteAt, h0.afterRead]
  exact ⟨hrow, rfl⟩

theorem step_f2_of_fetchesPlain {op b2 : Byte} {mk : Byte → Instr} (h0 : s.FetchesPlain s.pc op)
    (h1 : s.FetchesPlain (s.pc + 1#16) b2) (hrow : decodeOpcode op = some (.f2 mk)) :
    step s = exec (mk b2) s := by
  refine step_of_fetchInstr (fetchInstr_eq_ok.mpr ⟨h0.admits, .inr (.inl ⟨mk, ?_⟩)⟩)
  rw [h0.byteAt, h0.afterRead, h1.byteAt, h1.afterRead]
  exact ⟨hrow, h1.admits, rfl, rfl⟩

theorem step_f3_of_fetchesPlain {op b2 b3 : Byte} {mk : Word → Instr} (h0 : s.FetchesPlain s.pc op)
    (h1 : s.FetchesPlain (s.pc + 1#16) b2) (h2 : s.FetchesPlain (s.pc + 2#16) b3)
    (hrow : decodeOpcode op = some (.f3 mk)) :
    step s = exec (mk (operandWord s.launch.operandOrder b2 b3)) s := by
  refine step_of_fetchInstr (fetchInstr_eq_ok.mpr ⟨h0.admits, .inr (.inr ⟨mk, ?_⟩)⟩)
  rw [h0.byteAt, h0.afterRead, h1.byteAt, h1.afterRead, h2.byteAt, h2.afterRead]
  exact ⟨hrow, h1.admits, h2.admits, rfl, rfl⟩

/-- A byte that the opcode table does not list is refused where it is fetched (30_encoding.md R82). -/
theorem step_unlisted_of_fetchesPlain {op : Byte} (h0 : s.FetchesPlain s.pc op)
    (hrow : decodeOpcode op = none) : step s = .refused (.unlistedOpcode op s.pc) := by
  have hfetch : fetchInstr s = .error (.unlistedOpcode op s.pc) := by
    unfold fetchInstr
    rw [readByte_admitted h0.admits, h0.byteAt]
    simp [lookupRow_eq_error.mpr ⟨hrow, rfl⟩]
  exact step_eq_refused.mpr (.inl hfetch)

/-! ### What stands in plain storage after MOV M,Rs -/

/-- The byte stored stands at H:L (42_mov_mvi_nop.md R121). -/
theorem fetchesPlain_after_movMR_self {rs : Reg} (hi : s.Inv) (hf : s.admits .fetch s.hl)
    (hd : s.isDevice s.hl = false) : (s.after (.movMR rs)).FetchesPlain s.hl (s.reg rs) := by
  refine ⟨(admits_congr (by simp [State.after]) _ _).mpr hf, ?_, afterWrite_read_self (s.reg rs) hi hd⟩
  exact (State.isDevice_congr (by simp [State.after]) _).trans hd

/-- Every other byte stands as before. -/
theorem fetchesPlain_after_movMR_ne {rs : Reg} {x : Word} (hx : x ≠ s.hl) (hf : s.admits .fetch x)
    (hd : s.isDevice x = false) : (s.after (.movMR rs)).FetchesPlain x (s.mem.read x) := by
  refine ⟨(admits_congr (by simp [State.after]) _ _).mpr hf, ?_, afterWrite_read_ne (s.reg rs) hx⟩
  exact (State.isDevice_congr (by simp [State.after]) _).trans hd

end PlainStorage

/-- Settles O36: after the store the byte stands at the new `pc`, and the bytes after it as before. -/
theorem storeIsSeenByNextFetch : Obligations.StoreIsSeenByNextFetch := by
  intro rs s hi hw hd hpc hf
  have hnext : (s.after (.movMR rs)).pc = s.pc + 1#16 := by simp [State.after, State.npc]
  have hlaunch : (s.after (.movMR rs)).launch = s.launch := by simp [State.after]
  have e2 : s.pc + 1#16 + 1#16 = s.pc + 2#16 := by bv_omega
  have e3 : s.pc + 1#16 + 2#16 = s.pc + 3#16 := by bv_omega
  have n2 : s.pc + 2#16 ≠ s.hl := by bv_omega
  have n3 : s.pc + 3#16 ≠ s.hl := by bv_omega
  have h0 : (s.after (.movMR rs)).FetchesPlain (s.after (.movMR rs)).pc (s.reg rs) := by
    rw [hnext, ← hpc]
    exact fetchesPlain_after_movMR_self hi (hpc ▸ hf) hd
  refine ⟨s.after (.movMR rs), execMovMR_eq_next.mpr ⟨hw, rfl⟩, fun i hrow => ?_,
    fun mk hrow hf2 hd2 => ?_, fun mk hrow hf2 hd2 hf3 hd3 => ?_, fun hrow => ?_⟩
  · exact step_f1_of_fetchesPlain h0 hrow
  · refine step_f2_of_fetchesPlain h0 ?_ hrow
    rw [hnext, e2]
    exact fetchesPlain_after_movMR_ne n2 hf2 hd2
  · rw [← hlaunch]
    refine step_f3_of_fetchesPlain h0 ?_ ?_ hrow
    · rw [hnext, e2]
      exact fetchesPlain_after_movMR_ne n2 hf2 hd2
    · rw [hnext, e3]
      exact fetchesPlain_after_movMR_ne n3 hf3 hd3
  · rw [← hnext]
    exact step_unlisted_of_fetchesPlain h0 hrow

end Sys2Proof.Machine
end

section
/-! PROOFS. The round trip of the decoder and the encoder, the words of the hex-code tables, and the step at
an unlisted byte (30_encoding.md R70, R76, R78, R80, R82, R85; 20_memory.md R55). -/

namespace Sys2Proof

/-! ### A row's operand bytes -/

/-- A row's instructions have the operand bytes of its format, in either order (R70, R76). -/
def Format.KeepsOperand : Format → Prop
  | .f1 i => ∀ o, i.operandBytes o = []
  | .f2 mk => ∀ o v, (mk v).operandBytes o = [v]
  | .f3 mk => ∀ o w, (mk w).operandBytes o = wordBytes o w

theorem decodeOpcode_keepsOperand {op : Byte} {f : Format} (h : decodeOpcode op = some f) :
    f.KeepsOperand := by
  obtain ⟨y, z, h | h | h | h⟩ := decodeOpcode_quadrant h
  · unfold decodeQuadrant0 at h
    repeat' split at h
    all_goals cases h <;> simp [Format.KeepsOperand, Instr.operandBytes]
  · unfold decodeQuadrant1 at h
    split at h <;> cases h <;> exact fun _ => rfl
  · unfold decodeQuadrant2 at h
    split at h <;> cases h <;> exact fun _ => rfl
  · unfold decodeQuadrant3 at h
    split at h <;> cases h <;> simp [Format.KeepsOperand, Instr.operandBytes]

end Sys2Proof

namespace Sys2Proof.Machine

/-! ### The encoding of what a first byte selects -/

theorem encode_of_f1 {op : Byte} {i : Instr} (o : OperandOrder) (h : decodeOpcode op = some (.f1 i)) :
    encode o i = [op] :=
  congrArg₂ List.cons (opcode_of_f1 h) (decodeOpcode_keepsOperand h o)

theorem encode_of_f2 {op : Byte} {mk : Byte → Instr} (o : OperandOrder)
    (h : decodeOpcode op = some (.f2 mk)) (v : Byte) : encode o (mk v) = [op, v] :=
  congrArg₂ List.cons (opcode_of_f2 h v) (decodeOpcode_keepsOperand h o v)

theorem encode_of_f3 {op : Byte} {mk : Word → Instr} (o : OperandOrder)
    (h : decodeOpcode op = some (.f3 mk)) (w : Word) : encode o (mk w) = op :: wordBytes o w :=
  congrArg₂ List.cons (opcode_of_f3 h w) (decodeOpcode_keepsOperand h o w)

/-! ### The round trip -/

/-- Settles O1: `decode_encode`, by the format of each instruction's own first byte. -/
theorem decodeInvertsEncode : Obligations.DecodeInvertsEncode :=
  fun o _ rest hw => decode_encode o hw rest

/-- Settles O2: whichever format the first byte selects, its row is well formed, has that byte as its code,
and keeps the operand bytes as they were read. -/
theorem encodeInvertsDecode : Obligations.EncodeInvertsDecode := by
  intro o bs rest i h
  obtain ⟨op, rfl, hrow⟩ | ⟨op, b2, mk, rfl, hrow, rfl⟩ | ⟨op, b2, b3, mk, rfl, hrow, rfl⟩ :=
    decode_eq_ok.mp h
  · exact ⟨decodeOpcode_wellFormed hrow, by rw [encode_of_f1 o hrow]; rfl⟩
  · exact ⟨decodeOpcode_wellFormed hrow b2, by rw [encode_of_f2 o hrow]; rfl⟩
  · exact ⟨decodeOpcode_wellFormed hrow _, by rw [encode_of_f3 o hrow, wordBytes_of_operandWord]; rfl⟩

/-- Settles O3: fifteen words, each decoded by evaluation. -/
theorem specWordsDecodeAsPrinted : Obligations.SpecWordsDecodeAsPrinted := by
  unfold Obligations.SpecWordsDecodeAsPrinted
  decide

/-! ### An unlisted byte at `pc` -/

/-- The lookup of an unlisted byte ends the fetch before any operand byte is read (R82, 10_state.md R26). -/
theorem fetchInstr_of_unlisted {s : State} (hadm : s.admits .fetch s.pc)
    (hrow : decodeOpcode (s.byteAt .fetch s.pc) = none) :
    fetchInstr s = .error (.unlistedOpcode (s.byteAt .fetch s.pc) s.pc) :=
  bind_eq_error.mpr (.inr ⟨_, readByte_admitted hadm,
    bind_eq_error.mpr (.inl (lookupRow_eq_error.mpr ⟨hrow, rfl⟩))⟩)

/-- Settles O5: R82's bytes have no row, so the fetch is refused and with it the step. -/
theorem stepRefusesUnlistedByte : Obligations.StepRefusesUnlistedByte :=
  fun _ hadm hunlisted =>
    step_eq_refused.mpr (.inl (fetchInstr_of_unlisted hadm (decodeOpcode_unlisted hunlisted)))

end Sys2Proof.Machine
end

section
/-! PROOFS. The jumps (40_jumps.md R100 to R103): a jump writes `pc` and nothing else. -/

namespace Sys2Proof.Machine

/-! ### The address a conditional jump goes on at -/

/-- A conditional jump is one write of `pc`; `npc` is three bytes on (10_state.md R26, decision D2). -/
theorem jumpIf_eq_goto (s : State) (cc : Cond) (addr : Word) :
    jumpIf s cc addr = s.goto (if s.flags.holds cc = true then addr else s.pc + 3#16) :=
  jumpIf_eq_afterJumpIf s cc addr

theorem exec_jpe_eq (addr : Word) (s : State) :
    exec (.jpe addr) s = .next (s.goto (if s.flags.p = true then addr else s.pc + 3#16)) :=
  congrArg Host.Outcome.next (jumpIf_eq_goto s .pe addr)

theorem exec_jz_eq (addr : Word) (s : State) :
    exec (.jz addr) s = .next (s.goto (if s.flags.z = true then addr else s.pc + 3#16)) :=
  congrArg Host.Outcome.next (jumpIf_eq_goto s .z addr)

theorem holds_nz_iff (f : Flags) : f.holds .nz = true ↔ f.z = false := by
  simp [Flags.holds]

theorem exec_jnz_eq (addr : Word) (s : State) :
    exec (.jnz addr) s = .next (s.goto (if s.flags.z = false then addr else s.pc + 3#16)) := by
  have hjump : exec (.jnz addr) s = .next (jumpIf s .nz addr) := rfl
  simp only [hjump, jumpIf_eq_goto, holds_nz_iff]

/-- Settles O22, one lemma per instruction. -/
theorem conditionalJumpsFollowTheirFlag : Obligations.ConditionalJumpsFollowTheirFlag :=
  fun addr s => ⟨exec_jpe_eq addr s, exec_jz_eq addr s, exec_jnz_eq addr s⟩

/-! ### The jump to H:L -/

/-- A write of `pc` leaves every register, all of memory, the hidden state and the records. -/
theorem frame_goto (s : State) (w : Word) : Frame [] [] s (s.goto w) := by
  refine ⟨fun r _ => ?regs, fun x _ => ?memory, ?hidden, ?records⟩
  case regs => exact s.reg_goto w r
  case memory => rw [State.goto_mem]
  case hidden => simp [SameHidden]
  case records => simp [SameRecords]

theorem hi8_hl (s : State) : hi8 s.hl = s.reg .h := hi8_concat _ _

theorem lo8_hl (s : State) : lo8 s.hl = s.reg .l := lo8_concat _ _

/-- Settles O23: PCHL writes H:L to `pc`, and the halves of H:L are H and L. -/
theorem pchlCopiesHlIntoPc : Obligations.PchlCopiesHlIntoPc := by
  refine ⟨fun order => ?code, fun s => ⟨s.goto s.hl, ?next, ?high, ?low, ?flags, ?sp, ?frame⟩⟩
  case code => exact encode_of_f1 order rfl
  case next => rfl
  case high => exact hi8_hl s
  case low => exact lo8_hl s
  case flags => exact s.goto_flags s.hl
  case sp => exact s.goto_sp s.hl
  case frame => exact frame_goto s s.hl

end Sys2Proof.Machine
end

section
/-! PROOFS. The 16-bit loads and stores (41_load_store_16.md R110 to R115). What each of them leaves unchanged
is read off the tables of 10_state.md and 20_memory.md, which every instruction keeps to; what it loads or
stores is read off `State.after`. -/

namespace Sys2Proof.Machine

variable {s t : State}

/-! ### The frame of an instruction, from the tables -/

/-- The instructions that append to no record and count no draw: all but OUT and SIM, which can append to the
trace (10_state.md R41), and RIM and PUSH PSW, which take a draw (00_scope.md R12; logs 8, 9). -/
def leavesRecords : Instr → Bool
  | .out _ | .sim | .rim | .push .psw => false
  | _ => true

theorem emitted_eq_nil {i : Instr} (h : leavesRecords i = true) : emitted s i = [] := by
  cases i with
  | out | sim => cases h
  | _ => rfl

@[simp] theorem State.afterPush_draws (w : Word) : (s.afterPush w).draws = s.draws := by
  simp [State.afterPush]

@[simp] theorem State.afterReturnIf_draws (cc : Cond) : (s.afterReturnIf cc).draws = s.draws := by
  unfold State.afterReturnIf; split <;> simp

theorem after_draws {i : Instr} (h : leavesRecords i = true) : (s.after i).draws = s.draws := by
  cases i with
  | out | sim | rim => cases h
  | jpe | jz | jnz | pchl | lda | shld | sphl | movRR | movMR | movRM | mviR | mviM | nop | ret | rc | rnc
  | rp | rm | rpe | rpo | rz | rnz | rst => simp [State.after]
  | oraR | oraM | ori => simp [State.after, orA]
  | sbbR | sbbM | sbi => simp [State.after, sbb8]
  | ral | rar | rlc | rrc => simp [State.after, setAccCarry]
  | lhld => simp [State.after, setHalves]
  | ldax p => cases p <;> simp [State.after]
  | lxi p | pop p => cases p <;> simp [State.after, setHalves]
  | push p =>
    cases p with
    | psw => cases h
    | bc | de | hl | sp => simp [State.after]

/-- The frame of every instruction that leaves the records alone: R22's registers, R51's addresses. -/
theorem exec_frame {i : Instr} (h : exec i s = .next t) (hrec : leavesRecords i = true) :
    Frame (writtenRegs i) (storedAddresses s i) s t := by
  obtain ⟨hhidden, -, -⟩ := hiddenStateIsWrittenBySimAlone i s t h
  obtain ⟨htrace, hlaunch⟩ := traceGrowsByOutAndSimAlone i s t h
  refine ⟨registersChangeOnlyAsTabled i s t h, memoryChangesOnlyWhereStored i s t h, hhidden ?sim,
    ?trace, ?draws, hlaunch⟩
  case sim =>
    rintro rfl
    cases hrec
  case trace => rw [htrace, emitted_eq_nil hrec, List.append_nil]
  case draws => rw [eq_after_of_exec_next h, after_draws hrec]

/-- An instruction outside R34's table leaves all five flags. -/
theorem exec_flags {i : Instr} (h : exec i s = .next t) (hall : writesAllFlags i = false)
    (hrot : isRotate i = false) : t.flags = s.flags := by
  obtain ⟨hs, hz, hac, hp, hcy⟩ := flagsChangeOnlyAsTabled i s t h hall
  exact (Flags.mk.injEq ..).mpr ⟨hs, hz, hac, hp, hcy hrot⟩

/-- The frame of an instruction that writes no flag and not `sp`, as the statements about loads, stores and
moves put it. -/
theorem exec_flags_sp_frame {i : Instr} (h : exec i s = .next t) (hrec : leavesRecords i = true)
    (hall : writesAllFlags i = false) (hrot : isRotate i = false) (hsp : spAfter s i = s.sp) :
    t.flags = s.flags ∧ t.sp = s.sp ∧ Frame (writtenRegs i) (storedAddresses s i) s t :=
  ⟨exec_flags h hall hrot, (stackPointerMovesOnlyAsTabled i s t h).trans hsp, exec_frame h hrec⟩

/-! ### The halves of a pair -/

theorem setHalves_reg_hi (hi lo : Reg) (w : Word) : (setHalves s hi lo w).reg hi = hi8 w :=
  State.reg_setReg_self _ hi _

theorem setHalves_reg_lo {hi lo : Reg} (w : Word) (h : lo ≠ hi) :
    (setHalves s hi lo w).reg lo = lo8 w :=
  (State.reg_setReg_ne _ _ h).trans (State.reg_setReg_self s lo _)

/-- A register written with what it holds. -/
theorem State.setReg_reg (r : Reg) : s.setReg r (s.reg r) = s := by
  cases r <;> rfl

/-- A pair written with what it holds. -/
theorem setHalves_concat (hi lo : Reg) : setHalves s hi lo (concat (s.reg hi) (s.reg lo)) = s := by
  rw [setHalves, lo8_concat, hi8_concat, State.setReg_reg, State.setReg_reg]

/-! ### SHLD, and LHLD after it -/

theorem exec_shld {addr : Word} (h0 : s.admits .write addr) (h1 : s.admits .write (addr + 1#16)) :
    exec (.shld addr) s = .next (s.after (.shld addr)) := execShld_eq_next.mpr ⟨⟨h0, h1⟩, rfl⟩

theorem exec_lhld {addr : Word} (h0 : s.admits .read addr) (h1 : s.admits .read (addr + 1#16)) :
    exec (.lhld addr) s = .next (s.after (.lhld addr)) := execLhld_eq_next.mpr ⟨⟨h0, h1⟩, rfl⟩

/-- What SHLD leaves, with the halves of H:L as the registers they are (41_load_store_16.md R114). -/
theorem after_shld (s : State) (addr : Word) :
    s.after (.shld addr) =
      ((s.afterWrite addr (s.reg .l)).afterWrite (addr + 1#16) (s.reg .h)).advance 3 := by
  rw [State.after, lo8_hl, hi8_hl]

/-- The two locations of a 16-bit transfer are different, across the end of memory too (decision D3). -/
theorem ne_next (x : Word) : x ≠ x + 1#16 := by bv_omega

/-- Settles O28: L stands at `addr` because the second write goes to another location. -/
theorem shldStoresLThenH : Obligations.ShldStoresLThenH := by
  intro addr s hi h0 h1
  have hexec := exec_shld h0 h1
  refine ⟨_, hexec, ?low, ?high, exec_flags_sp_frame hexec rfl rfl rfl rfl⟩
  case low =>
    rw [after_shld]
    exact stored_congr (stored_first _ _ hi (ne_next addr)) (State.advance_mem ..) (State.advance_bus ..)
  case high =>
    rw [after_shld]
    exact stored_congr (stored_second _ _ _ _ hi) (State.advance_mem ..) (State.advance_bus ..)

/-- In plain storage, a stored byte is what memory reads. -/
theorem read_of_stored {x : Word} {v : Byte} (h : Stored s x v t) (hd : s.isDevice x = false) :
    t.mem.read x = v := by
  simpa [Stored, hd] using h

/-- LHLD from plain storage where H:L stands already changes `pc` alone. -/
theorem after_lhld_of_holds_hl {addr : Word} (hd : s.isDevice addr = false)
    (hd1 : s.isDevice (addr + 1#16) = false) (hlow : s.mem.read addr = s.reg .l)
    (hhigh : s.mem.read (addr + 1#16) = s.reg .h) : s.after (.lhld addr) = s.advance 3 := by
  rw [State.after, State.afterReadWord_plain hd hd1, State.wordAt_plain hd hd1, hlow, hhigh,
    setHalves_concat]

theorem execAll_cons {i : Instr} (h : exec i s = .next t) (rest : List Instr) :
    execAll (i :: rest) s = execAll rest t := by
  simp only [execAll, h]

/-- Settles O49: after SHLD, H:L stands in memory, so LHLD changes nothing but `pc`. -/
theorem shldThenLhldRestoresHl : Obligations.ShldThenLhldRestoresHl := by
  rintro addr s hi ⟨-, hr, hw, hd⟩ ⟨-, hr1, hw1, hd1⟩
  obtain ⟨t, hshld, hlow, hhigh, hflags, hsp, hregs, -, -, -, -, hlaunch⟩ :=
    shldStoresLThenH addr s hi hw hw1
  have hlhld : exec (.lhld addr) t = .next (t.advance 3) := by
    rw [exec_lhld ((admits_congr hlaunch _ _).mpr hr) ((admits_congr hlaunch _ _).mpr hr1)]
    refine congrArg Host.Outcome.next (after_lhld_of_holds_hl ?_ ?_ ?_ ?_)
    · rw [State.isDevice_congr hlaunch, hd]
    · rw [State.isDevice_congr hlaunch, hd1]
    · rw [read_of_stored hlow hd, hregs .l List.not_mem_nil]
    · rw [read_of_stored hhigh hd1, hregs .h List.not_mem_nil]
  have hboth : execAll [.shld addr, .lhld addr] s = .next (t.advance 3) := by
    rw [execAll_cons hshld, execAll_cons hlhld, execAll]
  exact ⟨_, hboth, Regs.ext_get _ _ fun r => hregs r List.not_mem_nil, hflags, hsp⟩

/-! ### The loads -/

/-- Settles O24: the register that LDA writes is A. -/
theorem ldaLoadsAccumulator : Obligations.LdaLoadsAccumulator := by
  intro addr s hadm
  have hexec : exec (.lda addr) s = .next (s.after (.lda addr)) := execLda_eq_next.mpr ⟨hadm, rfl⟩
  exact ⟨_, hexec, State.reg_setReg_self _ .a _, exec_flags_sp_frame hexec rfl rfl rfl rfl⟩

/-- LDAX through a pair it admits (41_load_store_16.md R111, 10_state.md R23). -/
theorem exec_ldax_loads {p : RegPair} {x : Word} (hx : ldaxAddress s p = some x) (hadm : s.admits .read x) :
    ∃ t, exec (.ldax p) s = .next t ∧ t.reg .a = s.byteAt .read x ∧
      t.flags = s.flags ∧ t.sp = s.sp ∧ Frame [.a] [] s t := by
  have hexec : exec (.ldax p) s = .next ((s.afterLoad .a x).advance 1) :=
    execLdax_eq_next.mpr ⟨x, hx, hadm, rfl⟩
  exact ⟨_, hexec, State.reg_setReg_self _ .a _, exec_flags_sp_frame hexec rfl rfl rfl rfl⟩

/-- Settles O25: the two pairs are the ones that give an address. -/
theorem ldaxLoadsThroughPair : Obligations.LdaxLoadsThroughPair :=
  ⟨fun order => ⟨encode_of_f1 order rfl, encode_of_f1 order rfl⟩,
    fun _ => ⟨exec_ldax_loads rfl, exec_ldax_loads rfl⟩⟩

/-- Settles O26: L and H are the halves of the word that the two reads return. -/
theorem lhldLoadsLThenH : Obligations.LhldLoadsLThenH := by
  intro addr s h0 h1
  have hexec := exec_lhld h0 h1
  refine ⟨_, hexec, ?low, ?high, exec_flags_sp_frame hexec rfl rfl rfl rfl⟩
  case low => exact (setHalves_reg_lo (hi := .h) (lo := .l) (s.wordAt addr) nofun).trans (lo8_concat _ _)
  case high => exact (setHalves_reg_hi .h .l (s.wordAt addr)).trans (hi8_concat _ _)

/-- LXI into a pair of 8-bit registers (41_load_store_16.md R113). -/
theorem exec_lxi_loads {p : RegPair} {hi lo : Reg} {w : Word}
    (hwrite : lxiWrite s p w = some (setHalves s hi lo w)) (hne : lo ≠ hi) (hsp : p ≠ .sp) :
    ∃ t, exec (.lxi p w) s = .next t ∧ t.reg hi = hi8 w ∧ t.reg lo = lo8 w ∧
      t.flags = s.flags ∧ t.sp = s.sp ∧ Frame (writtenRegs (.lxi p w)) [] s t := by
  have hexec : exec (.lxi p w) s = .next ((setHalves s hi lo w).advance 3) :=
    execLxi_eq_next.mpr ⟨_, hwrite, rfl⟩
  exact ⟨_, hexec, setHalves_reg_hi hi lo w, setHalves_reg_lo w hne,
    exec_flags_sp_frame hexec rfl rfl rfl (if_neg hsp)⟩

/-- Settles O27: three pairs of registers, and `sp`. -/
theorem lxiLoadsPair : Obligations.LxiLoadsPair := by
  intro w s
  refine ⟨?bc, ?de, ?hl, ?sp⟩
  case bc => exact exec_lxi_loads (hi := .b) (lo := .c) rfl nofun nofun
  case de => exact exec_lxi_loads (hi := .d) (lo := .e) rfl nofun nofun
  case hl => exact exec_lxi_loads (hi := .h) (lo := .l) rfl nofun nofun
  case sp =>
    have hexec : exec (.lxi .sp w) s = .next ((s.setSp w).advance 3) := rfl
    exact ⟨_, hexec, rfl, exec_flags hexec rfl rfl, exec_frame hexec rfl⟩

/-- Settles O29: SPHL writes H:L to `sp`, and the halves of H:L are H and L. -/
theorem sphlCopiesHlIntoSp : Obligations.SphlCopiesHlIntoSp := by
  refine ⟨fun order => encode_of_f1 order rfl, fun s => ?_⟩
  have hexec : exec .sphl s = .next ((s.setSp s.hl).advance 1) := rfl
  exact ⟨_, hexec, hi8_hl s, lo8_hl s, exec_flags hexec rfl rfl, exec_frame hexec rfl⟩

end Sys2Proof.Machine
end

section
/-! PROOFS. The moves and NOP (42_mov_mvi_nop.md R120 to R125). What each of them leaves unchanged is read off
the tables (`exec_flags_sp_frame`); the byte it moves is read off the state it leaves. -/

namespace Sys2Proof.Machine

variable {s : State}

/-! ### The moves to memory -/

/-- A store followed by the step to the next instruction has stored its byte. -/
theorem stored_afterWrite_advance (x : Word) (v : Byte) (n : Nat) (hi : s.Inv) :
    Stored s x v ((s.afterWrite x v).advance n) :=
  stored_congr (stored_afterWrite x v hi) (State.advance_mem ..) (State.advance_bus ..)

/-- Settles O31: the one write goes to `s.hl`, which is H:L by definition. -/
theorem movStoresRegisterAtHl : Obligations.MovStoresRegisterAtHl := by
  refine ⟨fun order => rfl, fun rs s hi hadm => ?_⟩
  have hexec : exec (.movMR rs) s = .next ((s.afterWrite s.hl (s.reg rs)).advance 1) :=
    execMovMR_eq_next.mpr ⟨hadm, rfl⟩
  exact ⟨_, hexec, stored_afterWrite_advance s.hl _ 1 hi, exec_flags_sp_frame hexec rfl rfl rfl rfl⟩

/-- Settles O34: as for MOV M,Rs, with the byte of the instruction and one byte more to step over. -/
theorem mviStoresConstantAtHl : Obligations.MviStoresConstantAtHl := by
  refine ⟨fun order v => encode_of_f2 order rfl v, fun v s hi hadm => ?_⟩
  have hexec : exec (.mviM v) s = .next ((s.afterWrite s.hl v).advance 2) :=
    execMviM_eq_next.mpr ⟨hadm, rfl⟩
  exact ⟨_, hexec, stored_afterWrite_advance s.hl v 2 hi, exec_flags_sp_frame hexec rfl rfl rfl rfl⟩

/-! ### The moves to a register -/

/-- Settles O30: the source is read before the destination is written, so Rd = Rs is no special case. -/
theorem movCopiesRegister : Obligations.MovCopiesRegister := by
  intro rd rs s
  have hexec : exec (.movRR rd rs) s = .next ((s.setReg rd (s.reg rs)).advance 1) := rfl
  exact ⟨_, hexec, State.reg_setReg_self s rd _, exec_flags_sp_frame hexec rfl rfl rfl rfl⟩

/-- Settles O32: the byte is read at the old H:L, and the write to Rd comes after. -/
theorem movLoadsRegisterFromHl : Obligations.MovLoadsRegisterFromHl := by
  refine ⟨fun order => rfl, fun rd s hadm => ?_⟩
  have hexec : exec (.movRM rd) s = .next ((s.afterLoad rd s.hl).advance 1) :=
    execMovRM_eq_next.mpr ⟨hadm, rfl⟩
  exact ⟨_, hexec, State.reg_setReg_self _ rd _, exec_flags_sp_frame hexec rfl rfl rfl rfl⟩

/-- Settles O33: the constant is what the register then holds. -/
theorem mviLoadsConstant : Obligations.MviLoadsConstant := by
  refine ⟨fun order v => rfl, fun r v s => ?_⟩
  have hexec : exec (.mviR r v) s = .next ((s.setReg r v).advance 2) := rfl
  exact ⟨_, hexec, State.reg_setReg_self s r v, exec_flags_sp_frame hexec rfl rfl rfl rfl⟩

/-! ### NOP -/

/-- Settles O35: NOP's meaning is the step to the next byte, `pc + 1` (decision D2). -/
theorem nopChangesPcOnly : Obligations.NopChangesPcOnly := fun _ => rfl

end Sys2Proof.Machine
end

section
/-! PROOFS. The OR group and the rotates (43_logic_rotate.md R130 to R136; 95_test_vectors.md V-I (e), (f)). A
rotate is a function of A and CY. RAL and RAR turn the ring of nine bits CY:A by one place, RLC and RRC the ring of
the eight bits of A; so turning back restores the ring, and so does a turn for each of its places. -/

namespace Sys2Proof.Machine

variable {s t : State}

/-! ### The flags of an OR -/

theorem popcount_eq_onesIn (v : Byte) : popcount v = onesIn v := by
  rw [onesIn, ← List.countP_eq_length_filter]
  simp [popcount, List.range_succ, List.countP_cons, Bool.toNat, Bool.cond_eq_ite]
  ac_rfl

/-- Bit 7 by the value of the byte (10_state.md R30). -/
theorem getLsbD_seven (v : Byte) : v.getLsbD 7 = decide (128 ≤ v.toNat) :=
  (v.msb_eq_getLsbD_last).symm.trans v.msb_eq_decide

/-- `set_ZSP` gives the Z, S and P of the result (10_state.md R44). -/
theorem zspOf_setZSP (res : Byte) (f : Flags) : ZspOf res (f.setZSP res) := by
  refine ⟨?zero, getLsbD_seven res, ?parity⟩
  case zero => exact decide_eq_decide.mpr BitVec.toNat_eq
  case parity => rw [← popcount_eq_onesIn]; rfl

/-- An OR of `v` into A, read off the state `u` that the operand's access leaves. -/
theorem orEffect_of_exec {i : Instr} {u : State} {v : Byte} {n : Nat}
    (h : exec i s = .next ((orA u v).advance n)) (ha : u.reg .a = s.reg .a)
    (hrec : leavesRecords i = true) (hregs : writtenRegs i = [.a]) (haddrs : storedAddresses s i = [])
    (hsp : spAfter s i = s.sp) : OrEffect s v ((orA u v).advance n) := by
  have hacc : ((orA u v).advance n).reg .a = u.reg .a ||| v := State.reg_setReg_self u .a _
  have hframe := exec_frame h hrec
  rw [hregs, haddrs] at hframe
  refine ⟨hacc.trans (by rw [ha]), ?zsp, rfl, rfl, ?sp, hframe⟩
  case zsp => rw [hacc]; exact zspOf_setZSP _ u.flags
  case sp => exact (stackPointerMovesOnlyAsTabled i s _ h).trans hsp

/-- Settles O37: the three forms differ in where the operand comes from; reading it leaves A. -/
theorem orInstructionsSetResultAndFlags : Obligations.OrInstructionsSetResultAndFlags := by
  refine fun s => ⟨fun r => ?register, fun hadm => ?memory, fun v => ?immediate⟩
  case register =>
    have hexec : exec (.oraR r) s = .next ((orA s (s.reg r)).advance 1) := rfl
    exact ⟨_, hexec, orEffect_of_exec hexec rfl rfl rfl rfl rfl⟩
  case memory =>
    have hexec : exec .oraM s =
        .next ((orA (s.afterRead .read s.hl) (s.byteAt .read s.hl)).advance 1) :=
      execOraM_eq_next.mpr ⟨hadm, rfl⟩
    exact ⟨_, hexec, orEffect_of_exec hexec (s.reg_afterRead ..) rfl rfl rfl rfl⟩
  case immediate =>
    have hexec : exec (.ori v) s = .next ((orA s v).advance 2) := rfl
    exact ⟨_, hexec, orEffect_of_exec hexec rfl rfl rfl rfl rfl⟩

/-! ### What a rotate does to A and CY -/

/-- A and CY, the operands of a rotate. -/
abbrev State.accCarry (s : State) : Byte × Bool := (s.reg .a, s.flags.cy)

/-- A and CY after an instruction, from A and CY before: the rotates (43_logic_rotate.md R133 to R136). -/
def turn : Instr → Byte × Bool → Byte × Bool
  | .ral, (a, cy) => (shiftUp a cy, a.getLsbD 7)
  | .rar, (a, cy) => (shiftDown cy a, a.getLsbD 0)
  | .rlc, (a, _) => (shiftUp a (a.getLsbD 7), a.getLsbD 7)
  | .rrc, (a, _) => (shiftDown (a.getLsbD 0) a, a.getLsbD 0)
  | _, p => p

theorem exec_rotate {i : Instr} (h : isRotate i = true) (s : State) :
    exec i s = .next ((setAccCarry s (turn i s.accCarry).1 (turn i s.accCarry).2).advance 1) := by
  cases i with
  | ral | rar | rlc | rrc => rfl
  | _ => cases h

/-- A rotate leaves every flag but CY, and all that R22, R24 and R51 do not list for it. -/
theorem rotate_frame {i : Instr} (hrot : isRotate i = true) (h : exec i s = .next t) :
    t.flags = { s.flags with cy := t.flags.cy } ∧ t.sp = s.sp ∧ Frame [.a] [] s t := by
  have hframe : leavesRecords i = true → Frame (writtenRegs i) (storedAddresses s i) s t := exec_frame h
  have hsp := stackPointerMovesOnlyAsTabled i s t h
  have hflags := flagsChangeOnlyAsTabled i s t h
  cases i with
  | ral | rar | rlc | rrc =>
    obtain ⟨hs, hz, hac, hp, -⟩ := hflags rfl
    exact ⟨(Flags.mk.injEq ..).mpr ⟨hs, hz, hac, hp, rfl⟩, hsp, hframe rfl⟩
  | _ => cases hrot

/-! ### One rotate, in numbers and bit by bit -/

theorem toNat_getLsbD (v : Byte) (k : Nat) : (v.getLsbD k).toNat = v.toNat / 2 ^ k % 2 := by
  rw [← BitVec.testBit_toNat, Nat.toNat_testBit]

theorem shiftUp_toNat (a : Byte) (b : Bool) : (shiftUp a b).toNat = a.toNat % 128 * 2 + b.toNat :=
  BitVec.toNat_concat (a.extractLsb' 0 7) b

theorem shiftDown_toNat (b : Bool) (a : Byte) : (shiftDown b a).toNat = 128 * b.toNat + a.toNat / 2 := by
  have hhalf : (a.extractLsb' 1 7).toNat = a.toNat / 2 := by
    rw [BitVec.extractLsb'_toNat, Nat.shiftRight_eq_div_pow]; omega
  have hcons : (shiftDown b a).toNat = (BitVec.cons b (a.extractLsb' 1 7)).toNat := rfl
  rw [hcons, BitVec.toNat_cons', hhalf, Nat.shiftLeft_eq]
  omega

/-- CY:A as a number, before and after the nine bits move up one place. -/
theorem shiftUp_value (a : Byte) (cy : Bool) :
    2 * a.toNat + cy.toNat = 256 * (a.getLsbD 7).toNat + (shiftUp a cy).toNat := by
  have ha := a.isLt
  rw [toNat_getLsbD, shiftUp_toNat]
  omega

/-- CY:A as a number before the nine bits move down one place, and A:CY after. -/
theorem shiftDown_value (cy : Bool) (a : Byte) :
    256 * cy.toNat + a.toNat = 2 * (shiftDown cy a).toNat + (a.getLsbD 0).toNat := by
  rw [toNat_getLsbD, shiftDown_toNat]
  omega

/-- Settles O38: the nine bits keep their value, read from either end of the ring. -/
theorem ralRarRotateThroughCarry : Obligations.RalRarRotateThroughCarry := by
  refine ⟨fun order => ⟨rfl, rfl⟩, fun s => ⟨?ral, ?rar⟩⟩
  case ral =>
    exact ⟨_, exec_rotate (i := .ral) rfl s, shiftUp_value _ _, rfl, rotate_frame (i := .ral) rfl rfl⟩
  case rar =>
    exact ⟨_, exec_rotate (i := .rar) rfl s, shiftDown_value _ _, rfl, rotate_frame (i := .rar) rfl rfl⟩

theorem shiftUp_getLsbD_zero (a : Byte) (b : Bool) : (shiftUp a b).getLsbD 0 = b :=
  shiftUp_getLsbD a b 0 (by decide)

theorem shiftUp_getLsbD_succ (a : Byte) (b : Bool) {k : Nat} (hk : k < 7) :
    (shiftUp a b).getLsbD (k + 1) = a.getLsbD k :=
  (shiftUp_getLsbD a b (k + 1) (by omega)).trans (if_neg k.succ_ne_zero)

theorem shiftDown_getLsbD_seven (b : Bool) (a : Byte) : (shiftDown b a).getLsbD 7 = b :=
  shiftDown_getLsbD b a 7 (by decide)

theorem shiftDown_getLsbD_of_lt (b : Bool) (a : Byte) {k : Nat} (hk : k < 7) :
    (shiftDown b a).getLsbD k = a.getLsbD (k + 1) :=
  (shiftDown_getLsbD b a k (by omega)).trans (if_neg (by omega))

/-- Settles O39: seven bits move one place, and the eighth moves round. -/
theorem rlcRrcRotateAccumulator : Obligations.RlcRrcRotateAccumulator := by
  refine ⟨fun order => ⟨rfl, rfl⟩, fun s => ⟨?rlc, ?rrc⟩⟩
  case rlc =>
    exact ⟨_, exec_rotate (i := .rlc) rfl s, fun k hk => shiftUp_getLsbD_succ _ _ hk,
      shiftUp_getLsbD_zero _ _, rfl, rotate_frame (i := .rlc) rfl rfl⟩
  case rrc =>
    exact ⟨_, exec_rotate (i := .rrc) rfl s, fun k hk => shiftDown_getLsbD_of_lt _ _ hk,
      shiftDown_getLsbD_seven _ _, rfl, rotate_frame (i := .rrc) rfl rfl⟩

/-! ### Turning a ring of bits -/

section Ring

variable {P : Type} {n : Nat} [NeZero n] {ring : P → Fin n → Bool} {f g : P → P} {d e : Fin n}

/-- `f` moves every bit of the ring `d` places up. -/
def Turns (ring : P → Fin n → Bool) (d : Fin n) (f : P → P) : Prop :=
  ∀ p k, ring (f p) (k + d) = ring p k

theorem Turns.comp (hg : Turns ring e g) (hf : Turns ring d f) : Turns ring (d + e) (g ∘ f) := by
  intro p k
  rw [Function.comp_apply, ← add_assoc, hg, hf]

theorem Turns.iterate (hf : Turns ring d f) (m : Nat) : Turns ring (m • d) f^[m] := by
  induction m with
  | zero => intro p k; rw [zero_nsmul, add_zero, Function.iterate_zero_apply]
  | succ m ih => rw [succ_nsmul, Function.iterate_succ']; exact hf.comp ih

/-- A turn back undoes a turn. -/
theorem Turns.undo (hf : Turns ring d f) (hg : Turns ring (-d) g) (p : P) : ring (g (f p)) = ring p := by
  funext k
  simpa using hg.comp hf p k

/-- As many turns as the ring has places restore it. -/
theorem Turns.full (hf : Turns ring d f) (p : P) : ring (f^[n] p) = ring p := by
  have hn : n • d = 0 := by simpa using card_nsmul_eq_zero (x := d)
  funext k
  simpa [hn] using hf.iterate n p k

/-- A turn one place down, as it is said bit by bit. -/
theorem turns_neg_one (h : ∀ p k, ring (f p) k = ring p (k + 1)) : Turns ring (-1) f := by
  intro p k
  rw [h, neg_add_cancel_right]

end Ring

/-! ### The rings that the rotates turn -/

/-- The eight bits of A. -/
def accRing (p : Byte × Bool) (k : Fin 8) : Bool := p.1.getLsbD k

/-- The nine bits CY:A. -/
def carryRing (p : Byte × Bool) (k : Fin 9) : Bool := if k.val < 8 then p.1.getLsbD k else p.2

theorem fst_eq_of_accRing_eq {p q : Byte × Bool} (h : accRing p = accRing q) : p.1 = q.1 :=
  BitVec.eq_of_getLsbD_eq fun k hk => congrFun h ⟨k, hk⟩

theorem eq_of_carryRing_eq {p q : Byte × Bool} (h : carryRing p = carryRing q) : p = q := by
  refine Prod.ext (BitVec.eq_of_getLsbD_eq fun k hk => ?acc) (congrFun h 8)
  case acc =>
    have hbit := congrFun h ⟨k, by omega⟩
    simpa only [carryRing, if_pos hk] using hbit

/-- Below the top of A, the next place of the ring is the next bit. -/
theorem accRing_add_one (p : Byte × Bool) {k : Fin 8} (hk : k.val < 7) :
    accRing p (k + 1) = p.1.getLsbD (k + 1) := by
  rw [accRing, Fin.val_add_one_of_lt' (by omega)]

theorem carryRing_of_lt (p : Byte × Bool) {k : Fin 9} (hk : k.val < 8) :
    carryRing p k = p.1.getLsbD k := if_pos hk

/-- Below the top of A, the next place of the ring is the next bit. -/
theorem carryRing_add_one (p : Byte × Bool) {k : Fin 9} (hk : k.val < 7) :
    carryRing p (k + 1) = p.1.getLsbD (k + 1) := by
  have hval : (k + 1).val = k.val + 1 := Fin.val_add_one_of_lt' (by omega)
  rw [carryRing_of_lt p (by omega), hval]

theorem rlc_turns : Turns accRing 1 (turn .rlc) := by
  rintro ⟨a, cy⟩ k
  obtain hk | rfl : k.val < 7 ∨ k = 7 := by omega
  · exact (accRing_add_one _ hk).trans (shiftUp_getLsbD_succ _ _ hk)
  · exact shiftUp_getLsbD_zero _ _

theorem rrc_turns : Turns accRing (-1) (turn .rrc) := by
  refine turns_neg_one fun ⟨a, cy⟩ k => ?_
  obtain hk | rfl : k.val < 7 ∨ k = 7 := by omega
  · exact (shiftDown_getLsbD_of_lt _ _ hk).trans (accRing_add_one (a, cy) hk).symm
  · exact shiftDown_getLsbD_seven _ _

/-- Bit 7 goes to CY and CY to bit 0. -/
theorem ral_turns : Turns carryRing 1 (turn .ral) := by
  rintro ⟨a, cy⟩ k
  obtain hk | rfl | rfl : k.val < 7 ∨ k = 7 ∨ k = 8 := by omega
  · rw [carryRing_add_one _ hk, carryRing_of_lt _ (by omega)]
    exact shiftUp_getLsbD_succ _ _ hk
  · rfl
  · exact shiftUp_getLsbD_zero _ _

/-- CY goes to bit 7 and bit 0 to CY. -/
theorem rar_turns : Turns carryRing (-1) (turn .rar) := by
  refine turns_neg_one fun ⟨a, cy⟩ k => ?_
  obtain hk | rfl | rfl : k.val < 7 ∨ k = 7 ∨ k = 8 := by omega
  · rw [carryRing_add_one _ hk, carryRing_of_lt _ (by omega)]
    exact shiftDown_getLsbD_of_lt _ _ hk
  · exact shiftDown_getLsbD_seven _ _
  · rfl

/-! ### Rotates one after the other -/

/-- A and CY after instructions executed one after the other. -/
def turnAll (is : List Instr) (p : Byte × Bool) : Byte × Bool := is.foldl (fun q i => turn i q) p

theorem turnAll_replicate (n : Nat) (i : Instr) (p : Byte × Bool) :
    turnAll (List.replicate n i) p = (turn i)^[n] p := by
  induction n generalizing p with
  | zero => rfl
  | succ n ih => exact ih (turn i p)

/-- Rotates change A and CY alone, among the registers and the flags. -/
theorem execAll_rotates {is : List Instr} (h : ∀ i ∈ is, isRotate i = true) (s : State) :
    ∃ t, execAll is s = .next t ∧ t.regs = s.regs.set .a (turnAll is s.accCarry).1 ∧
      t.flags = { s.flags with cy := (turnAll is s.accCarry).2 } := by
  induction is generalizing s with
  | nil => exact ⟨s, rfl, rfl, rfl⟩
  | cons i is ih =>
    obtain ⟨t, hexec, hregs, hflags⟩ := ih (fun j hj => h j (List.mem_cons_of_mem i hj)) _
    exact ⟨t, (execAll_cons (exec_rotate (h i List.mem_cons_self) s) is).trans hexec, hregs, hflags⟩

/-- Rotates that restore A leave the registers, and every flag but CY. -/
theorem execAll_restores_acc {is : List Instr} (h : ∀ i ∈ is, isRotate i = true)
    (hacc : (turnAll is s.accCarry).1 = s.reg .a) :
    ∃ t, execAll is s = .next t ∧ t.regs = s.regs ∧
      t.flags = { s.flags with cy := (turnAll is s.accCarry).2 } := by
  obtain ⟨t, hexec, hregs, hflags⟩ := execAll_rotates h s
  rw [hacc] at hregs
  exact ⟨t, hexec, hregs, hflags⟩

/-- Rotates that restore A and CY leave the registers and the flags. -/
theorem execAll_restores_accCarry {is : List Instr} (h : ∀ i ∈ is, isRotate i = true)
    (hring : carryRing (turnAll is s.accCarry) = carryRing s.accCarry) :
    ∃ t, execAll is s = .next t ∧ t.regs = s.regs ∧ t.flags = s.flags := by
  have hturn := eq_of_carryRing_eq hring
  obtain ⟨t, hexec, hregs, hflags⟩ := execAll_restores_acc h (congrArg Prod.fst hturn)
  rw [hturn] at hflags
  exact ⟨t, hexec, hregs, hflags⟩

/-- Settles O40: each rotate turns its ring the other way round; RRC takes to CY the bit that RLC moved round. -/
theorem rotatesUndoEachOther : Obligations.RotatesUndoEachOther := by
  refine fun s => ⟨?ralRar, ?rarRal, ?rlcRrc⟩
  case ralRar => exact execAll_restores_accCarry (by decide) (ral_turns.undo rar_turns s.accCarry)
  case rarRal => exact execAll_restores_accCarry (by decide) (rar_turns.undo ral_turns s.accCarry)
  case rlcRrc =>
    obtain ⟨t, hexec, hregs, hflags⟩ := execAll_restores_acc (s := s) (is := [.rlc, .rrc]) (by decide)
      (fst_eq_of_accRing_eq (rlc_turns.undo rrc_turns s.accCarry))
    have hcy : (turnAll [.rlc, .rrc] s.accCarry).2 = (s.reg .a).getLsbD 7 := shiftUp_getLsbD_zero _ _
    rw [hcy] at hflags
    exact ⟨t, hexec, hregs, hflags⟩

/-- As many rotates as the ring CY:A has bits. -/
theorem nine_rotates_restore {i : Instr} {d : Fin 9} (hrot : isRotate i = true)
    (h : Turns carryRing d (turn i)) (s : State) :
    ∃ t, execAll (List.replicate 9 i) s = .next t ∧ t.regs = s.regs ∧ t.flags = s.flags :=
  execAll_restores_accCarry (fun _ hj => (List.eq_of_mem_replicate hj).symm ▸ hrot)
    ((congrArg carryRing (turnAll_replicate 9 i _)).trans (h.full _))

/-- As many rotates as A has bits. -/
theorem eight_rotates_restore {i : Instr} {d : Fin 8} (hrot : isRotate i = true)
    (h : Turns accRing d (turn i)) (s : State) :
    ∃ t, execAll (List.replicate 8 i) s = .next t ∧ t.regs = s.regs := by
  have hring : accRing (turnAll (List.replicate 8 i) s.accCarry) = accRing s.accCarry := by
    rw [turnAll_replicate, h.full]
  obtain ⟨t, hexec, hregs, -⟩ := execAll_restores_acc
    (fun _ hj => (List.eq_of_mem_replicate hj).symm ▸ hrot) (fst_eq_of_accRing_eq hring)
  exact ⟨t, hexec, hregs⟩

/-- Settles O41: a turn for each place of the ring, in either direction. -/
theorem fullTurnsRestoreAccumulator : Obligations.FullTurnsRestoreAccumulator :=
  fun s => ⟨nine_rotates_restore rfl ral_turns s, nine_rotates_restore rfl rar_turns s,
    eight_rotates_restore rfl rlc_turns s, eight_rotates_restore rfl rrc_turns s⟩

end Sys2Proof.Machine
end

section
/-! PROOFS. OUT, RIM and SIM (44_io_rim_sim.md R140 to R142). The three append to a record or take a draw, so
`exec_frame` does not reach them; what they leave is read off the equations of their updates (`ioWrite`,
`sim_eq`) and off the tables of 10_state.md. -/

namespace Sys2Proof.Machine

variable {s : State}

/-! ### OUT -/

theorem ioWrite_of_recorded (port v : Byte) (h : s.launch.outDev = .recorded) :
    s.ioWrite port v = { s with trace := s.trace ++ [.io port v] } := by
  rw [State.ioWrite, h]
  rfl

theorem ioWrite_of_other (port v : Byte) {k : Nat} (h : s.launch.outDev = .other k) :
    s.ioWrite port v = { s with bus := s.bus ++ [.port port v] } := by
  rw [State.ioWrite, h]

theorem exec_out_eq (port : Byte) (s : State) :
    exec (.out port) s = .next ((s.ioWrite port (s.reg .a)).advance 2) := rfl

/-- Settles O42: `IoWrite` appends to one of the two records, which the launch's `OUT_DEV` names. -/
theorem outRecordsPortAndAccumulator : Obligations.OutRecordsPortAndAccumulator := by
  refine fun port s => ⟨fun hdev => ?recorded, fun k hdev => ?other⟩
  case recorded =>
    rw [exec_out_eq, ioWrite_of_recorded port _ hdev]
    rfl
  case other =>
    rw [exec_out_eq, ioWrite_of_other port _ hdev]
    rfl

/-! ### RIM -/

/-- Settles O43: the draw is written to A; every other field is read off the tables, and the counter off `countDraw`. -/
theorem rimLoadsAnUnknownWord : Obligations.RimLoadsAnUnknownWord := by
  intro s
  have hexec : exec .rim s =
      .next (((s.setReg .a (Config.rimWord s.draws s.imask s.r75 s.ie s.sid)).countDraw).advance 1) := rfl
  obtain ⟨hhidden, -, -⟩ := hiddenStateIsWrittenBySimAlone _ _ _ hexec
  obtain ⟨htrace, hlaunch⟩ := traceGrowsByOutAndSimAlone _ _ _ hexec
  exact ⟨_, hexec, State.reg_setReg_self s .a _, registersChangeOnlyAsTabled _ _ _ hexec,
    exec_flags hexec rfl rfl, stackPointerMovesOnlyAsTabled _ _ _ hexec,
    memoryChangesOnlyWhereStored _ _ _ hexec, hhidden nofun, htrace.trans (List.append_nil _), hlaunch, rfl⟩

/-! ### SIM -/

/-- The state SIM leaves: the masks, the latch, the serial output bit and the trace by A, and `pc`. -/
def State.afterSim (s : State) (a : Byte) : State :=
  { s with
    imask := if a.getLsbD 3 then a.setWidth 3 else s.imask
    r75 := if a.getLsbD 4 then false else s.r75
    sod := if a.getLsbD 6 then a.getLsbD 7 else s.sod
    trace := if a.getLsbD 6 then s.trace ++ [.sod (a.getLsbD 7)] else s.trace
    pc := s.pc + 1#16 }

theorem exec_sim_eq (s : State) : exec .sim s = .next (s.afterSim (s.reg .a)) := by
  have hexec : exec .sim s =
      .next ((simSerial (simLatch (simMasks s (s.reg .a)) (s.reg .a)) (s.reg .a)).advance 1) := rfl
  rw [hexec, sim_eq, ← BitVec.setWidth_eq_extractLsb' (by decide), apply_ite (s.trace ++ ·), List.append_nil]
  rfl

/-- Settles O44: `State.afterSim` has R40's layout field by field and keeps every other field but `pc`. -/
theorem simSetsMasksLatchAndSerialBit : Obligations.SimSetsMasksLatchAndSerialBit := fun s =>
  ⟨_, exec_sim_eq s, rfl, rfl, rfl, rfl, rfl, rfl, rfl, rfl, rfl, fun _ _ => rfl, rfl, rfl⟩

end Sys2Proof.Machine
end

section
/-! PROOFS. PUSH and POP (45_stack.md R150, R151; 95_test_vectors.md V-I (a), (b)). Which bytes PUSH stores is
read off the list of its accesses, what POP loads off `popWrite`, and what both leave unchanged off the tables of
10_state.md and 20_memory.md. A pair pushed and popped is itself because `popWrite` undoes `pushOperand`. -/

namespace Sys2Proof.Machine

variable {s t : State} {p : RegPair}

/-! ### The pairs of two 8-bit registers -/

/-- What holds of BC, DE and HL holds of every row of the list in which the statements about the stack name
them, the high register first (10_state.md R23). -/
theorem forall_registerPairs {motive : RegPair → Reg → Reg → Prop} (hbc : motive .bc .b .c)
    (hde : motive .de .d .e) (hhl : motive .hl .h .l) :
    ∀ p hi lo, (p, hi, lo) ∈ [(RegPair.bc, Reg.b, Reg.c), (.de, .d, .e), (.hl, .h, .l)] →
      motive p hi lo := by
  intro p hi lo hrow
  simp only [List.mem_cons, Prod.mk.injEq, List.not_mem_nil, or_false] at hrow
  obtain ⟨rfl, rfl, rfl⟩ | ⟨rfl, rfl, rfl⟩ | ⟨rfl, rfl, rfl⟩ := hrow
  · exact hbc
  · exact hde
  · exact hhl

/-! ### PUSH -/

/-- PUSH goes on where the map lets both writes through, and stores the halves of what its operand form gives,
the high one first (45_stack.md R151). -/
theorem exec_push_stores {w : Word} {s1 : State} (hp : pushOperand s p = some (w, s1)) (hi : s.Inv)
    (h1 : s.admits .write (s.sp - 1#16)) (h2 : s.admits .write (s.sp - 2#16)) :
    ∃ t, exec (.push p) s = .next t ∧
      Stored s (s.sp - 1#16) (hi8 w) t ∧ Stored s (s.sp - 2#16) (lo8 w) t := by
  have hwf : p.admittedByStack = true :=
    (pushOperand_isSome s p).symm.trans (Option.isSome_of_eq_some hp)
  have haccesses : dataAccesses s (.push p) = stackWrites s (hi8 w) (lo8 w) := (dataAccesses_push hp).2
  have hadmitted : firstRefusal s.launch.memMap (dataAccesses s (.push p)) = none := by
    rw [haccesses, stackWrites, firstRefusal_two, Access.refusal, Access.refusal, h1, h2, Option.or_none]
  obtain ⟨-, hgoes⟩ := instructionStopsAtFirstUnadmittedAccess (.push p) s hwf
  obtain ⟨t, hexec⟩ := hgoes hadmitted
  obtain ⟨hmem, hbus⟩ := accessesArePerformedOnceInOrder _ s t hexec
  rw [haccesses] at hmem hbus
  have hne : s.sp - 1#16 ≠ s.sp - 2#16 := by bv_omega
  exact ⟨t, hexec, stored_congr (stored_first _ _ hi hne) hmem hbus,
    stored_congr (stored_second _ _ _ _ hi) hmem hbus⟩

/-- PUSH of a pair of 8-bit registers, which takes no draw. -/
theorem exec_push_pair {hi lo : Reg} (hp : pushOperand s p = some (concat (s.reg hi) (s.reg lo), s))
    (hrec : leavesRecords (.push p) = true) (hinv : s.Inv) (h1 : s.admits .write (s.sp - 1#16))
    (h2 : s.admits .write (s.sp - 2#16)) :
    ∃ t, exec (.push p) s = .next t ∧
      Stored s (s.sp - 1#16) (s.reg hi) t ∧ Stored s (s.sp - 2#16) (s.reg lo) t ∧
      t.sp = s.sp - 2#16 ∧ t.flags = s.flags ∧ Frame [] [s.sp - 1#16, s.sp - 2#16] s t := by
  obtain ⟨t, hexec, hhigh, hlow⟩ := exec_push_stores hp hinv h1 h2
  rw [hi8_concat] at hhigh
  rw [lo8_concat] at hlow
  exact ⟨t, hexec, hhigh, hlow, stackPointerMovesOnlyAsTabled _ _ _ hexec, exec_flags hexec rfl rfl,
    exec_frame hexec hrec⟩

/-- Settles O45: the operand form of each of the three pairs gives the pair and takes no draw. -/
theorem pushStoresPair : Obligations.PushStoresPair := fun _ hi h1 h2 =>
  forall_registerPairs (exec_push_pair rfl rfl hi h1 h2) (exec_push_pair rfl rfl hi h1 h2)
    (exec_push_pair rfl rfl hi h1 h2)

/-- PUSH writes no register (10_state.md R22). -/
theorem exec_push_regs (h : exec (.push p) s = .next t) : t.regs = s.regs :=
  Regs.ext_get _ _ fun r => registersChangeOnlyAsTabled _ _ _ h r List.not_mem_nil

/-! ### The flag byte -/

/-- Where a layout puts no flag, the flag byte has the drawn bit (10_state.md R36, log 8). -/
theorem pswBit_of_notMem {l : PswLayout} {k : Fin 8} (h : k ∉ [l.s, l.z, l.ac, l.p, l.cy]) (f : Flags)
    (u : Byte) : pswBit l f u k = u.getLsbD k := by
  simp only [List.mem_cons, List.not_mem_nil, or_false, not_or] at h
  obtain ⟨hs, hz, hac, hp, hcy⟩ := h
  rw [pswBit, if_neg hs, if_neg hz, if_neg hac, if_neg hp, if_neg hcy]

/-- The flag byte bit by bit: each flag in the bit its layout names, the drawn bits elsewhere
(10_state.md R36). -/
theorem pswByte_bits {l : PswLayout} (hl : s.launch.pswLayout = l) (hwf : l.wf = true) :
    s.pswByte.getLsbD l.s = s.flags.s ∧ s.pswByte.getLsbD l.z = s.flags.z ∧
      s.pswByte.getLsbD l.ac = s.flags.ac ∧ s.pswByte.getLsbD l.p = s.flags.p ∧
      s.pswByte.getLsbD l.cy = s.flags.cy ∧
      ∀ k : Fin 8, k ∉ [l.s, l.z, l.ac, l.p, l.cy] →
        s.pswByte.getLsbD k = (Config.pswSpare s.draws).getLsbD k := by
  have hbit (k : Fin 8) : s.pswByte.getLsbD k = pswBit l s.flags (Config.pswSpare s.draws) k := by
    rw [State.pswByte, hl, flagsToByte_getLsbD]
  obtain ⟨hs, hz, hac, hp, hcy⟩ := pswBit_of_wf hwf s.flags (Config.pswSpare s.draws)
  exact ⟨(hbit _).trans hs, (hbit _).trans hz, (hbit _).trans hac, (hbit _).trans hp,
    (hbit _).trans hcy, fun k hk => (hbit k).trans (pswBit_of_notMem hk _ _)⟩

/-- Settles O46: the halves of what PUSH PSW stores are A and the flag byte, and its draw is counted. -/
theorem pushPswStoresAccumulatorAndFlags : Obligations.PushPswStoresAccumulatorAndFlags := by
  intro s hi h1 h2
  refine ⟨?stores, fun l => pswByte_bits, fun hrec => ?recommended⟩
  case stores =>
    obtain ⟨t, hexec, hhigh, hlow⟩ := exec_push_stores (p := .psw) rfl hi h1 h2
    rw [hi8_concat] at hhigh
    rw [lo8_concat] at hlow
    obtain ⟨hhidden, -, -⟩ := hiddenStateIsWrittenBySimAlone _ _ _ hexec
    obtain ⟨htrace, hlaunch⟩ := traceGrowsByOutAndSimAlone _ _ _ hexec
    have hdraws : t.draws = s.draws + 1 := by
      rw [eq_after_of_exec_next hexec, State.after, State.advance_draws, State.afterPush_draws,
        State.countDraw_draws]
    exact ⟨t, hexec, hhigh, hlow, stackPointerMovesOnlyAsTabled _ _ _ hexec, exec_push_regs hexec,
      exec_flags hexec rfl rfl, memoryChangesOnlyWhereStored _ _ _ hexec, hhidden nofun,
      htrace.trans (List.append_nil _), hlaunch, hdraws⟩
  case recommended =>
    obtain ⟨hs, hz, hac, hp, hcy, hspare⟩ := pswByte_bits hrec (by decide)
    exact ⟨hs, hz, hac, hp, hcy, hspare 5 (by decide), hspare 3 (by decide), hspare 1 (by decide)⟩

/-! ### POP -/

/-- POP goes on where the map lets both reads through, with what its operand form makes of the word they return
(45_stack.md R150). -/
theorem exec_pop {s2 : State} (h0 : s.admits .read s.sp) (h1 : s.admits .read (s.sp + 1#16))
    (hwrite : popWrite s.afterPop p (s.wordAt s.sp) = some s2) :
    exec (.pop p) s = .next (s2.advance 1) := execPop_eq_next.mpr ⟨⟨h0, h1⟩, s2, hwrite, rfl⟩

/-- POP of a pair of 8-bit registers. -/
theorem exec_pop_pair {hi lo : Reg} {lowByte highByte : Byte} (hne : lo ≠ hi)
    (hwrite : ∀ u w, popWrite u p w = some (setHalves u hi lo w)) (hflags : writesAllFlags (.pop p) = false)
    (h0 : s.admits .read s.sp) (h1 : s.admits .read (s.sp + 1#16))
    (hword : s.wordAt s.sp = concat highByte lowByte) :
    ∃ t, exec (.pop p) s = .next t ∧ t.reg lo = lowByte ∧ t.reg hi = highByte ∧
      t.sp = s.sp + 2#16 ∧ t.flags = s.flags ∧ Frame (writtenRegs (.pop p)) [] s t := by
  have hexec := exec_pop h0 h1 (hwrite _ _)
  refine ⟨_, hexec, ?low, ?high, stackPointerMovesOnlyAsTabled _ _ _ hexec,
    exec_flags hexec hflags rfl, exec_frame hexec rfl⟩
  case low => rw [State.reg_advance, setHalves_reg_lo _ hne, hword, lo8_concat]
  case high => rw [State.reg_advance, setHalves_reg_hi, hword, hi8_concat]

/-- POP PSW (45_stack.md R150, 10_state.md R36, conflict C3). -/
theorem exec_pop_psw {lowByte highByte : Byte} (h0 : s.admits .read s.sp)
    (h1 : s.admits .read (s.sp + 1#16)) (hword : s.wordAt s.sp = concat highByte lowByte) :
    ∃ t, exec (.pop .psw) s = .next t ∧ t.reg .a = highByte ∧
      t.flags = byteToFlags s.launch.pswLayout lowByte ∧ t.sp = s.sp + 2#16 ∧ Frame [.a] [] s t := by
  have hexec := exec_pop (p := .psw) h0 h1 rfl
  refine ⟨_, hexec, ?acc, ?flags, stackPointerMovesOnlyAsTabled _ _ _ hexec, exec_frame hexec rfl⟩
  case acc => simp [hword]
  case flags => simp [hword]

/-- Settles O47: the word that the two reads return has the byte at `sp` as its low half. -/
theorem popLoadsPair : Obligations.PopLoadsPair := by
  rintro s h0 h1 _ _ rfl rfl
  refine ⟨forall_registerPairs ?bc ?de ?hl, ?psw⟩
  case bc | de | hl => exact exec_pop_pair nofun (fun _ _ => rfl) rfl h0 h1 rfl
  case psw =>
    obtain ⟨t, hexec, hacc, hflags, hsp, hframe⟩ := exec_pop_psw h0 h1 rfl
    refine ⟨t, hexec, hacc, fun l hl => ?layout, fun hl => ?recommended, hsp, hframe⟩
    case layout | recommended =>
      rw [hflags, hl]
      exact ⟨rfl, rfl, rfl, rfl, rfl⟩

/-! ### POP after PUSH -/

/-- Written back, what PUSH takes from a state changes no register and no flag; the drawn bits go nowhere
(10_state.md R36). -/
theorem popWrite_of_pushOperand {w : Word} {s1 : State} (hp : pushOperand s p = some (w, s1))
    (hwf : p = .psw → s.launch.pswLayout.wf = true) (hregs : t.regs = s.regs) (hflags : t.flags = s.flags)
    (hlaunch : t.launch = s.launch) : popWrite t p w = some t := by
  have hreg (r : Reg) : s.reg r = t.reg r := congrArg (Regs.get · r) hregs.symm
  cases p with
  | sp => cases hp
  | bc | de | hl =>
    cases hp
    refine congrArg some ?_
    simp only [State.bc, State.de, State.hl, hreg, setHalves_concat]
  | psw =>
    cases hp
    have hbyte : byteToFlags t.launch.pswLayout s.pswByte = t.flags := by
      rw [hlaunch, hflags]
      exact byteToFlags_flagsToByte (hwf rfl) _ _
    simp only [popWrite, hi8_concat, lo8_concat, hbyte, hreg, State.setReg_reg]
    rfl

/-- POP from plain storage that holds what PUSH takes changes `sp` and `pc` alone. -/
theorem exec_pop_of_holds {w : Word} (h0 : t.admits .read t.sp) (h1 : t.admits .read (t.sp + 1#16))
    (hd0 : t.isDevice t.sp = false) (hd1 : t.isDevice (t.sp + 1#16) = false)
    (hlow : t.mem.read t.sp = lo8 w) (hhigh : t.mem.read (t.sp + 1#16) = hi8 w)
    (hwrite : ∀ v, popWrite (t.setSp v) p w = some (t.setSp v)) :
    exec (.pop p) t = .next ((t.setSp (t.sp + 2#16)).advance 1) := by
  refine exec_pop h0 h1 ?_
  rw [State.afterPop, State.afterReadWord_plain hd0 hd1, State.wordAt_plain hd0 hd1, hlow, hhigh,
    concat_halves, hwrite]

/-- Settles O48: after PUSH the word stands at `sp` in plain storage, and POP writes it back where it was. -/
theorem pushThenPopRestores : Obligations.PushThenPopRestores := by
  rintro p s hp hi hwf ⟨-, hr1, hw1, hd1⟩ ⟨-, hr2, hw2, hd2⟩
  obtain ⟨⟨w, s1⟩, hoperand⟩ := Option.isSome_iff_exists.mp ((pushOperand_isSome s p).trans hp)
  obtain ⟨t, hpush, hhigh, hlow⟩ := exec_push_stores hoperand hi hw1 hw2
  obtain ⟨-, hlaunch⟩ := traceGrowsByOutAndSimAlone _ _ _ hpush
  have hregs : t.regs = s.regs := exec_push_regs hpush
  have hflags : t.flags = s.flags := exec_flags hpush rfl rfl
  have hsp : t.sp = s.sp - 2#16 := stackPointerMovesOnlyAsTabled _ _ _ hpush
  have hpc : t.pc = s.pc + 1#16 := pcIsSequentialUnlessTransfer _ _ _ hpush rfl
  have hnext : t.sp + 1#16 = s.sp - 1#16 := by bv_omega
  have hpop : exec (.pop p) t = .next ((t.setSp (t.sp + 2#16)).advance 1) := by
    refine exec_pop_of_holds (w := w) ?_ ?_ ?_ ?_ ?_ ?_ fun v =>
      popWrite_of_pushOperand hoperand hwf hregs hflags hlaunch
    · rwa [admits_congr hlaunch, hsp]
    · rwa [admits_congr hlaunch, hnext]
    · rw [State.isDevice_congr hlaunch, hsp, hd2]
    · rw [State.isDevice_congr hlaunch, hnext, hd1]
    · rw [hsp, read_of_stored hlow hd2]
    · rw [hnext, read_of_stored hhigh hd1]
  have hboth : execAll [.push p, .pop p] s = .next ((t.setSp (t.sp + 2#16)).advance 1) := by
    rw [execAll_cons hpush, execAll_cons hpop, execAll]
  refine ⟨_, hboth, hregs, hflags, ?sp, ?pc, memoryChangesOnlyWhereStored _ _ _ hpush⟩
  case sp =>
    show t.sp + 2#16 = s.sp
    bv_omega
  case pc =>
    show t.pc + 1#16 = s.pc + 2#16
    bv_omega

end Sys2Proof.Machine
end

section
/-! PROOFS. RET, the conditional returns and RST n (46_return_restart.md R160 to R170; 95_test_vectors.md V-I (c)).
A conditional return is RET or the step to the next byte, by the condition it tests. What RST n stores is a push of
the next address, and what each instruction leaves unchanged is read off the tables of 10_state.md and
20_memory.md. -/

namespace Sys2Proof.Machine

variable {s t : State} {n : BitVec 3}

/-! ### RST n -/

/-- RST n goes on where the map lets both writes through: a push of the next address and a jump
(46_return_restart.md R170, decision D6). -/
theorem exec_rst (h1 : s.admits .write (s.sp - 1#16)) (h2 : s.admits .write (s.sp - 2#16)) :
    exec (.rst n) s = .next ((s.afterPush (s.pc + 1#16)).goto (restartAddress n)) :=
  execRst_eq_next.mpr ⟨⟨h1, h2⟩, rfl⟩

/-- A push stores both halves of its word: its two writes go to different locations (20_memory.md R67). -/
theorem stored_afterPush (w : Word) (hi : s.Inv) :
    Stored s (s.sp - 1#16) (hi8 w) (s.afterPush w) ∧ Stored s (s.sp - 2#16) (lo8 w) (s.afterPush w) := by
  have hne : s.sp - 1#16 ≠ s.sp - 2#16 := by bv_omega
  exact ⟨stored_congr (stored_first _ _ hi hne) (State.setSp_mem ..) (State.setSp_bus ..),
    stored_congr (stored_second _ _ _ _ hi) (State.setSp_mem ..) (State.setSp_bus ..)⟩

/-- Settles O53: a push of the next address, and the jump, which touches no storage. -/
theorem rstSavesNextAddressAndRestarts : Obligations.RstSavesNextAddressAndRestarts := by
  intro n s hi h1 h2
  have hexec := exec_rst (n := n) h1 h2
  obtain ⟨hhigh, hlow⟩ := stored_afterPush (s.pc + 1#16) hi
  exact ⟨_, hexec, restartAddress_toNat n, stored_congr hhigh (State.goto_mem ..) (State.goto_bus ..),
    stored_congr hlow (State.goto_mem ..) (State.goto_bus ..), stackPointerMovesOnlyAsTabled _ _ _ hexec,
    exec_flags hexec rfl rfl, exec_frame hexec rfl⟩

/-! ### RET -/

/-- RET goes on where the map lets both reads through: `pc` is the word they return, and `sp` rises by 2
(46_return_restart.md R160, R169, decision D5). -/
theorem exec_ret (h0 : s.admits .read s.sp) (h1 : s.admits .read (s.sp + 1#16)) :
    exec .ret s = .next { s.afterReadWord s.sp with pc := s.wordAt s.sp, sp := s.sp + 2#16 } :=
  execRet_eq_next.mpr ⟨⟨h0, h1⟩, rfl⟩

/-- RET from plain storage, whose reads leave no mark (20_memory.md R52). -/
theorem exec_ret_plain (h0 : s.admits .read s.sp) (h1 : s.admits .read (s.sp + 1#16))
    (hd0 : s.isDevice s.sp = false) (hd1 : s.isDevice (s.sp + 1#16) = false) :
    exec .ret s = .next { s with
      pc := concat (s.mem.read (s.sp + 1#16)) (s.mem.read s.sp), sp := s.sp + 2#16 } := by
  rw [exec_ret h0 h1, State.afterReadWord_plain hd0 hd1, State.wordAt_plain hd0 hd1]

/-- Settles O51: `pc` is the word that the two reads return, whose halves are the bytes read. -/
theorem retLoadsPcFromStack : Obligations.RetLoadsPcFromStack := by
  intro s h0 h1
  have hexec := exec_ret h0 h1
  exact ⟨_, hexec, lo8_concat _ _, hi8_concat _ _, stackPointerMovesOnlyAsTabled _ _ _ hexec,
    exec_flags hexec rfl rfl, exec_frame hexec rfl⟩

/-! ### The conditional returns -/

/-- Each row of the list in which the statement names the conditional returns is the return and the condition
it tests (00_scope.md R14). -/
theorem returnCond_of_mem_returns {i : Instr} {cond : Bool} {f : Flags}
    (h : (i, cond) ∈ [(Instr.rnz, !f.z), (.rz, f.z), (.rnc, !f.cy), (.rc, f.cy), (.rpo, !f.p), (.rpe, f.p),
      (.rp, !f.s), (.rm, f.s)]) : ∃ cc, returnCond i = some cc ∧ f.holds cc = cond := by
  simp only [List.mem_cons, Prod.mk.injEq, List.not_mem_nil, or_false] at h
  obtain ⟨rfl, rfl⟩ | ⟨rfl, rfl⟩ | ⟨rfl, rfl⟩ | ⟨rfl, rfl⟩ | ⟨rfl, rfl⟩ | ⟨rfl, rfl⟩ | ⟨rfl, rfl⟩ |
    ⟨rfl, rfl⟩ := h
  all_goals exact ⟨_, rfl, rfl⟩

theorem exec_of_returnCond {i : Instr} {cc : Cond} (h : returnCond i = some cc) (s : State) :
    exec i s = settle (returnIf s cc) := by
  cases i with
  | rc | rnc | rp | rm | rpe | rpo | rz | rnz => cases h; rfl
  | _ => cases h

/-- A return whose condition holds (46_return_restart.md R161 to R168). -/
theorem exec_return_taken {i : Instr} {cc : Cond} (h : returnCond i = some cc)
    (hcc : s.flags.holds cc = true) : exec i s = exec .ret s :=
  (exec_of_returnCond h s).trans (congrArg settle (if_pos hcc))

/-- A return whose condition does not hold ends like NOP, at `npc` (decision D2). -/
theorem exec_return_untaken {i : Instr} {cc : Cond} (h : returnCond i = some cc)
    (hcc : s.flags.holds cc = false) : exec i s = .next (s.advance 1) :=
  (exec_of_returnCond h s).trans (settle_returnIf_eq_next.mpr (.inr ⟨hcc, rfl⟩))

/-- Settles O52: RET where the condition holds, the step to the next byte where it does not. -/
theorem conditionalReturnsFollowTheirFlag : Obligations.ConditionalReturnsFollowTheirFlag := by
  intro i cond s hrow
  obtain ⟨cc, hcond, rfl⟩ := returnCond_of_mem_returns hrow
  refine ⟨fun hcc h0 h1 => ?taken, fun hcc => exec_return_untaken hcond hcc⟩
  case taken =>
    have hret := exec_return_taken hcond hcc
    exact ⟨hret, hret.trans (exec_ret h0 h1), fun hd0 hd1 => hret.trans (exec_ret_plain h0 h1 hd0 hd1)⟩

/-! ### RET after RST n -/

/-- RET from plain storage that holds the halves of `w` at the top of the stack goes to `w`. -/
theorem exec_ret_of_holds {w : Word} (h0 : t.admits .read t.sp) (h1 : t.admits .read (t.sp + 1#16))
    (hd0 : t.isDevice t.sp = false) (hd1 : t.isDevice (t.sp + 1#16) = false)
    (hlow : t.mem.read t.sp = lo8 w) (hhigh : t.mem.read (t.sp + 1#16) = hi8 w) :
    exec .ret t = .next { t with pc := w, sp := t.sp + 2#16 } := by
  rw [exec_ret_plain h0 h1 hd0 hd1, hlow, hhigh, concat_halves]

/-- Settles O54: after RST n the next address stands at `sp` in plain storage, and RET goes to it. -/
theorem rstThenRetComesBack : Obligations.RstThenRetComesBack := by
  rintro n s hi ⟨-, hr1, hw1, hd1⟩ ⟨-, hr2, hw2, hd2⟩
  obtain ⟨t, hrst, -, hhigh, hlow, hsp, hflags, hregs, -, -, -, -, hlaunch⟩ :=
    rstSavesNextAddressAndRestarts n s hi hw1 hw2
  have hnext : t.sp + 1#16 = s.sp - 1#16 := by bv_omega
  have hback : t.sp + 2#16 = s.sp := by bv_omega
  have hret : exec .ret t = .next { t with pc := s.pc + 1#16, sp := t.sp + 2#16 } := by
    refine exec_ret_of_holds ?_ ?_ ?_ ?_ ?_ ?_
    · rwa [admits_congr hlaunch, hsp]
    · rwa [admits_congr hlaunch, hnext]
    · rw [State.isDevice_congr hlaunch, hsp, hd2]
    · rw [State.isDevice_congr hlaunch, hnext, hd1]
    · rw [hsp, read_of_stored hlow hd2]
    · rw [hnext, read_of_stored hhigh hd1]
  have hboth : execAll [.rst n, .ret] s = .next { t with pc := s.pc + 1#16, sp := t.sp + 2#16 } := by
    rw [execAll_cons hrst, execAll_cons hret, execAll]
  exact ⟨_, hboth, rfl, hback, Regs.ext_get _ _ fun r => hregs r List.not_mem_nil, hflags⟩

end Sys2Proof.Machine
end

section
/-! PROOFS. Subtract with borrow (47_subtract.md R180 to R183). The 9-bit difference is read as an integer, and
each form differs from the others in where its operand comes from. SBB A is the case where the operand is A. -/

namespace Sys2Proof.Machine

variable {s t u : State}

/-! ### The recommended `AC_SUB` -/

theorem toNat_and_lowHalf (v : Byte) : (v &&& 0x0F#8).toNat = v.toNat % 16 :=
  (BitVec.toNat_and ..).trans (Nat.and_two_pow_sub_one_eq_mod v.toNat 4)

/-- The carry out of bit 3 says that the low half of A covers the low half of the operand and the borrow
(10_state.md R33). -/
theorem acSubRecommended_iff (a v : Byte) (c : Bool) :
    acSubRecommended a v c = true ↔ v.toNat % 16 + c.toNat ≤ a.toNat % 16 := by
  have hv := v.isLt
  have hc := c.toNat_le
  have hnot : (~~~v &&& 0x0F#8).toNat = 15 - v.toNat % 16 := by
    rw [toNat_and_lowHalf, BitVec.toNat_not]
    omega
  rw [acSubRecommended, decide_eq_true_iff, toNat_and_lowHalf, hnot]
  omega

/-! ### What a subtraction leaves -/

/-- The 8-bit result is the integer difference modulo 256 (R180, decision D7). -/
theorem difference9_low_int (a v : Byte) (c : Bool) :
    (((difference9 a v c).setWidth 8).toNat : Int) = ((a.toNat : Int) - v.toNat - c.toNat) % 256 := by
  have hv := v.isLt
  have hc := c.toNat_le
  rw [difference9_low]
  omega

theorem sbb8_acc (v : Byte) :
    (sbb8 u v).reg .a = (difference9 (u.reg .a) v u.flags.cy).setWidth 8 := rfl

theorem sbb8_cy (v : Byte) :
    (sbb8 u v).flags.cy = decide ((u.reg .a).toNat < v.toNat + u.flags.cy.toNat) :=
  difference9_borrow ..

theorem sbb8_ac (v : Byte) :
    (sbb8 u v).flags.ac = acSub u.launch.acSub (u.reg .a) v u.flags.cy := rfl

theorem sbb8_zsp (v : Byte) : ZspOf ((sbb8 u v).reg .a) (sbb8 u v).flags :=
  zspOf_setZSP _ u.flags

/-- A subtraction of `v` from A, read off the state `u` that the operand's access leaves. -/
theorem sbbEffect_of_exec {i : Instr} {v : Byte} {n : Nat}
    (h : exec i s = .next ((sbb8 u v).advance n)) (ha : u.reg .a = s.reg .a) (hf : u.flags = s.flags)
    (hl : u.launch = s.launch) (hrec : leavesRecords i = true) (hregs : writtenRegs i = [.a])
    (haddrs : storedAddresses s i = []) (hsp : spAfter s i = s.sp) :
    SbbEffect s v ((sbb8 u v).advance n) := by
  have hframe := exec_frame h hrec
  rw [hregs, haddrs] at hframe
  have hac : (sbb8 u v).flags.ac = acSub s.launch.acSub (s.reg .a) v s.flags.cy := by
    rw [sbb8_ac, ha, hf, hl]
  refine ⟨?acc, ?borrow, sbb8_zsp v, hac, fun hrecommended => ?ac,
    (stackPointerMovesOnlyAsTabled i s _ h).trans hsp, hframe⟩
  case acc =>
    rw [← ha, ← hf]
    exact difference9_low_int ..
  case borrow =>
    rw [← ha, ← hf]
    exact (Bool.eq_iff_iff.mp (sbb8_cy v)).trans decide_eq_true_iff
  case ac =>
    rw [← acSubRecommended_iff]
    refine Bool.eq_iff_iff.mp (hac.trans ?_)
    rw [hrecommended]
    rfl

/-- Settles O55: the three forms differ in where the operand comes from; reading it leaves A, the flags and
the launch. -/
theorem subtractInstructionsSetResultAndFlags : Obligations.SubtractInstructionsSetResultAndFlags := by
  refine fun s => ⟨fun r => ?register, fun hadm => ?memory, fun v => ?immediate⟩
  case register =>
    have hexec : exec (.sbbR r) s = .next ((sbb8 s (s.reg r)).advance 1) := rfl
    exact ⟨_, hexec, sbbEffect_of_exec hexec rfl rfl rfl rfl rfl rfl rfl⟩
  case memory =>
    have hexec : exec .sbbM s =
        .next ((sbb8 (s.afterRead .read s.hl) (s.byteAt .read s.hl)).advance 1) :=
      execSbbM_eq_next.mpr ⟨hadm, rfl⟩
    exact ⟨_, hexec, sbbEffect_of_exec hexec (s.reg_afterRead ..) (s.afterRead_flags ..)
      (s.afterRead_launch ..) rfl rfl rfl rfl⟩
  case immediate =>
    have hexec : exec (.sbi v) s = .next ((sbb8 s v).advance 2) := rfl
    exact ⟨_, hexec, sbbEffect_of_exec hexec rfl rfl rfl rfl rfl rfl rfl⟩

/-! ### SBB A -/

/-- Subtracting A from itself leaves minus the borrow: all bits of the result are CY (R181, corner cases). -/
theorem acc_of_sbbEffect_self (h : SbbEffect s (s.reg .a) t) :
    t.reg .a = if s.flags.cy then 0xFF#8 else 0x00#8 := by
  obtain ⟨hacc, -⟩ := h
  rw [sub_self, zero_sub] at hacc
  apply BitVec.eq_of_toNat_eq
  cases hcy : s.flags.cy <;> rw [hcy] at hacc <;> exact Int.ofNat_inj.mp hacc

/-- A number is below itself and a borrow exactly when there is a borrow. -/
theorem cy_of_sbbEffect_self (h : SbbEffect s (s.reg .a) t) : t.flags.cy = s.flags.cy := by
  obtain ⟨-, hcy, -⟩ := h
  rw [Bool.eq_iff_iff, hcy, Nat.lt_add_right_iff_pos]
  cases s.flags.cy <;> decide

/-- Settles O56: SBB A is SBB R at A; Z, S and P are those of 00h or FFh. -/
theorem sbbASpreadsCarry : Obligations.SbbASpreadsCarry := by
  intro s
  obtain ⟨hregister, -, -⟩ := subtractInstructionsSetResultAndFlags s
  obtain ⟨t, hexec, heffect⟩ := hregister .a
  have hacc := acc_of_sbbEffect_self heffect
  have hcy := cy_of_sbbEffect_self heffect
  obtain ⟨-, -, ⟨hz, hs, hp⟩, -⟩ := heffect
  rw [hacc] at hz hs hp
  refine ⟨t, hexec, hacc, hcy, ?_⟩
  rw [hz, hs, hp]
  cases s.flags.cy <;> decide

end Sys2Proof.Machine
end

section
/-! PROOFS. The order in which a fetch is refused (60_exceptions.md R206, 20_memory.md R67, decision D25), and
where a run ends (70_reset_and_hazards.md R234, decision D22; log 16). -/

namespace Sys2Proof.Machine

variable {s t : State} {r : Refusal}

/-! ### The refusals of a fetch -/

/-- Past a listed first byte of the format F2 the fetch is that of its one operand byte (30_encoding.md R70). -/
theorem fetchInstr_of_f2 {mk : Byte → Instr} (hadm : s.admits .fetch s.pc)
    (hrow : decodeOpcode (s.byteAt .fetch s.pc) = some (.f2 mk)) :
    fetchInstr s = readByte .fetch (s.afterRead .fetch s.pc) (s.pc + 1#16) >>= fun p => .ok (mk p.1, p.2) := by
  simp only [fetchInstr, readByte_admitted hadm, bind_ok, lookupRow_eq_ok.mpr hrow]
  rfl

/-- Past a listed first byte of the format F3 the fetch is that of its operand bytes, the lower address first
(30_encoding.md R70, 20_memory.md R67). -/
theorem fetchInstr_of_f3 {mk : Word → Instr} (hadm : s.admits .fetch s.pc)
    (hrow : decodeOpcode (s.byteAt .fetch s.pc) = some (.f3 mk)) :
    fetchInstr s = readByte .fetch (s.afterRead .fetch s.pc) (s.pc + 1#16) >>= fun p =>
      readByte .fetch p.2 (s.pc + 2#16) >>= fun q =>
        .ok (mk (operandWord s.launch.operandOrder p.1 q.1), q.2) := by
  simp only [fetchInstr, readByte_admitted hadm, bind_ok, lookupRow_eq_ok.mpr hrow]
  rfl

/-- Reads leave the map as it is, so that it refuses a later fetch of the same step as it would a first one. -/
theorem readByte_fetch_refused {x : Word} (hl : t.launch = s.launch)
    (h : mapRefusal s.launch.memMap .fetch x = some r) : readByte .fetch t x = .error r :=
  readByte_refused (hl ▸ h)

/-- Settles O6: each clause is the bind of `fetchInstr` at which the refusal stands, past the bytes admitted. No
clause reaches `exec`, so a condition that does not hold makes no difference. -/
theorem fetchRefusalsComeInAddressOrder : Obligations.FetchRefusalsComeInAddressOrder := by
  intro s r
  have hlaunch : (s.afterRead .fetch s.pc).launch = s.launch := s.afterRead_launch ..
  refine ⟨fun h0 => ?first, fun mk h0 hrow h1 => ?secondOfTwo, fun mk h0 hrow h1 => ?secondOfThree,
    fun mk h0 hrow h1 h2 => ?third⟩
  all_goals refine step_eq_refused.mpr (.inl ?_)
  case first => exact bind_eq_error.mpr (.inl (readByte_refused h0))
  case secondOfTwo =>
    rw [fetchInstr_of_f2 h0 hrow]
    exact bind_eq_error.mpr (.inl (readByte_fetch_refused hlaunch h1))
  case secondOfThree =>
    rw [fetchInstr_of_f3 h0 hrow]
    exact bind_eq_error.mpr (.inl (readByte_fetch_refused hlaunch h1))
  case third =>
    have hsecond := readByte_admitted ((admits_congr hlaunch ..).mpr h1)
    have hlaunch' := ((s.afterRead .fetch s.pc).afterRead_launch .fetch (s.pc + 1#16)).trans hlaunch
    rw [fetchInstr_of_f3 h0 hrow]
    exact bind_eq_error.mpr (.inr ⟨_, hsecond, bind_eq_error.mpr (.inl (readByte_fetch_refused hlaunch' h2))⟩)

/-! ### The end of a run -/

/-- A run is over at `END_PC`, whatever steps are left. -/
theorem runTo_at_endPc {endPc : Word} (n : Nat) (h : s.pc = endPc) : runTo endPc n s = .over s := by
  cases n <;> exact if_pos h

theorem runTo_zero {endPc : Word} (h : s.pc ≠ endPc) : runTo endPc 0 s = .running s := if_neg h

theorem runTo_succ_of_next {endPc : Word} (n : Nat) (h : s.pc ≠ endPc) (hstep : step s = .next t) :
    runTo endPc (n + 1) s = runTo endPc n t := by
  rw [runTo, if_neg h, hstep]

theorem runTo_succ_of_refused {endPc : Word} (n : Nat) (h : s.pc ≠ endPc) (hstep : step s = .refused r) :
    runTo endPc (n + 1) s = .refused r := by
  rw [runTo, if_neg h, hstep]

/-- A run that is over is at `END_PC`, and more steps allowed leave it over: by the steps it took. -/
theorem runTo_over {endPc : Word} {n : Nat} (h : runTo endPc n s = .over t) :
    t.pc = endPc ∧ ∀ m, runTo endPc (n + m) s = .over t := by
  induction n generalizing s with
  | zero =>
    by_cases hpc : s.pc = endPc
    · cases (runTo_at_endPc 0 hpc).symm.trans h
      exact ⟨hpc, fun m => runTo_at_endPc _ hpc⟩
    · cases (runTo_zero hpc).symm.trans h
  | succ n ih =>
    by_cases hpc : s.pc = endPc
    · cases (runTo_at_endPc (n + 1) hpc).symm.trans h
      exact ⟨hpc, fun m => runTo_at_endPc _ hpc⟩
    · cases hstep : step s with
      | next s1 =>
        obtain ⟨hend, hmore⟩ := ih ((runTo_succ_of_next n hpc hstep).symm.trans h)
        refine ⟨hend, fun m => ?_⟩
        rw [Nat.add_right_comm, runTo_succ_of_next _ hpc hstep, hmore]
      | refused q => cases (runTo_succ_of_refused n hpc hstep).symm.trans h
      | fault q => cases q

/-- Settles O57: the equations of `runTo`, and `runTo_over` for the run that is over. -/
theorem runsEndAtEndPc : Obligations.RunsEndAtEndPc := fun _ n _ =>
  ⟨runTo_at_endPc n, fun _ => runTo_over, fun hpc =>
    ⟨runTo_zero hpc, fun _ => runTo_succ_of_next n hpc, fun _ => runTo_succ_of_refused n hpc⟩⟩

end Sys2Proof.Machine
end
